-- ==== Sys2Proof/Word.lean ====
section
/-! DEFINITION. The word types of the block (00_scope.md R9): bytes, 16-bit and 32-bit words, and the
canonical sparse memory that holds a byte buffer. -/

namespace Sys2Proof

/-- A byte, 8 bits (R9). -/
abbrev Byte := BitVec 8

/-- A 16-bit word: CRC values and dictionary indices (R22, R28). -/
abbrev Half := BitVec 16

/-- A 32-bit word: values, abort codes, the timer (R27, R28). -/
abbrev Word := BitVec 32

/-- A byte buffer as (address, byte) pairs, addresses strictly rising; an unlisted address holds no value
(10_state.md R24, R26, R36). -/
abbrev Memory := List Host.Cell

end Sys2Proof
end

