-- ==== Sys2Proof/Config.lean ====
section
/-! DEFINITION. The configuration record `cfg` (00_scope.md R5), its well-formedness (R6), its default column,
and the free values the spec leaves open (10_state.md R36, R37). -/

namespace Sys2Proof

/-- The configuration record of R5: constants fixed when the block is built. TICK_PERIOD, HOST_BINDING and
OD_TABLE are open parameters on which no rule depends (log 20). -/
structure Cfg where
  /-- `CRC_POLY`: bit i is the coefficient of x^i, the x^16 term left out. -/
  crcPoly : Half
  /-- `CRC_INIT`: the seed. -/
  crcInit : Half
  /-- `CRC_REFIN`: bytes enter least significant bit first. -/
  crcRefin : Bool
  /-- `CRC_REFOUT`: the register is bit-reversed before the final XOR. -/
  crcRefout : Bool
  /-- `CRC_XOROUT`: the final XOR. -/
  crcXorout : Half
  /-- `CRC_LOFIRST`: the CRC field's low byte is sent first. -/
  crcLofirst : Bool
  /-- `START`: the start marker. -/
  start : Byte
  /-- `ESC`: the escape byte. -/
  esc : Byte
  /-- `END_PRESENT`: a literal end marker follows the CRC field. -/
  endPresent : Bool
  /-- `END`: the end marker, read only when `END_PRESENT`. -/
  endByte : Byte
  /-- `RESERVED`: the byte values escaped inside a frame; a set, only membership is asked. -/
  reserved : List Byte
  /-- `OP_READ`: frame opcode of a dictionary read. -/
  opRead : Byte
  /-- `OP_WRITE`: frame opcode of a dictionary write. -/
  opWrite : Byte
  deriving DecidableEq, Repr

/-- A well-formed configuration, R6 (a) to (e). -/
abbrev Cfg.WellFormed (c : Cfg) : Prop :=
  c.start ∈ c.reserved ∧ c.esc ∈ c.reserved ∧ (c.endPresent = true → c.endByte ∈ c.reserved) ∧
    c.crcPoly ≠ 0 ∧ c.opRead ≠ c.opWrite

/-- The default column of R5. DESIGN CHOICE (log 1): the spec's own placeholder values, not a claim about any
drive; no rule reads them, every rule names a field of `Cfg`. -/
def Cfg.default : Cfg where
  crcPoly := 0x1021
  crcInit := 0x0000
  crcRefin := false
  crcRefout := false
  crcXorout := 0x0000
  crcLofirst := true
  start := 0x7E
  esc := 0x7D
  endPresent := false
  endByte := 0x7E
  reserved := [0x7E, 0x7D]
  opRead := 0x01
  opWrite := 0x02

/-- The value a read of CRC yields while the register holds none: any 16-bit value, chosen afresh at each read
(R37). Free: the argument is the draw counter (log 4). -/
opaque Config.freeCrc : Nat → BitVec 16

/-- What a read of a byte of PAY yields while that byte holds no value (R24, R36): free in the draw counter and
the index (log 7). -/
opaque Config.freePay : Nat → Nat → BitVec 8

/-- What a read of a byte of WIRE yields while that byte holds no value (R26, R36): free in the draw counter and
the index (log 7). -/
opaque Config.freeWire : Nat → Nat → BitVec 8

end Sys2Proof
end

