-- ==== Sys2Proof/Machine/State.lean ====
section
/-! DEFINITION. The state of the block (10_state.md), of its transport (R34) and of the run (the model's own
fields), the reasons a step can stop, and the state after reset (R36, R320, R321). -/

namespace Sys2Proof.Machine

/-- Why a step stops with a fault. -/
inductive Fault where
  /-- The handling of TXRESULT or RESET met WLEN above 520, an index outside WIRE[0..519] (10_state.md R26).
  Raised by Step.lean. Safe: the spec gives such an access no meaning and no reachable state has such a WLEN
  (log 15). -/
  | wireIndex
  deriving DecidableEq, Repr

/-- Why a step has no meaning. -/
inductive Refusal where
  /-- An instruction without a meaning: no arm of `exec` answers it. Safe. -/
  | notModelled (mnemonic : String)
  /-- The configuration is not well formed: 00_scope.md R6 "a configuration that is not well formed is refused".
  Raised by `step`. Safe (log 19). -/
  | illFormedConfig
  /-- The bytes offered on the command port are no record of the layout log 3 fixes for the open HOST_BINDING
  (a missing or left-over operand byte, no code at all). Raised by `step`. Safe (log 14). -/
  | malformedRecord
  deriving DecidableEq, Repr

/-- The causes of FrameError (60_exceptions.md R282). -/
inductive FrameCause where
  | marker
  | trunc
  | length
  | crc
  deriving DecidableEq, Repr

/-- The causes of ProtocolError (R283). -/
inductive ProtoCause where
  | opcode
  | shape
  | width
  deriving DecidableEq, Repr

/-- The causes of CommandError (R284). -/
inductive CmdCause where
  | illegal
  | length
  | operand
  deriving DecidableEq, Repr

/-- The error kinds (R281), the four of the Device Controller among them, which the block never raises (R288). -/
inductive ErrKind where
  | frameError
  | transportTimeout
  | protocolError
  | deviceError
  | deviceFault
  | enableTimeout
  | homingTimeout
  | motionTimeout
  | transportWriteFail
  | commandError
  deriving DecidableEq, Repr

/-- What the block can `raise` (R281 to R285): a kind with its cause and info. -/
inductive BlockError where
  | frame (cause : FrameCause)
  | transportTimeout
  | protocol (cause : ProtoCause)
  | device (abt : Word)
  | transportWriteFail
  | command (cause : CmdCause)
  deriving DecidableEq, Repr

/-- FPH, the framer phase (10_state.md R30). -/
inductive FPhase where
  /-- F_IDLE: no command in progress -/
  | idle
  /-- F_SEND: a wire frame has been handed to the transport, TXRESULT is awaited -/
  | send
  /-- F_WAIT: a response frame is awaited or being received -/
  | wait
  deriving DecidableEq, Repr

/-- DPH, the decoder phase (R30). D_ERR carries the `cause` written with it (R190, R194 to R197; log 16). -/
inductive DPhase where
  | start
  | body
  | endMark
  | done
  | err (cause : FrameCause)
  deriving DecidableEq, Repr

/-- ODK: which check a response gets (R28). -/
inductive OdKind where
  | none
  | rd
  | wr
  deriving DecidableEq, Repr

/-- WID: the legal widths 1, 2 and 4 (R28). -/
inductive Width where
  | w1
  | w2
  | w4
  deriving DecidableEq, Repr

/-- The results of a command that ends in Ok (30_encoding.md R120). -/
inductive Results where
  /-- none (CRC.INIT, CRC.BYTE, OD.WRITE's Ack) -/
  | none
  /-- `c` (CRC.GET, CRC.BLK) -/
  | crc (c : Half)
  /-- `w` (ENCODE) -/
  | wire (w : List Byte)
  /-- `op`, `pay` (DECODE, XFER) -/
  | frame (op : Byte) (pay : List Byte)
  /-- `val` (OD.READ) -/
  | value (v : Word)
  deriving DecidableEq, Repr

/-- A completion record (60_exceptions.md R286). -/
inductive Completion where
  | ok (r : Results)
  | err (ekind ecause : Byte) (einfo : Word)
  deriving DecidableEq, Repr

/-- The environment's answer to a TXWRITE (20_memory.md R68); on `fail` the transport has sent the first `k`
bytes, the environment's choice. -/
inductive TxResult where
  | ok
  | fail (k : Nat)
  deriving DecidableEq, Repr

/-- Who acts next, with the choices the environment makes (00_scope.md R8; log 2). -/
inductive Turn where
  /-- the host offers its next command record on the command port (R32, R301) -/
  | host
  /-- TXRESULT (20_memory.md R68) -/
  | txResult (r : TxResult)
  /-- the transport appends bytes to the tail of RXQ (R63), a frame of the drive among them (log 8); the block takes
  none of them in this step -/
  | rxArrive (bs : List Byte)
  /-- RXBYTE (R69) -/
  | rxByte
  /-- TICK (R70) -/
  | tick
  /-- RESET (70_reset_and_hazards.md R320); of a frame outstanding at the transport the first `k` bytes have
  been sent, the environment's choice (R322; log 6) -/
  | reset (k : Nat)
  deriving DecidableEq, Repr

/-- The state. -/
structure State where
  /-- the configuration `cfg` (00_scope.md R5); no step changes it (log 1) -/
  cfg : Cfg
  /-- CRC (R22) -/
  crc : Half
  /-- whether CRC holds a value (R36, R37) -/
  crcSet : Bool
  /-- OPC (R23) -/
  opc : Byte
  /-- LEN (R23) -/
  len : Byte
  /-- PAY[0..254] (R24) -/
  pay : Memory
  /-- RCRC (R25) -/
  rcrc : Half
  /-- WIRE[0..519] (R26) -/
  wire : Memory
  /-- WLEN (R26) -/
  wlen : BitVec 10
  /-- TMR (R27) -/
  tmr : Word
  /-- IDX (R28) -/
  idx : Half
  /-- SUB (R28) -/
  sub : Byte
  /-- WID (R28) -/
  wid : Width
  /-- SGN (R28) -/
  sgn : Bool
  /-- VAL (R28) -/
  val : Word
  /-- ABT (R28) -/
  abt : Word
  /-- REQOP (R28) -/
  reqop : Byte
  /-- ODK (R28) -/
  odk : OdKind
  /-- RES (R29): the last completion record, none before the first completion since reset (R36) -/
  res : Option Completion
  /-- FPH (R30) -/
  fph : FPhase
  /-- DPH (R30) -/
  dph : DPhase
  /-- N (R30) -/
  n : BitVec 9
  /-- BUSY (R31) -/
  busy : Bool
  /-- ESCF (R31) -/
  escf : Bool
  /-- RXANY (R31) -/
  rxany : Bool
  /-- RXQ, the transport's receive queue, head first (R34, R63) -/
  rxq : List Byte
  /-- TXS, the transmit stream, oldest byte first (R34, R62) -/
  txs : List Byte
  /-- the host's program: command records not yet accepted (log 2) -/
  cmds : List (List Byte)
  /-- who acts next (log 2) -/
  turns : List Turn
  /-- the completion port's stream, oldest record first (R32; log 17) -/
  records : List Completion
  /-- the TXWRITE events issued, oldest first (R67; log 17) -/
  writes : List (List Byte)
  /-- the counter the reads of a valueless CRC advance (R37; log 4) -/
  draws : Nat
  deriving DecidableEq, Repr

/-- The machine right after reset (R36, R321), in the default configuration, at the beginning of a run. FPH, BUSY,
DPH, ESCF, RXANY, ODK and RES are the spec's; CRC, PAY and WIRE hold no value; the other registers' numbers are
DESIGN CHOICE (log 5), RXQ and TXS empty are log 11's. -/
def State.reset : State where
  cfg := Cfg.default
  crc := 0
  crcSet := false
  opc := 0
  len := 0
  pay := []
  rcrc := 0
  wire := []
  wlen := 0
  tmr := 0
  idx := 0
  sub := 0
  wid := .w1
  sgn := false
  val := 0
  abt := 0
  reqop := 0
  odk := .none
  res := none
  fph := .idle
  dph := .start
  n := 0
  busy := false
  escf := false
  rxany := false
  rxq := []
  txs := []
  cmds := []
  turns := []
  records := []
  writes := []
  draws := 0

end Sys2Proof.Machine
end

