-- ==== Sys2Proof/Machine/Flags.lean ====
section
/-! DEFINITION. The three flags BUSY, ESCF and RXANY (10_state.md R31); there are no arithmetic condition codes. -/

namespace Sys2Proof.Machine

/-- The command port is ready exactly when BUSY is 0 (R32). -/
def State.ready (s : State) : Bool := !s.busy

/-- Acceptance of a command that needs the environment: BUSY <- 1 with FPH <- F_SEND (R31, R222). -/
def State.enterSend (s : State) : State := { s with busy := true, fph := .send }

/-- The end of every command: BUSY <- 0 with FPH <- F_IDLE (R230, R294). -/
def State.leaveBusy (s : State) : State := { s with busy := false, fph := .idle }

/-- ESCF <- b (R191). -/
def State.setEsc (s : State) (b : Bool) : State := { s with escf := b }

/-- RXANY <- b (R224, R227). -/
def State.setRxAny (s : State) (b : Bool) : State := { s with rxany := b }

end Sys2Proof.Machine
end

