-- ==== Sys2Proof/Machine/Bits.lean ====
section
/-! DEFINITION. The bit and byte-order helpers of 00_scope.md R9. -/

namespace Sys2Proof.Machine

/-- `lo8(w) = w[7:0]` (R9). -/
def lo8 (w : Half) : Byte := w.extractLsb' 0 8

/-- `hi8(w) = w[15:8]` (R9). -/
def hi8 (w : Half) : Byte := w.extractLsb' 8 8

/-- `w` with `w[7:0]` replaced by `b` (`RCRC[7:0] <- b`, R194). -/
def setLo8 (w : Half) (b : Byte) : Half := hi8 w ++ b

/-- `w` with `w[15:8]` replaced by `b` (`RCRC[15:8] <- b`, R194). -/
def setHi8 (w : Half) (b : Byte) : Half := b ++ lo8 w

/-- `rev8(b)`: bit i of the result is `b[7-i]` (R9). -/
def rev8 (b : Byte) : Byte := BitVec.ofFnLE fun i : Fin 8 => b.getLsbD (7 - i)

/-- `rev16(w)`: bit i of the result is `w[15-i]` (R9). -/
def rev16 (w : Half) : Half := BitVec.ofFnLE fun i : Fin 16 => w.getLsbD (15 - i)

/-- `le_k(v)`: k bytes, least significant first (R9). -/
def le : Nat → Word → List Byte
  | 0, _ => []
  | k + 1, v => v.extractLsb' 0 8 :: le k (v >>> 8)

/-- `unle(s) = sum over i of s[i] << (8*i)` (R9) on 32 bits; the summands share no bit, so the sum is an `or`. -/
def unle : List Byte → Word
  | [] => 0
  | b :: bs => b.setWidth 32 ||| (unle bs <<< 8)

end Sys2Proof.Machine
end

