-- ==== Sys2Proof/Syntax.lean ====
section
/-! DEFINITION. The instructions: one constructor for each row of spec/opcode_table.json, the nine commands
(30_encoding.md R120) and the ten frame shapes (R101, R112 to R115, R127). -/

namespace Sys2Proof

/-- The direction in which a frame crosses the link. WR.REQ.1 and WR.RSP have the same first three bytes and are
"told apart by direction only" (opcode_table.json, row WR.RSP). -/
inductive Dir where
  /-- host to drive: a request -/
  | toDrive
  /-- drive to host: a response -/
  | fromDrive
  deriving DecidableEq, Repr

/-- The instructions of the block. A command carries the operands of R120; `wid` is one byte so that the values
R122 refuses can be offered. A frame shape carries its variable fields and the 16-bit value of its CRC field
(R101), which on a received frame need not be the right one; START, LEN and END follow from the shape. -/
inductive Instr where
  /-- CRC.INIT, R156 -/
  | crcInit
  /-- CRC.BYTE, R157 -/
  | crcByte (b : Byte)
  /-- CRC.GET, R158 -/
  | crcGet
  /-- CRC.BLK, R159 -/
  | crcBlk (s : List Byte)
  /-- ENCODE, R176 -/
  | encode (op : Byte) (pay : List Byte)
  /-- DECODE, R198 -/
  | decode (w : List Byte)
  /-- XFER, R222 -/
  | xfer (op : Byte) (pay : List Byte) (tmo : Word)
  /-- OD.READ, R250 -/
  | odRead (idx : Half) (sub : Byte) (wid : Byte) (sgn : Bool) (tmo : Word)
  /-- OD.WRITE, R256 -/
  | odWrite (idx : Half) (sub : Byte) (val : Word) (wid : Byte) (tmo : Word)
  /-- FRAME, R101: any logical frame of no more specific shape -/
  | frame (dir : Dir) (opc : Byte) (pay : List Byte) (crc : Half)
  /-- RD.REQ, R112 -/
  | rdReq (idx : Half) (sub : Byte) (crc : Half)
  /-- WR.REQ.1, R113 -/
  | wrReq1 (idx : Half) (sub : Byte) (val : Byte) (crc : Half)
  /-- WR.REQ.2, R113 -/
  | wrReq2 (idx : Half) (sub : Byte) (val : Half) (crc : Half)
  /-- WR.REQ.4, R113 -/
  | wrReq4 (idx : Half) (sub : Byte) (val : Word) (crc : Half)
  /-- RD.RSP.1, R114 -/
  | rdRsp1 (abt : Word) (val : Byte) (crc : Half)
  /-- RD.RSP.2, R114 -/
  | rdRsp2 (abt : Word) (val : Half) (crc : Half)
  /-- RD.RSP.4, R114 -/
  | rdRsp4 (abt : Word) (val : Word) (crc : Half)
  /-- RD.RSP.0, R114: a read response without value bytes -/
  | rdRsp0 (abt : Word) (crc : Half)
  /-- WR.RSP, R115 -/
  | wrRsp (abt : Word) (crc : Half)
  deriving DecidableEq, Repr

/-- Where an instruction comes from: the command port (10_state.md R32) or the link, in one direction. -/
inductive Port where
  | command
  | link (d : Dir)
  deriving DecidableEq, Repr

/-- The port an instruction arrives at. -/
def Instr.port : Instr → Port
  | .crcInit => .command
  | .crcByte _ => .command
  | .crcGet => .command
  | .crcBlk _ => .command
  | .encode _ _ => .command
  | .decode _ => .command
  | .xfer _ _ _ => .command
  | .odRead _ _ _ _ _ => .command
  | .odWrite _ _ _ _ _ => .command
  | .frame d _ _ _ => .link d
  | .rdReq _ _ _ => .link .toDrive
  | .wrReq1 _ _ _ _ => .link .toDrive
  | .wrReq2 _ _ _ _ => .link .toDrive
  | .wrReq4 _ _ _ _ => .link .toDrive
  | .rdRsp1 _ _ _ => .link .fromDrive
  | .rdRsp2 _ _ _ => .link .fromDrive
  | .rdRsp4 _ _ _ => .link .fromDrive
  | .rdRsp0 _ _ => .link .fromDrive
  | .wrRsp _ _ => .link .fromDrive

end Sys2Proof
end

