-- ==== Sys2Proof/WellFormed.lean ====
section
/-! DEFINITION. Which instructions have an encoding (`Instr.WellFormed`), and which operands the table admits
(`Instr.OperandsLegal`, 30_encoding.md R122). -/

namespace Sys2Proof

/-- The (direction, OPC, LEN) triples that a frame row more specific than FRAME claims (R112 to R115, R127). -/
abbrev IsDictionaryShape (c : Cfg) (d : Dir) (opc : Byte) (len : Nat) : Prop :=
  match d with
  | .toDrive => (opc = c.opRead ∧ len = 3) ∨ (opc = c.opWrite ∧ (len = 4 ∨ len = 5 ∨ len = 7))
  | .fromDrive =>
      (opc = c.opRead ∧ (len = 4 ∨ len = 5 ∨ len = 6 ∨ len = 8)) ∨ (opc = c.opWrite ∧ len = 4)

/-- An instruction that has an encoding of its own: every command has (operands R122 refuses can be offered and
are answered with an error); a generic frame must fit LEN (R101) and must not be a dictionary shape. -/
def Instr.WellFormed (c : Cfg) : Instr → Prop
  | .crcInit => True
  | .crcByte _ => True
  | .crcGet => True
  | .crcBlk _ => True
  | .encode _ _ => True
  | .decode _ => True
  | .xfer _ _ _ => True
  | .odRead _ _ _ _ _ => True
  | .odWrite _ _ _ _ _ => True
  | .frame d opc pay _ => pay.length ≤ 255 ∧ ¬ IsDictionaryShape c d opc pay.length
  | .rdReq _ _ _ => True
  | .wrReq1 _ _ _ _ => True
  | .wrReq2 _ _ _ _ => True
  | .wrReq4 _ _ _ _ => True
  | .rdRsp1 _ _ _ => True
  | .rdRsp2 _ _ _ => True
  | .rdRsp4 _ _ _ => True
  | .rdRsp0 _ _ => True
  | .wrRsp _ _ => True

/-- The operands opcode_table.json admits; outside them the command is answered with CommandError (R122). -/
def Instr.OperandsLegal : Instr → Prop
  | .crcInit => True
  | .crcByte _ => True
  | .crcGet => True
  | .crcBlk _ => True
  | .encode _ pay => pay.length ≤ 255
  | .decode _ => True
  | .xfer _ pay tmo => pay.length ≤ 255 ∧ tmo ≠ 0
  | .odRead _ _ wid _ tmo => (wid = 1 ∨ wid = 2 ∨ wid = 4) ∧ tmo ≠ 0
  | .odWrite _ _ _ wid tmo => (wid = 1 ∨ wid = 2 ∨ wid = 4) ∧ tmo ≠ 0
  | .frame _ _ _ _ => True
  | .rdReq _ _ _ => True
  | .wrReq1 _ _ _ _ => True
  | .wrReq2 _ _ _ _ => True
  | .wrReq4 _ _ _ _ => True
  | .rdRsp1 _ _ _ => True
  | .rdRsp2 _ _ _ => True
  | .rdRsp4 _ _ _ => True
  | .rdRsp0 _ _ => True
  | .wrRsp _ _ => True

end Sys2Proof
end

