-- ==== Sys2Proof/Decode.lean ====
section
/-! DEFINITION. The decoder: command records (30_encoding.md R120; the byte layout is log 3's, HOST_BINDING being
open) and logical frames (R101, R112 to R115), total on any bytes, rejecting by name; then the encoder; then the
reading of the opcode table's words. -/

namespace Sys2Proof

open Machine

/-- Why bytes are no instruction. -/
inductive DecodeError where
  /-- the command port holds a record of no bytes: no command code (log 14) -/
  | emptyRecord
  /-- a code that is not one of the nine of R120 (R121) -/
  | illegalCode (code : Byte)
  /-- operand bytes missing or left over in a record of log 3's layout (log 14) -/
  | recordLength (code : Byte)
  /-- the byte of the 1-bit operand `sgn` is neither 0 nor 1 (log 3, log 14) -/
  | notABit (b : Byte)
  /-- the first byte of a logical frame is not START (R101) -/
  | notStart (b : Byte)
  /-- a logical frame ends before its CRC field is complete (R101) -/
  | shortFrame
  /-- what follows the CRC field is not the end marker, or not nothing (R101) -/
  | badEnd
  deriving DecidableEq, Repr

/-- Two bytes of a record as a 16-bit operand, least significant first (log 3). -/
def half (b0 b1 : Byte) : Half := b1 ++ b0

/-- Four bytes of a record as a 32-bit operand, least significant first (log 3). -/
def word (b0 b1 b2 b3 : Byte) : Word := b3 ++ b2 ++ b1 ++ b0

/-- A command record: the code, then its fixed operands in the order of R120, least significant byte first, then
the byte sequence operand as the rest of the record (R120; DESIGN CHOICE, log 3). -/
def decodeCommand : List Byte → Except DecodeError Instr
  | [] => .error .emptyRecord
  | code :: ops =>
    match code.toNat with
    | 0x01 => match ops with
      | [] => .ok .crcInit
      | _ => .error (.recordLength code)
    | 0x02 => match ops with
      | [b] => .ok (.crcByte b)
      | _ => .error (.recordLength code)
    | 0x03 => match ops with
      | [] => .ok .crcGet
      | _ => .error (.recordLength code)
    | 0x04 => .ok (.crcBlk ops)
    | 0x10 => match ops with
      | op :: pay => .ok (.encode op pay)
      | _ => .error (.recordLength code)
    | 0x11 => .ok (.decode ops)
    | 0x20 => match ops with
      | op :: t0 :: t1 :: t2 :: t3 :: pay => .ok (.xfer op pay (word t0 t1 t2 t3))
      | _ => .error (.recordLength code)
    | 0x30 => match ops with
      | [i0, i1, sub, wid, sgn, t0, t1, t2, t3] =>
        if sgn = 0 then .ok (.odRead (half i0 i1) sub wid false (word t0 t1 t2 t3))
        else if sgn = 1 then .ok (.odRead (half i0 i1) sub wid true (word t0 t1 t2 t3))
        else .error (.notABit sgn)
      | _ => .error (.recordLength code)
    | 0x31 => match ops with
      | [i0, i1, sub, v0, v1, v2, v3, wid, t0, t1, t2, t3] =>
        .ok (.odWrite (half i0 i1) sub (word v0 v1 v2 v3) wid (word t0 t1 t2 t3))
      | _ => .error (.recordLength code)
    | _ => .error (.illegalCode code)

/-- Which frame row a logical frame of direction `d` is (R127): by OPC and LEN, with OP_READ and OP_WRITE of the
configuration; FRAME when no dictionary shape fits. -/
def classifyFrame (c : Cfg) (d : Dir) (opc : Byte) (pay : List Byte) (crc : Half) : Instr :=
  match d with
  | .toDrive =>
    if opc = c.opRead then
      match pay with
      | [i0, i1, sub] => .rdReq (half i0 i1) sub crc
      | _ => .frame d opc pay crc
    else if opc = c.opWrite then
      match pay with
      | [i0, i1, sub, v0] => .wrReq1 (half i0 i1) sub v0 crc
      | [i0, i1, sub, v0, v1] => .wrReq2 (half i0 i1) sub (half v0 v1) crc
      | [i0, i1, sub, v0, v1, v2, v3] => .wrReq4 (half i0 i1) sub (word v0 v1 v2 v3) crc
      | _ => .frame d opc pay crc
    else .frame d opc pay crc
  | .fromDrive =>
    if opc = c.opRead then
      match pay with
      | [a0, a1, a2, a3] => .rdRsp0 (word a0 a1 a2 a3) crc
      | [a0, a1, a2, a3, v0] => .rdRsp1 (word a0 a1 a2 a3) v0 crc
      | [a0, a1, a2, a3, v0, v1] => .rdRsp2 (word a0 a1 a2 a3) (half v0 v1) crc
      | [a0, a1, a2, a3, v0, v1, v2, v3] => .rdRsp4 (word a0 a1 a2 a3) (word v0 v1 v2 v3) crc
      | _ => .frame d opc pay crc
    else if opc = c.opWrite then
      match pay with
      | [a0, a1, a2, a3] => .wrRsp (word a0 a1 a2 a3) crc
      | _ => .frame d opc pay crc
    else .frame d opc pay crc

/-- The bytes after the CRC field: the end marker when configured (R101, R104). -/
def endPart (c : Cfg) : List Byte := if c.endPresent then [c.endByte] else []

/-- The two bytes of the CRC field (R103). -/
def crcField (c : Cfg) (crc : Half) : List Byte :=
  if c.crcLofirst then [lo8 crc, hi8 crc] else [hi8 crc, lo8 crc]

/-- The 16-bit value of a CRC field's bytes in wire order (R103). -/
def crcOfField (c : Cfg) (c0 c1 : Byte) : Half := if c.crcLofirst then c1 ++ c0 else c0 ++ c1

/-- A logical frame (R101): START, OPC, LEN, LEN payload bytes, the CRC field, the end marker when configured. -/
def decodeFrame (c : Cfg) (d : Dir) : List Byte → Except DecodeError Instr
  | st :: opc :: len :: rest =>
    if st = c.start then
      match rest.drop len.toNat with
      | c0 :: c1 :: tail =>
        if tail = endPart c then .ok (classifyFrame c d opc (rest.take len.toNat) (crcOfField c c0 c1))
        else .error .badEnd
      | _ => .error .shortFrame
    else .error (.notStart st)
  | st :: _ => if st = c.start then .error .shortFrame else .error (.notStart st)
  | [] => .error .shortFrame

/-- The decoder: the instruction that stands at a port. -/
def decode (c : Cfg) (p : Port) (bs : List Byte) : Except DecodeError Instr :=
  match p with
  | .command => decodeCommand bs
  | .link d => decodeFrame c d bs

/-! ## The encoder -/

/-- A 16-bit operand as two bytes, least significant first (log 3, R112). -/
def halfBytes (h : Half) : List Byte := [lo8 h, hi8 h]

/-- A 32-bit operand as four bytes, least significant first (log 3, R114). -/
def wordBytes (w : Word) : List Byte :=
  [w.extractLsb' 0 8, w.extractLsb' 8 8, w.extractLsb' 16 8, w.extractLsb' 24 8]

/-- The logical frame of R101. -/
def logicalFrame (c : Cfg) (opc : Byte) (pay : List Byte) (crc : Half) : List Byte :=
  c.start :: opc :: BitVec.ofNat 8 pay.length :: (pay ++ crcField c crc ++ endPart c)

/-- OPC, payload and CRC field value of a frame row (R101, R112 to R115); none for a command. -/
def Instr.frameParts (c : Cfg) : Instr → Option (Byte × List Byte × Half)
  | .crcInit => none
  | .crcByte _ => none
  | .crcGet => none
  | .crcBlk _ => none
  | .encode _ _ => none
  | .decode _ => none
  | .xfer _ _ _ => none
  | .odRead _ _ _ _ _ => none
  | .odWrite _ _ _ _ _ => none
  | .frame _ opc pay crc => some (opc, pay, crc)
  | .rdReq idx sub crc => some (c.opRead, halfBytes idx ++ [sub], crc)
  | .wrReq1 idx sub val crc => some (c.opWrite, halfBytes idx ++ [sub, val], crc)
  | .wrReq2 idx sub val crc => some (c.opWrite, halfBytes idx ++ sub :: halfBytes val, crc)
  | .wrReq4 idx sub val crc => some (c.opWrite, halfBytes idx ++ sub :: wordBytes val, crc)
  | .rdRsp1 abt val crc => some (c.opRead, wordBytes abt ++ [val], crc)
  | .rdRsp2 abt val crc => some (c.opRead, wordBytes abt ++ halfBytes val, crc)
  | .rdRsp4 abt val crc => some (c.opRead, wordBytes abt ++ wordBytes val, crc)
  | .rdRsp0 abt crc => some (c.opRead, wordBytes abt, crc)
  | .wrRsp abt crc => some (c.opWrite, wordBytes abt, crc)

/-- The record of a command in log 3's layout (R120). -/
def encodeCommand : Instr → List Byte
  | .crcInit => [0x01]
  | .crcByte b => [0x02, b]
  | .crcGet => [0x03]
  | .crcBlk s => 0x04 :: s
  | .encode op pay => 0x10 :: op :: pay
  | .decode w => 0x11 :: w
  | .xfer op pay tmo => 0x20 :: op :: (wordBytes tmo ++ pay)
  | .odRead idx sub wid sgn tmo =>
      0x30 :: (halfBytes idx ++ [sub, wid, if sgn then 1 else 0] ++ wordBytes tmo)
  | .odWrite idx sub val wid tmo =>
      0x31 :: (halfBytes idx ++ [sub] ++ wordBytes val ++ [wid] ++ wordBytes tmo)
  | .frame _ _ _ _ => []
  | .rdReq _ _ _ => []
  | .wrReq1 _ _ _ _ => []
  | .wrReq2 _ _ _ _ => []
  | .wrReq4 _ _ _ _ => []
  | .rdRsp1 _ _ _ => []
  | .rdRsp2 _ _ _ => []
  | .rdRsp4 _ _ _ => []
  | .rdRsp0 _ _ => []
  | .wrRsp _ _ => []

/-- The encoder: a command's record, a frame row's logical frame. -/
def encode (c : Cfg) (i : Instr) : List Byte :=
  match i.frameParts c with
  | some (opc, pay, crc) => logicalFrame c opc pay crc
  | none => encodeCommand i

/-! ## The words of the opcode table -/

/-- How many operand bytes a record of this code has before its byte sequence (log 3). -/
def fixedOperandBytes (code : Byte) : Nat :=
  match code.toNat with
  | 0x02 => 1
  | 0x10 => 1
  | 0x20 => 5
  | 0x30 => 9
  | 0x31 => 12
  | _ => 0

/-- The record whose code is the low byte of `w` and whose operand bytes are zeros. -/
def tableRecord (w : Nat) : List Byte :=
  let code := BitVec.ofNat 8 w
  code :: List.replicate (fixedOperandBytes code) 0

/-- The logical frame whose first three bytes are the 24 bits of `w`, most significant byte first (R127: START
is bits 23 to 16), and whose payload and CRC bytes are zeros; the end marker is the constant it is. -/
def tableFrame (c : Cfg) (w : Nat) : List Byte :=
  let len := BitVec.ofNat 8 w
  BitVec.ofNat 8 (w / 65536) :: BitVec.ofNat 8 (w / 256) :: len ::
    (List.replicate (len.toNat + 2) 0 ++ endPart c)

/-- The direction a frame word of the table is read in: to the drive when it has the shape of a request, else
from the drive. The one shape both directions share, WR.REQ.1 and WR.RSP, is read as the request, the earlier row
(DESIGN CHOICE, log 10). -/
def tableDir (c : Cfg) (bs : List Byte) : Dir :=
  match decodeFrame c .toDrive bs with
  | .ok (.frame _ _ _ _) => .fromDrive
  | .ok _ => .toDrive
  | .error _ => .fromDrive

/-- The port and the bytes of the instruction that a word of the opcode table stands for: rows of 8 bits are
commands, rows of 24 bits are frames. -/
def tableBytes (c : Cfg) (nbits w : Nat) : Option (Port × List Byte) :=
  if nbits ≤ 8 then some (.command, tableRecord w)
  else if nbits ≤ 24 then some (.link (tableDir c (tableFrame c w)), tableFrame c w)
  else none

/-- The instruction this decoder reads from a word of the opcode table, in the default configuration the table is
written for (R127). -/
def decodeTableWord (nbits w : Nat) : Option Instr :=
  match tableBytes Cfg.default nbits w with
  | none => none
  | some (p, bs) =>
    match decode Cfg.default p bs with
    | .ok i => some i
    | .error _ => none

end Sys2Proof
end

