-- ==== Sys2Proof/Machine/Crc.lean ====
section
/-! DEFINITION. The CRC-16 generator as functions (40_crc.md R141 to R146). -/

namespace Sys2Proof.Machine

/-- `crc_bit(c, d)`: one step of the shift register (R141). -/
def crcBit (c : Cfg) (r : Half) (d : Bool) : Half :=
  if (r.getLsbD 15 ^^ d) = true then (r <<< 1) ^^^ c.crcPoly else r <<< 1

/-- The byte as it enters the generator (R143): reversed when CRC_REFIN. -/
def crcIn (c : Cfg) (b : Byte) : Byte := if c.crcRefin then rev8 b else b

/-- `crc_byte(c, b)`: eight steps, bit 7 of the entering byte first (R143). -/
def crcByte (c : Cfg) (r : Half) (b : Byte) : Half :=
  [7, 6, 5, 4, 3, 2, 1, 0].foldl (fun r i => crcBit c r ((crcIn c b).getLsbD i)) r

/-- One shift with no data bit, the loop body of R144. -/
def crcShift (c : Cfg) (r : Half) : Half := crcBit c r false

/-- The equal form of `crc_byte` with the whole byte XORed in first (R144). -/
def crcByteParallel (c : Cfg) (r : Half) (b : Byte) : Half :=
  (List.range 8).foldl (fun r _ => crcShift c r) (r ^^^ ((crcIn c b).setWidth 16 <<< 8))

/-- `crc_final(c)` (R145). -/
def crcFinal (c : Cfg) (r : Half) : Half := (if c.crcRefout then rev16 r else r) ^^^ c.crcXorout

/-- The register after the bytes of `s` from the value `r` (R146, R149). -/
def crcFrom (c : Cfg) (r : Half) (s : List Byte) : Half := s.foldl (crcByte c) r

/-- `crc(s)` (R146). -/
def crcOf (c : Cfg) (s : List Byte) : Half := crcFinal c (crcFrom c c.crcInit s)

end Sys2Proof.Machine
end

