-- ==== Sys2Proof/Machine/Link.lean ====
section
/-! DEFINITION. The wire form of frames as functions (30_encoding.md R102 to R105, 41_frame_encode.md R170 to
R174) and the reading of a wire frame back to the frame row it is. -/

namespace Sys2Proof.Machine

/-- `stuff(s)`: the escape byte before every reserved byte (R105, R170). -/
def stuff (c : Cfg) : List Byte → List Byte
  | [] => []
  | b :: s => if b ∈ c.reserved then c.esc :: b :: stuff c s else b :: stuff c s

/-- The unstuffing rule of R191 over a whole sequence; none when it ends right after an escape byte. -/
def unstuff (c : Cfg) : List Byte → Option (List Byte)
  | [] => some []
  | [b] => if b = c.esc then none else some [b]
  | b :: b' :: s =>
    if b = c.esc then (unstuff c s).map (b' :: ·) else (unstuff c (b' :: s)).map (b :: ·)

/-- The body `[OPC, LEN] ++ PAYLOAD`, the bytes the CRC covers (R102). -/
def frameBody (op : Byte) (pay : List Byte) : List Byte := op :: BitVec.ofNat 8 pay.length :: pay

/-- Body and CRC field, the bytes that are stuffed (R104). -/
def frameContent (c : Cfg) (op : Byte) (pay : List Byte) (crc : Half) : List Byte :=
  frameBody op pay ++ crcField c crc

/-- The wire frame with the given CRC field value (R104). -/
def wireFrame (c : Cfg) (op : Byte) (pay : List Byte) (crc : Half) : List Byte :=
  c.start :: (stuff c (frameContent c op pay crc) ++ endPart c)

/-- `encode(op, pay)` (R174). -/
def encodeFrame (c : Cfg) (op : Byte) (pay : List Byte) : List Byte :=
  wireFrame c op pay (crcOf c (frameBody op pay))

/-- The wire form of a frame row; none for a command. -/
def wireOf (c : Cfg) (i : Instr) : Option (List Byte) :=
  (i.frameParts c).map fun (opc, pay, crc) => wireFrame c opc pay crc

/-- The stuffed content of a wire frame: what stands between START and, when configured, END (R104). -/
def stuffedPart (c : Cfg) : List Byte → List Byte
  | [] => []
  | _ :: rest => if c.endPresent then rest.dropLast else rest

/-- The frame row a wire frame of direction `d` is, read from its bytes; none when the bytes are not the canonical
wire form of a logical frame. -/
def readWire (c : Cfg) (d : Dir) (w : List Byte) : Option Instr :=
  match unstuff c (stuffedPart c w) with
  | none => none
  | some content =>
    match decode c (.link d) (c.start :: (content ++ endPart c)) with
    | .ok i => if wireOf c i = some w then some i else none
    | .error _ => none

end Sys2Proof.Machine
end

