-- ==== Sys2Proof/Machine/Operands.lean ====
section
/-! DEFINITION. The operands of the dictionary commands: widths (30_encoding.md R122), request payloads (R112,
R113), the fields of a response (R114 to R116). -/

namespace Sys2Proof.Machine

/-- The number of bytes of a width. -/
def Width.bytes : Width → Nat
  | .w1 => 1
  | .w2 => 2
  | .w4 => 4

/-- The operand `wid`: 1, 2 or 4, every other value is refused (R122). -/
def Width.ofByte (b : Byte) : Option Width :=
  if b = 1 then some .w1 else if b = 2 then some .w2 else if b = 4 then some .w4 else none

/-- The payload of a read request: IDX[7:0], IDX[15:8], SUB (R112). -/
def readPayload (idx : Half) (sub : Byte) : List Byte := [lo8 idx, hi8 idx, sub]

/-- The payload of a write request: the address, then the low `8*WID` bits of VAL, least significant byte first
(R113, R116). -/
def writePayload (idx : Half) (sub : Byte) (val : Word) (wid : Width) : List Byte :=
  [lo8 idx, hi8 idx, sub] ++ le wid.bytes val

/-- The abort/error code of a response payload of at least four bytes (R114, R116). -/
def abortCode (rp : List Byte) : Word := unle (rp.take 4)

/-- The value bytes of a read response as a number (R116). -/
def rawValue (rp : List Byte) (wid : Width) : Word := unle ((rp.drop 4).take wid.bytes)

/-- `sext_32(raw, 8*WID)` when SGN is 1, `zext_32(raw)` when it is 0 (R116); two's complement is
PRESUMED (log 22). -/
def extendValue (sgn : Bool) (wid : Width) (raw : Word) : Word :=
  if sgn then
    match wid with
    | .w1 => (raw.setWidth 8).signExtend 32
    | .w2 => (raw.setWidth 16).signExtend 32
    | .w4 => raw
  else raw

end Sys2Proof.Machine
end

