-- ==== Sys2Proof/Machine/Ops.lean ====
section
/-! DEFINITION. The named operations over the block's registers and buffers: completion and error entry
(60_exceptions.md R286, R294), the CRC register, the encoder's machine (41_frame_encode.md R176), the decoder's
machine (42_frame_decode.md R190 to R197), the transaction (43_framer.md R222 to R230), the checks on a response
(44_dictionary.md R250, R256), and RESET (70_reset_and_hazards.md R321). -/

namespace Sys2Proof.Machine

/-! ## Error numbers (60_exceptions.md R281 to R285) -/

/-- The number of an error kind (R281). -/
def ErrKind.code : ErrKind → Byte
  | .frameError => 1
  | .transportTimeout => 2
  | .protocolError => 3
  | .deviceError => 4
  | .deviceFault => 5
  | .enableTimeout => 6
  | .homingTimeout => 7
  | .motionTimeout => 8
  | .transportWriteFail => 9
  | .commandError => 10

/-- The number of a FrameError cause (R282). -/
def FrameCause.code : FrameCause → Byte
  | .marker => 1
  | .trunc => 2
  | .length => 3
  | .crc => 4

/-- The number of a ProtocolError cause (R283). -/
def ProtoCause.code : ProtoCause → Byte
  | .opcode => 1
  | .shape => 2
  | .width => 3

/-- The number of a CommandError cause (R284). -/
def CmdCause.code : CmdCause → Byte
  | .illegal => 1
  | .length => 2
  | .operand => 3

/-- The kind of an error the block raises. -/
def BlockError.kind : BlockError → ErrKind
  | .frame _ => .frameError
  | .transportTimeout => .transportTimeout
  | .protocol _ => .protocolError
  | .device _ => .deviceError
  | .transportWriteFail => .transportWriteFail
  | .command _ => .commandError

/-- ECAUSE: the cause's number, 0 for the kinds with no cause table (R285). -/
def BlockError.cause : BlockError → Byte
  | .frame c => c.code
  | .transportTimeout => 0
  | .protocol c => c.code
  | .device _ => 0
  | .transportWriteFail => 0
  | .command c => c.code

/-- EINFO: the abort/error code for DeviceError, 0 for every other kind (R285). -/
def BlockError.info : BlockError → Word
  | .frame _ => 0
  | .transportTimeout => 0
  | .protocol _ => 0
  | .device abt => abt
  | .transportWriteFail => 0
  | .command _ => 0

/-- The record `Err(EKIND, ECAUSE, EINFO)` (R286). -/
def BlockError.record (e : BlockError) : Completion := .err e.kind.code e.cause e.info

/-! ## Completion and error entry -/

/-- RES <- the record, and the record goes out on the completion port (R286). -/
def State.deliver (s : State) (r : Completion) : State :=
  { s with res := some r, records := s.records ++ [r] }

/-- The end of a command (R230, R294): RES <- the record, the record on the completion port, BUSY <- 0,
FPH <- F_IDLE, nothing else. -/
def State.finish (s : State) (r : Completion) : State :=
  (s.deliver r).leaveBusy

/-- `complete Ok(results)` (00_scope.md R11). -/
def State.complete (s : State) (r : Results) : State := s.finish (.ok r)

/-- Error entry, `raise K(cause, info)` (R294). There is no return from it: the block is idle (R295). -/
def State.raise (s : State) (e : BlockError) : State := s.finish e.record

/-- A command is accepted only while the port is ready; offered while BUSY = 1 it is held off, with no effect and
no record (R301). -/
def State.whenReady (s : State) (f : State → State) : State := if s.ready then f s else s

/-! ## Registers and buffers -/

/-- What a read of CRC yields: the register, or any value while it holds none (10_state.md R37). -/
def State.crcValue (s : State) : Half := if s.crcSet then s.crc else Config.freeCrc s.draws

/-- A read of a valueless CRC is drawn afresh each time: the draw counter advances (R37). -/
def State.noteCrcRead (s : State) : State := if s.crcSet then s else { s with draws := s.draws + 1 }

/-- `CRC <- v`. -/
def State.setCrc (s : State) (v : Half) : State := { s with crc := v, crcSet := true }

/-- `CRC <- crc_byte(CRC, b)`. -/
def State.stepCrc (s : State) (b : Byte) : State := s.noteCrcRead.setCrc (crcByte s.cfg s.crcValue b)

/-- `PAY[k]`; a byte that holds no value reads as any value (R24, R36). -/
def State.payByte (s : State) (k : Nat) : Byte := (Memory.read s.pay k).getD (Config.freePay s.draws k)

/-- `PAY[0..LEN)`. -/
def State.payBytes (s : State) : List Byte := (List.range s.len.toNat).map s.payByte

/-- `WIRE[k]`; a byte that holds no value reads as any value (R26, R36). -/
def State.wireByte (s : State) (k : Nat) : Byte := (Memory.read s.wire k).getD (Config.freeWire s.draws k)

/-- `WIRE[0..WLEN)`. -/
def State.wireBytes (s : State) : List Byte := (List.range s.wlen.toNat).map s.wireByte

/-! ## ENC (R176) -/

/-- `put(b)`: WIRE[WLEN] <- b; WLEN <- WLEN + 1. -/
def State.put (s : State) (b : Byte) : State :=
  { s with wire := Memory.write s.wire s.wlen.toNat b, wlen := s.wlen + 1 }

/-- `putc(b)`: one content byte, escaped when reserved. -/
def State.putc (s : State) (b : Byte) : State :=
  if b ∈ s.cfg.reserved then (s.put s.cfg.esc).put b else s.put b

/-- `putc(b); CRC <- crc_byte(CRC, b)`: one body byte. -/
def State.putBody (s : State) (b : Byte) : State := (s.putc b).stepCrc b

/-- OPC <- op; LEN <- |pay|; PAY[k] <- pay[k] for k < |pay|. -/
def State.loadPayload (s : State) (op : Byte) (pay : List Byte) : State :=
  { s with opc := op, len := BitVec.ofNat 8 pay.length, pay := Memory.writeBytes s.pay 0 pay }

/-- The CRC field's two bytes, in the order of CRC_LOFIRST. -/
def State.putCrcField (s : State) : State :=
  (crcField s.cfg (crcFinal s.cfg s.crcValue)).foldl State.putc s

/-- The end marker when configured. -/
def State.putEnd (s : State) : State := if s.cfg.endPresent then s.put s.cfg.endByte else s

/-- WLEN <- 0. -/
def State.clearWire (s : State) : State := { s with wlen := 0 }

/-- The whole of R176 between the length check and the completion: WIRE[0..WLEN) becomes the wire frame. -/
def State.buildFrame (s : State) (op : Byte) (pay : List Byte) : State :=
  let s := (s.loadPayload op pay).clearWire
  let s := (s.put s.cfg.start).setCrc s.cfg.crcInit
  let s := (s.putBody s.opc).putBody s.len
  let s := s.payBytes.foldl State.putBody s
  s.putCrcField.putEnd

/-! ## DEC (R190 to R197) -/

/-- `dec_reset()` (R190). -/
def State.decReset (s : State) : State := { s with dph := .start, escf := false, n := 0 }

/-- DPH <- d. -/
def State.setPhase (s : State) (d : DPhase) : State := { s with dph := d }

/-- DPH <- D_ERR with its cause. -/
def State.decFail (s : State) (cause : FrameCause) : State := s.setPhase (.err cause)

/-- The start marker has come (R190): DPH <- D_BODY; CRC <- CRC_INIT; N <- 0; ESCF <- 0. -/
def State.startBody (s : State) : State :=
  { s with dph := .body, crc := s.cfg.crcInit, crcSet := true, n := 0, escf := false }

/-- OPC <- b. -/
def State.setOpc (s : State) (b : Byte) : State := { s with opc := b }

/-- LEN <- b. -/
def State.setLen (s : State) (b : Byte) : State := { s with len := b }

/-- PAY[k] <- b. -/
def State.setPay (s : State) (k : Nat) (b : Byte) : State := { s with pay := Memory.write s.pay k b }

/-- RCRC <- v. -/
def State.setRcrc (s : State) (v : Half) : State := { s with rcrc := v }

/-- N <- N + 1. -/
def State.countByte (s : State) : State := { s with n := s.n + 1 }

/-- The comparison of R194: does the CRC of the body agree with the one received? -/
def State.checkCrc (s : State) : State :=
  if crcFinal s.cfg s.crcValue = s.rcrc then
    s.noteCrcRead.setPhase (if s.cfg.endPresent then .endMark else .done)
  else s.noteCrcRead.decFail .crc

/-- `crc_field(b)` (R194). -/
def State.crcFieldByte (s : State) (b : Byte) : State :=
  if s.n.toNat = 2 + s.len.toNat then
    s.setRcrc (if s.cfg.crcLofirst then setLo8 s.rcrc b else setHi8 s.rcrc b)
  else (s.setRcrc (if s.cfg.crcLofirst then setHi8 s.rcrc b else setLo8 s.rcrc b)).checkCrc

/-- What the N-th content byte does, before N advances (R193). -/
def State.acceptByte (s : State) (b : Byte) : State :=
  if s.n = 0 then (s.setOpc b).stepCrc b
  else if s.n = 1 then (s.setLen b).stepCrc b
  else if s.n.toNat < 2 + s.len.toNat then
    (s.setPay (s.n.toNat - 2) b).stepCrc b
  else s.crcFieldByte b

/-- `accept(b)` (R193). -/
def State.accept (s : State) (b : Byte) : State := (s.acceptByte b).countByte

/-- `dec_step(b)` (R190, R191, R195 to R197). -/
def State.decStep (s : State) (b : Byte) : State :=
  match s.dph with
  | .start =>
    if b = s.cfg.start then s.startBody else s.decFail .marker
  | .body =>
    if s.escf then (s.setEsc false).accept b
    else if b = s.cfg.esc then s.setEsc true
    else s.accept b
  | .endMark => if b = s.cfg.endByte then s.setPhase .done else s.decFail .marker
  | .done => s.decFail .length
  | .err _ => s

/-- The loop of DECODE (R198): bytes are given until the decoder is in D_ERR. -/
def State.decFeed (s : State) : List Byte → State
  | [] => s
  | b :: w =>
    match (s.decStep b).dph with
    | .err _ => s.decStep b
    | .start => (s.decStep b).decFeed w
    | .body => (s.decStep b).decFeed w
    | .endMark => (s.decStep b).decFeed w
    | .done => (s.decStep b).decFeed w

/-- The end of DECODE (R198): the verdict on the phase the decoder is left in. -/
def State.decVerdict (s : State) : State :=
  match s.dph with
  | .err cause => s.raise (.frame cause)
  | .done => s.complete (.frame s.opc s.payBytes)
  | .start => s.raise (.frame .trunc)
  | .body => s.raise (.frame .trunc)
  | .endMark => s.raise (.frame .trunc)

/-! ## FRM (43_framer.md R222 to R230) -/

/-- TMR <- v. -/
def State.loadTimer (s : State) (v : Word) : State := { s with tmr := v }

/-- TXWRITE(w) (20_memory.md R67). -/
def State.txWrite (s : State) (w : List Byte) : State := { s with writes := s.writes ++ [w] }

/-- The transport has sent the bytes `w`: they are in TXS (R62, R68). -/
def State.transmit (s : State) (w : List Byte) : State := { s with txs := s.txs ++ w }

/-- FPH <- F_WAIT. -/
def State.enterWait (s : State) : State := { s with fph := .wait }

/-- ABT <- v. -/
def State.setAbt (s : State) (v : Word) : State := { s with abt := v }

/-- VAL <- v. -/
def State.setVal (s : State) (v : Word) : State := { s with val := v }

/-- What stays in RXQ. -/
def State.setRxq (s : State) (q : List Byte) : State := { s with rxq := q }

/-- The acceptance of a transaction after its operand checks (R222): the frame is built, the timer loaded, the
frame handed to the transport in one TXWRITE. -/
def State.startTransaction (s : State) (op : Byte) (pay : List Byte) (tmo : Word) : State :=
  let s := ((s.buildFrame op pay).loadTimer tmo).enterSend
  s.txWrite s.wireBytes

/-- TXRESULT(ok) in F_SEND: all of the frame is in TXS (20_memory.md R68), and the response is awaited (R224). That the
bytes enter TXS in this step, all at once, and none of them between TXWRITE and TXRESULT is a DESIGN CHOICE (log 23):
R68 says only that they have been appended by then. -/
def State.txDone (s : State) : State :=
  (((s.transmit s.wireBytes).setRxAny false).decReset).enterWait

/-- TXRESULT(fail) in F_SEND: the first `k` bytes of the frame are in TXS (R68); the write is not repeated (R225). That
they enter TXS in this step is a DESIGN CHOICE (log 23). -/
def State.txFail (s : State) (k : Nat) : State :=
  (s.transmit (s.wireBytes.take k)).raise .transportWriteFail

/-- The checks of OD.READ on a complete response (44_dictionary.md R250). -/
def State.checkRead (s : State) : State :=
  let rp := s.payBytes
  if s.opc ≠ s.reqop then s.raise (.protocol .opcode)
  else if s.len.toNat < 4 then s.raise (.protocol .shape)
  else if abortCode rp ≠ 0 then (s.setAbt (abortCode rp)).raise (.device (abortCode rp))
  else if s.len.toNat - 4 ≠ s.wid.bytes then (s.setAbt (abortCode rp)).raise (.protocol .width)
  else
    let v := extendValue s.sgn s.wid (rawValue rp s.wid)
    ((s.setAbt (abortCode rp)).setVal v).complete (.value v)

/-- The checks of OD.WRITE on a complete response (R256). -/
def State.checkWrite (s : State) : State :=
  let rp := s.payBytes
  if s.opc ≠ s.reqop then s.raise (.protocol .opcode)
  else if s.len.toNat < 4 then s.raise (.protocol .shape)
  else if abortCode rp ≠ 0 then (s.setAbt (abortCode rp)).raise (.device (abortCode rp))
  else if s.len.toNat ≠ 4 then (s.setAbt (abortCode rp)).raise (.protocol .shape)
  else (s.setAbt (abortCode rp)).complete .none

/-- What follows a received byte, by the phase DEC is in (R227). -/
def State.afterByte (s : State) : State :=
  match s.dph with
  | .err cause => s.raise (.frame cause)
  | .done =>
    match s.odk with
    | .none => s.complete (.frame s.opc s.payBytes)
    | .rd => s.checkRead
    | .wr => s.checkWrite
  | .start => s
  | .body => s
  | .endMark => s

/-- RXBYTE(b) in F_WAIT (R227): the byte at the head of RXQ is removed, `q` is what stays. -/
def State.takeByte (s : State) (b : Byte) (q : List Byte) : State :=
  (((s.setRxq q).setRxAny true).decStep b).afterByte

/-- The RXBYTE event: enabled only in F_WAIT with RXQ not empty (20_memory.md R69); out of phase it is skipped
(log 13). -/
def State.rxByte (s : State) : State :=
  if s.fph = .wait then
    match s.rxq with
    | [] => s
    | b :: q => s.takeByte b q
  else s

/-- The environment appends bytes to the tail of RXQ, at any time and with any values (20_memory.md R63); nothing else
changes. A frame from the drive comes in so (log 8). -/
def State.rxArrive (s : State) (bs : List Byte) : State := s.setRxq (s.rxq ++ bs)

/-- TICK (R228); in F_IDLE and F_SEND it does nothing. -/
def State.tick (s : State) : State :=
  if s.fph = .wait then
    if s.tmr - 1 = 0 then
      (s.loadTimer (s.tmr - 1)).raise (if s.rxany then .frame .trunc else .transportTimeout)
    else s.loadTimer (s.tmr - 1)
  else s

/-- A frame crosses to the drive (log 9): the transport answers the outstanding TXWRITE of exactly that frame with
TXRESULT(ok). A frame the block has not handed to the transport does not cross (20_memory.md R62, R67). -/
def State.sendFrame (s : State) (w : List Byte) : State :=
  if s.fph = .send ∧ s.wireBytes = w then s.txDone else s

/-! ## RESET (R320 to R323) -/

/-- RESET: the block's registers as after reset, the command in progress abandoned with no record; configuration,
RXQ and TXS are not touched, but of a frame outstanding at the transport the first `k` bytes have been sent (R322;
log 6; that they enter TXS in this step is log 23's). No TXRESULT stays owed for that frame (DESIGN CHOICE, log 24).
Registers the spec leaves without a value take the values of `State.reset` (log 5, log 12). -/
def State.doReset (s : State) (k : Nat) : State :=
  { State.reset with
    cfg := s.cfg
    rxq := s.rxq
    txs := if s.fph = .send then s.txs ++ s.wireBytes.take k else s.txs
    cmds := s.cmds
    turns := s.turns
    records := s.records
    writes := s.writes
    draws := s.draws }

end Sys2Proof.Machine
end

