-- ==== Sys2Proof/Machine/Codec.lean ====
section
/-! DEFINITION. The commands of ENC and DEC (41_frame_encode.md R176, 42_frame_decode.md R198). -/

namespace Sys2Proof.Machine

/-- ENCODE `op`, `pay` (R176): CE_LENGTH over 255 bytes, with no register but RES written. -/
def execEncode (op : Byte) (pay : List Byte) (s : State) : Host.Outcome State Fault Refusal :=
  .next (s.whenReady fun s =>
    if 255 < pay.length then s.raise (.command .length)
    else
      let s := s.buildFrame op pay
      s.complete (.wire s.wireBytes))

/-- DECODE `w` (R198). -/
def execDecode (w : List Byte) (s : State) : Host.Outcome State Fault Refusal :=
  .next (s.whenReady fun s => (s.decReset.decFeed w).decVerdict)

end Sys2Proof.Machine
end

