-- ==== Sys2Proof/Machine/Crcu.lean ====
section
/-! DEFINITION. The commands of CRCU (40_crc.md R156 to R159). -/

namespace Sys2Proof.Machine

/-- CRC.INIT (R156). -/
def execCrcInit (s : State) : Host.Outcome State Fault Refusal :=
  .next (s.whenReady fun s => (s.setCrc s.cfg.crcInit).complete .none)

/-- CRC.BYTE `b` (R157). -/
def execCrcByte (b : Byte) (s : State) : Host.Outcome State Fault Refusal :=
  .next (s.whenReady fun s => (s.stepCrc b).complete .none)

/-- CRC.GET (R158): CRC is not changed; a register that holds no value is drawn (10_state.md R37). -/
def execCrcGet (s : State) : Host.Outcome State Fault Refusal :=
  .next (s.whenReady fun s => s.noteCrcRead.complete (.crc (crcFinal s.cfg s.crcValue)))

/-- CRC.BLK `x` (R159): the register is left holding the unfinalised value. -/
def execCrcBlk (x : List Byte) (s : State) : Host.Outcome State Fault Refusal :=
  .next (s.whenReady fun s =>
    let s := x.foldl State.stepCrc (s.setCrc s.cfg.crcInit)
    s.complete (.crc (crcFinal s.cfg s.crcValue)))

end Sys2Proof.Machine
end

