-- ==== Sys2Proof/Machine/Dictionary.lean ====
section
/-! DEFINITION. The commands of ODC (44_dictionary.md R250, R256). -/

namespace Sys2Proof.Machine

/-- OD.READ `idx`, `sub`, `wid`, `sgn`, `tmo` (R250, R251): the acceptance step. -/
def execOdRead (idx : Half) (sub wid : Byte) (sgn : Bool) (tmo : Word) (s : State) :
    Host.Outcome State Fault Refusal :=
  .next (s.whenReady fun s =>
    match Width.ofByte wid with
    | none => s.raise (.command .operand)
    | some width =>
      if tmo = 0 then s.raise (.command .operand)
      else
        let s := { s with idx := idx, sub := sub, wid := width, sgn := sgn, odk := .rd, reqop := s.cfg.opRead }
        s.startTransaction s.cfg.opRead (readPayload s.idx s.sub) tmo)

/-- OD.WRITE `idx`, `sub`, `val`, `wid`, `tmo` (R256, R257): the acceptance step. -/
def execOdWrite (idx : Half) (sub : Byte) (val : Word) (wid : Byte) (tmo : Word) (s : State) :
    Host.Outcome State Fault Refusal :=
  .next (s.whenReady fun s =>
    match Width.ofByte wid with
    | none => s.raise (.command .operand)
    | some width =>
      if tmo = 0 then s.raise (.command .operand)
      else
        let s := { s with idx := idx, sub := sub, wid := width, val := val, odk := .wr, reqop := s.cfg.opWrite }
        s.startTransaction s.cfg.opWrite (writePayload s.idx s.sub s.val s.wid) tmo)

end Sys2Proof.Machine
end

