-- ==== Sys2Proof/Machine/Framer.lean ====
section
/-! DEFINITION. The command of FRM (43_framer.md R222). -/

namespace Sys2Proof.Machine

/-- XFER `op`, `pay`, `tmo` (R222): the acceptance step; CE_LENGTH is looked for before CE_OPERAND (R291). -/
def execXfer (op : Byte) (pay : List Byte) (tmo : Word) (s : State) : Host.Outcome State Fault Refusal :=
  .next (s.whenReady fun s =>
    if 255 < pay.length then s.raise (.command .length)
    else if tmo = 0 then s.raise (.command .operand)
    else { s with odk := .none }.startTransaction op pay tmo)

end Sys2Proof.Machine
end

