-- ==== Sys2Proof/Machine/Frames.lean ====
section
/-! DEFINITION. The frame rows (30_encoding.md R101, R112 to R115): the frame crosses the link in its direction
(log 8, log 9).
A frame to the drive is the TXRESULT(ok) of its TXWRITE. A frame from the drive is its bytes at the tail of RXQ
(20_memory.md R63); the block takes them one RXBYTE a step (00_scope.md R2, 43_framer.md R227), and the byte that makes
the frame complete brings the checks of 44_dictionary.md R250, R256 (`State.afterByte`). -/

namespace Sys2Proof.Machine

/-- FRAME (R101), in either direction. -/
def execFrame (dir : Dir) (opc : Byte) (pay : List Byte) (crc : Half) (s : State) :
    Host.Outcome State Fault Refusal :=
  match dir with
  | .toDrive => .next (s.sendFrame (wireFrame s.cfg opc pay crc))
  | .fromDrive => .next (s.rxArrive (wireFrame s.cfg opc pay crc))

/-- RD.REQ (R112): to the drive. -/
def execRdReq (idx : Half) (sub : Byte) (crc : Half) (s : State) : Host.Outcome State Fault Refusal :=
  .next (s.sendFrame (wireFrame s.cfg s.cfg.opRead (readPayload idx sub) crc))

/-- WR.REQ.1 (R113): to the drive. -/
def execWrReq1 (idx : Half) (sub val : Byte) (crc : Half) (s : State) : Host.Outcome State Fault Refusal :=
  .next (s.sendFrame (wireFrame s.cfg s.cfg.opWrite (writePayload idx sub (val.setWidth 32) .w1) crc))

/-- WR.REQ.2 (R113): to the drive. -/
def execWrReq2 (idx : Half) (sub : Byte) (val : Half) (crc : Half) (s : State) :
    Host.Outcome State Fault Refusal :=
  .next (s.sendFrame (wireFrame s.cfg s.cfg.opWrite (writePayload idx sub (val.setWidth 32) .w2) crc))

/-- WR.REQ.4 (R113): to the drive. -/
def execWrReq4 (idx : Half) (sub : Byte) (val : Word) (crc : Half) (s : State) :
    Host.Outcome State Fault Refusal :=
  .next (s.sendFrame (wireFrame s.cfg s.cfg.opWrite (writePayload idx sub val .w4) crc))

/-- The wire form of a read response (R114): the abort/error code, then the value bytes. -/
def readResponse (c : Cfg) (abt : Word) (value : List Byte) (crc : Half) : List Byte :=
  wireFrame c c.opRead (le 4 abt ++ value) crc

/-- RD.RSP.1 (R114): from the drive, into RXQ; checked by R250 at its last byte. -/
def execRdRsp1 (abt : Word) (val : Byte) (crc : Half) (s : State) : Host.Outcome State Fault Refusal :=
  .next (s.rxArrive (readResponse s.cfg abt (le 1 (val.setWidth 32)) crc))

/-- RD.RSP.2 (R114): from the drive, into RXQ; checked by R250 at its last byte. -/
def execRdRsp2 (abt : Word) (val : Half) (crc : Half) (s : State) : Host.Outcome State Fault Refusal :=
  .next (s.rxArrive (readResponse s.cfg abt (le 2 (val.setWidth 32)) crc))

/-- RD.RSP.4 (R114): from the drive, into RXQ; checked by R250 at its last byte. -/
def execRdRsp4 (abt : Word) (val : Word) (crc : Half) (s : State) : Host.Outcome State Fault Refusal :=
  .next (s.rxArrive (readResponse s.cfg abt (le 4 val) crc))

/-- RD.RSP.0 (R114): from the drive, no value bytes; into RXQ, checked by R250 at its last byte. -/
def execRdRsp0 (abt : Word) (crc : Half) (s : State) : Host.Outcome State Fault Refusal :=
  .next (s.rxArrive (readResponse s.cfg abt [] crc))

/-- WR.RSP (R115): from the drive, into RXQ; checked by R256 at its last byte. -/
def execWrRsp (abt : Word) (crc : Half) (s : State) : Host.Outcome State Fault Refusal :=
  .next (s.rxArrive (wireFrame s.cfg s.cfg.opWrite (le 4 abt) crc))

end Sys2Proof.Machine
end

