-- ==== Sys2Proof/Machine/Dispatch.lean ====
section
/-! DEFINITION. One arm per constructor of `Instr`, each one direct call of its meaning. -/

namespace Sys2Proof.Machine

def exec (i : Instr) (s : State) : Host.Outcome State Fault Refusal :=
  match i with
  | .crcInit => Sys2Proof.Machine.execCrcInit s
  | .crcByte b => Sys2Proof.Machine.execCrcByte b s
  | .crcGet => Sys2Proof.Machine.execCrcGet s
  | .crcBlk x => Sys2Proof.Machine.execCrcBlk x s
  | .encode op pay => Sys2Proof.Machine.execEncode op pay s
  | .decode w => Sys2Proof.Machine.execDecode w s
  | .xfer op pay tmo => Sys2Proof.Machine.execXfer op pay tmo s
  | .odRead idx sub wid sgn tmo => Sys2Proof.Machine.execOdRead idx sub wid sgn tmo s
  | .odWrite idx sub val wid tmo => Sys2Proof.Machine.execOdWrite idx sub val wid tmo s
  | .frame dir opc pay crc => Sys2Proof.Machine.execFrame dir opc pay crc s
  | .rdReq idx sub crc => Sys2Proof.Machine.execRdReq idx sub crc s
  | .wrReq1 idx sub val crc => Sys2Proof.Machine.execWrReq1 idx sub val crc s
  | .wrReq2 idx sub val crc => Sys2Proof.Machine.execWrReq2 idx sub val crc s
  | .wrReq4 idx sub val crc => Sys2Proof.Machine.execWrReq4 idx sub val crc s
  | .rdRsp1 abt val crc => Sys2Proof.Machine.execRdRsp1 abt val crc s
  | .rdRsp2 abt val crc => Sys2Proof.Machine.execRdRsp2 abt val crc s
  | .rdRsp4 abt val crc => Sys2Proof.Machine.execRdRsp4 abt val crc s
  | .rdRsp0 abt crc => Sys2Proof.Machine.execRdRsp0 abt crc s
  | .wrRsp abt crc => Sys2Proof.Machine.execWrRsp abt crc s

end Sys2Proof.Machine
end

