-- ==== Sys2Proof/Machine/Turns.lean ====
section
/-! DEFINITION. What each turn of host or environment does (00_scope.md R8): fetching an instruction from the
command port or the link and running it, and the byte-level events (20_memory.md R66 to R70, 43_framer.md R224 to
R228, 70_reset_and_hazards.md R320). -/

namespace Sys2Proof.Machine

/-- The host's turn: it offers its next command record. The record is taken only while the port is ready (R32); while
BUSY = 1 it stays on offer (R301). An illegal code is answered `Err(CommandError, CE_ILLEGAL, 0)` (R121). -/
def offerCommand (s : State) : Host.Outcome State Fault Refusal :=
  match s.cmds with
  | [] => .next s
  | r :: rs =>
    if s.ready then
      match decode s.cfg .command r with
      | .ok i => exec i { s with cmds := rs }
      | .error (.illegalCode _) => .next ({ s with cmds := rs }.raise (.command .illegal))
      | .error .emptyRecord => .refused .malformedRecord
      | .error (.recordLength _) => .refused .malformedRecord
      | .error (.notABit _) => .refused .malformedRecord
      | .error (.notStart _) => .refused .malformedRecord
      | .error .shortFrame => .refused .malformedRecord
      | .error .badEnd => .refused .malformedRecord
    else .next s

/-- TXRESULT (20_memory.md R68, 43_framer.md R224, R225), only in F_SEND (R233; out of phase it is
skipped, log 13). With `ok` the frame in WIRE has
crossed to the drive: the frame row it is runs; bytes that are no canonical frame cross all the same.
A TXRESULT is taken as the answer to the frame now in WIRE: one that a RESET has left unanswered is not told apart
from it (DESIGN CHOICE, log 24). -/
def transmitResult (r : TxResult) (s : State) : Host.Outcome State Fault Refusal :=
  if s.fph = .send then
    if s.wlen.toNat ≤ 520 then
      match r with
      | .ok =>
        match readWire s.cfg .toDrive s.wireBytes with
        | some i => exec i s
        | none => .next s.txDone
      | .fail k => .next (s.txFail k)
    else .fault .wireIndex
  else .next s

/-- Bytes come in at the tail of RXQ (20_memory.md R63): when they are the wire form of a frame row from the drive, that
row runs (log 8); any other bytes arrive all the same. -/
def frameArrives (w : List Byte) (s : State) : Host.Outcome State Fault Refusal :=
  match readWire s.cfg .fromDrive w with
  | some i => exec i s
  | none => .next (s.rxArrive w)

/-- RESET (R320 to R323). -/
def resetEvent (k : Nat) (s : State) : Host.Outcome State Fault Refusal :=
  if s.fph = .send ∧ 520 < s.wlen.toNat then .fault .wireIndex else .next (s.doReset k)

/-- One turn. -/
def runTurn (t : Turn) (s : State) : Host.Outcome State Fault Refusal :=
  match t with
  | .host => offerCommand s
  | .txResult r => transmitResult r s
  | .rxArrive bs => frameArrives bs s
  | .rxByte => .next s.rxByte
  | .tick => .next s.tick
  | .reset k => resetEvent k s

/-- A command record as the next thing the host does, the port ready (log 21). -/
def State.placeCommand (s : State) (r : List Byte) : State :=
  { s.leaveBusy with cmds := r :: s.cmds, turns := .host :: s.turns }

/-- A wire frame as the next thing that crosses the link in direction `d` (log 21): from the drive it comes in; to the
drive it stands in WIRE, handed to the transport, and TXRESULT(ok) is next. -/
def State.placeFrame (s : State) (d : Dir) (w : List Byte) : State :=
  match d with
  | .fromDrive => { s with turns := .rxArrive w :: s.turns }
  | .toDrive =>
    { s.enterSend with
      wire := Memory.writeBytes s.wire 0 w
      wlen := BitVec.ofNat 10 w.length
      turns := .txResult .ok :: s.turns }

/-- A word of the opcode table placed where `step` fetches next (log 21). -/
def State.placeTableWord (s : State) (nbits w : Nat) : State :=
  match tableBytes s.cfg nbits w with
  | none => s
  | some (.command, r) => s.placeCommand r
  | some (.link d, bs) =>
    match decode s.cfg (.link d) bs with
    | .error _ => s.placeFrame .fromDrive bs
    | .ok i =>
      match wireOf s.cfg i with
      | none => s
      | some w => s.placeFrame d w

end Sys2Proof.Machine
end

