-- ==== Sys2Proof/Machine/Step.lean ====
section
/-! DEFINITION. One step: the next turn of host or environment. -/

namespace Sys2Proof.Machine

/-- One step of the run: a configuration that is not well formed is refused (00_scope.md R6); with no turn left the
block waits (60_exceptions.md R313; log 18); otherwise the next turn is taken. -/
def step (s : State) : Host.Outcome State Fault Refusal :=
  if s.cfg.WellFormed then
    match s.turns with
    | [] => .next s
    | t :: ts => runTurn t { s with turns := ts }
  else .refused .illFormedConfig

/-- `s` with a word of the opcode table placed where `step` fetches its next instruction (log 21). -/
def State.withFetchWord (s : State) (nbits w : Nat) : State := s.placeTableWord nbits w

end Sys2Proof.Machine
end

