-- ==== Sys2Proof/Safety.lean ====
section
/-! DEFINITION. The terms the claims use: the invariants of the block, legal completion records, the states a
transaction passes through, and what a command leaves alone (10_state.md R35). -/

namespace Sys2Proof.Machine

/-! ## Buffers -/

/-- The bytes 0 to n-1 of a buffer hold values. -/
def Memory.Filled (n : Nat) (m : Memory) : Prop := ∀ k, k < n → (Memory.read m k).isSome = true

/-- PAY and WIRE are in canonical form and inside their address ranges 0 to 254 and 0 to 519 (R24, R26). -/
def BuffersOk (s : State) : Prop :=
  Memory.wf s.pay = true ∧ Memory.below 255 s.pay = true ∧
    Memory.wf s.wire = true ∧ Memory.below 520 s.wire = true ∧ s.wlen.toNat ≤ 520

/-! ## The invariant -/

/-- The decoder while a response is awaited or being received: N below LEN + 4 once LEN is known, PAY filled as far as
N says, ESCF clear outside D_BODY, D_END only when configured, never D_DONE or D_ERR (R30, R193, R229). -/
def DecoderOk (s : State) : Prop :=
  match s.dph with
  | .start => s.n = 0 ∧ s.escf = false
  | .body =>
      s.crcSet = true ∧ (2 ≤ s.n.toNat → s.n.toNat < s.len.toNat + 4) ∧
        (2 ≤ s.n.toNat → Memory.Filled (min (s.n.toNat - 2) s.len.toNat) s.pay)
  | .endMark => s.cfg.endPresent = true ∧ s.escf = false ∧ Memory.Filled s.len.toNat s.pay
  | .done => False
  | .err _ => False

/-- The invariant of the block: what every step keeps. -/
structure Inv (s : State) : Prop where
  /-- the buffers are canonical and in range -/
  buffers : BuffersOk s
  /-- N never exceeds 259 (R30) -/
  count : s.n.toNat ≤ 259
  /-- BUSY = 1 exactly when FPH is not F_IDLE (R221) -/
  busy : s.busy = true ↔ s.fph ≠ .idle
  /-- during a transaction TMR is not 0 (R226, R228) -/
  timer : s.fph ≠ .idle → s.tmr ≠ 0
  /-- during a transaction WIRE[0..WLEN) is the wire frame of some request (R26, R174, R222) -/
  request : s.fph ≠ .idle → Memory.Filled s.wlen.toNat s.wire ∧
    ∃ op pay, pay.length ≤ 255 ∧ s.wireBytes = encodeFrame s.cfg op pay
  /-- REQOP is the opcode ODK stands for (R250, R256) -/
  reqop : s.fph ≠ .idle →
    (s.odk = .rd → s.reqop = s.cfg.opRead) ∧ (s.odk = .wr → s.reqop = s.cfg.opWrite)
  /-- in F_WAIT the decoder is inside a frame, and RXANY says whether a byte has come (R224, R227) -/
  receiving : s.fph = .wait → DecoderOk s ∧ (s.rxany = true ↔ s.dph ≠ .start)

/-! ## Completion records -/

/-- A record the block may deliver (R281 to R285, R288). -/
def Completion.Legal : Completion → Prop
  | .ok _ => True
  | .err k c i =>
      (k = 1 ∧ (c = 1 ∨ c = 2 ∨ c = 3 ∨ c = 4) ∧ i = 0) ∨ (k = 2 ∧ c = 0 ∧ i = 0) ∨
      (k = 3 ∧ (c = 1 ∨ c = 2 ∨ c = 3) ∧ i = 0) ∨ (k = 4 ∧ c = 0 ∧ i ≠ 0) ∨
      (k = 9 ∧ c = 0 ∧ i = 0) ∨ (k = 10 ∧ (c = 1 ∨ c = 2 ∨ c = 3) ∧ i = 0)

/-- Every record delivered is legal, and RES is the last one or there has been a reset since (R29, R36, R286). -/
def RecordsOk (s : State) : Prop :=
  (∀ r, r ∈ s.records → r.Legal) ∧ (s.res = none ∨ s.res = s.records.getLast?)

/-- From `s` to `t` one command has ended with the record `r` (R230, R294). -/
def Completed (s t : State) (r : Completion) : Prop :=
  t.res = some r ∧ t.records = s.records ++ [r] ∧ t.busy = false ∧ t.fph = .idle

/-! ## The states of a transaction -/

/-- `s` after the frame of `op`, `pay` has been built (R176): OPC, LEN, PAY, WIRE, WLEN and CRC as ENC leaves them. -/
def State.built (s : State) (op : Byte) (pay : List Byte) : State :=
  { s with
    opc := op
    len := BitVec.ofNat 8 pay.length
    pay := Memory.writeBytes s.pay 0 pay
    wire := Memory.writeBytes s.wire 0 (encodeFrame s.cfg op pay)
    wlen := BitVec.ofNat 10 (encodeFrame s.cfg op pay).length
    crc := crcFrom s.cfg s.cfg.crcInit (frameBody op pay)
    crcSet := true }

/-- `s` after the acceptance of a transaction that sends `op`, `pay` (R222). -/
def State.accepted (s : State) (op : Byte) (pay : List Byte) (tmo : Word) : State :=
  { s with
    opc := op
    len := BitVec.ofNat 8 pay.length
    pay := Memory.writeBytes s.pay 0 pay
    wire := Memory.writeBytes s.wire 0 (encodeFrame s.cfg op pay)
    wlen := BitVec.ofNat 10 (encodeFrame s.cfg op pay).length
    crc := crcFrom s.cfg s.cfg.crcInit (frameBody op pay)
    crcSet := true
    tmr := tmo
    busy := true
    fph := .send
    writes := s.writes ++ [encodeFrame s.cfg op pay] }

/-- OPC and payload of the frame a command makes ENC build, when its operands are legal (R122); none for the commands
that build no frame. -/
def Instr.builds (c : Cfg) (i : Instr) : Option (Byte × List Byte) :=
  match i with
  | .crcInit => none
  | .crcByte _ => none
  | .crcGet => none
  | .crcBlk _ => none
  | .encode op pay => if pay.length ≤ 255 then some (op, pay) else none
  | .decode _ => none
  | .xfer op pay tmo => if pay.length ≤ 255 ∧ tmo ≠ 0 then some (op, pay) else none
  | .odRead idx sub wid _ tmo =>
    match Width.ofByte wid with
    | none => none
    | some _ => if tmo = 0 then none else some (c.opRead, readPayload idx sub)
  | .odWrite idx sub val wid tmo =>
    match Width.ofByte wid with
    | none => none
    | some w => if tmo = 0 then none else some (c.opWrite, writePayload idx sub val w)
  | .frame _ _ _ _ => none
  | .rdReq _ _ _ => none
  | .wrReq1 _ _ _ _ => none
  | .wrReq2 _ _ _ _ => none
  | .wrReq4 _ _ _ _ => none
  | .rdRsp1 _ _ _ => none
  | .rdRsp2 _ _ _ => none
  | .rdRsp4 _ _ _ => none
  | .rdRsp0 _ _ => none
  | .wrRsp _ _ => none

/-- The low `8*WID` bits of a value (R116). -/
def Width.low (w : Width) (v : Word) : Word :=
  match w with
  | .w1 => (v.setWidth 8).setWidth 32
  | .w2 => (v.setWidth 16).setWidth 32
  | .w4 => v

/-- `v` is representable in the width with the signedness (44_dictionary.md R265). -/
def Representable (sgn : Bool) (w : Width) (v : Word) : Prop := extendValue sgn w (w.low v) = v

/-- A response is awaited, no byte of it has been taken and none is queued. -/
def State.Awaiting (s : State) : Prop := s.fph = .wait ∧ s.dph = .start ∧ s.rxq = []

/-- `s` after DEC has taken a whole valid frame of `op`, `pay` (R190 to R195): OPC, LEN, PAY, CRC, RCRC, N and DPH as
DEC leaves them. -/
def State.decoded (s : State) (op : Byte) (pay : List Byte) : State :=
  { s with
    opc := op
    len := BitVec.ofNat 8 pay.length
    pay := Memory.writeBytes s.pay 0 pay
    crc := crcFrom s.cfg s.cfg.crcInit (frameBody op pay)
    crcSet := true
    rcrc := crcOf s.cfg (frameBody op pay)
    n := BitVec.ofNat 9 (pay.length + 4)
    dph := .done
    escf := false }

/-- `s` after a whole valid frame has been taken from RXQ, nothing left queued (R227). -/
def State.received (s : State) (op : Byte) (pay : List Byte) : State :=
  ((s.decoded op pay).setRxAny true).setRxq []

/-! ## What DECODE leaves alone (R35) -/

/-- Every register and stream DECODE does not name is as before, and PAY is as before outside PAY[0..LEN). -/
def DecodeFrame (s t : State) : Prop :=
  t.cfg = s.cfg ∧ t.wire = s.wire ∧ t.wlen = s.wlen ∧ t.tmr = s.tmr ∧ t.idx = s.idx ∧ t.sub = s.sub ∧
    t.wid = s.wid ∧ t.sgn = s.sgn ∧ t.val = s.val ∧ t.abt = s.abt ∧ t.reqop = s.reqop ∧ t.odk = s.odk ∧
    t.rxany = s.rxany ∧ t.rxq = s.rxq ∧ t.txs = s.txs ∧ t.cmds = s.cmds ∧ t.turns = s.turns ∧
    t.writes = s.writes ∧ t.draws = s.draws ∧
    ∀ k, t.len.toNat ≤ k → Memory.read t.pay k = Memory.read s.pay k

/-! ## Sequences of instructions -/

/-- Instructions run one after the other; none when one of them stops. -/
def runInstrs : List Instr → State → Option State
  | [], s => some s
  | i :: is, s =>
    match exec i s with
    | .next t => runInstrs is t
    | .fault _ => none
    | .refused _ => none

/-- The row `i` runs, and the next `k` turns are RXBYTEs, one byte a step; the turns that were there stay behind
them. -/
def frameThenBytes (i : Instr) (k : Nat) (s : State) : Host.Outcome State Fault Refusal :=
  match exec i { s with turns := List.replicate k .rxByte ++ s.turns } with
  | .next t => Host.Core.run Sys2Proof.core k t
  | .fault f => .fault f
  | .refused r => .refused r

/-- The turns in which the bytes `w` come in one at a time, each followed by an RXBYTE. -/
def byteByByte (w : List Byte) : List Turn := w.flatMap fun b => [.rxArrive [b], .rxByte]

/-- The turns that let a response come in and time pass, byte by byte. -/
def Turn.isReceive : Turn → Bool
  | .rxArrive _ => true
  | .rxByte => true
  | .tick => true
  | .host => false
  | .txResult _ => false
  | .reset _ => false

end Sys2Proof.Machine
end

