-- ==== Sys2Proof/Certificates/Slice0/Obligations.lean ====
section
/-! DEFINITION. The statements for the provers. "(derived)" after a rule's number says that the spec itself marks the
rule as its own inference from other rules. -/

open Sys2Proof Sys2Proof.Machine

/-! ## The CRC generator (40_crc.md) -/

/-- R144 (derived): the two forms of `crc_byte` give the same result for every register value, byte and
configuration. -/
def Obligations.CrcByteFormsAgree : Prop :=
  ∀ (c : Cfg) (r : Half) (b : Byte), crcByte c r b = crcByteParallel c r b

/-- R148 (derived): `crc_byte` is linear, and so is the register after two sequences of equal length. -/
def Obligations.CrcIsLinear : Prop :=
  (∀ (c : Cfg) (r1 r2 : Half) (b1 b2 : Byte),
    crcByte c (r1 ^^^ r2) (b1 ^^^ b2) = crcByte c r1 b1 ^^^ crcByte c r2 b2) ∧
  ∀ (c : Cfg) (i j : Half) (s t : List Byte), s.length = t.length →
    crcFrom c (i ^^^ j) (List.zipWith (fun x y => x ^^^ y) s t) = crcFrom c i s ^^^ crcFrom c j t

/-- R149 (derived): the register over a concatenation, and CRC.INIT, CRC.BYTE for each byte, CRC.GET give `crc` of
the whole sequence. -/
def Obligations.CrcIsIncremental : Prop :=
  (∀ (c : Cfg) (r : Half) (s t : List Byte), crcFrom c r (s ++ t) = crcFrom c (crcFrom c r s) t) ∧
  ∀ (s : State) (x : List Byte), s.busy = false →
    ∃ t, runInstrs (Instr.crcInit :: (x.map Instr.crcByte ++ [Instr.crcGet])) s = some t ∧
      t.crc = crcFrom s.cfg s.cfg.crcInit x ∧ t.res = some (.ok (.crc (crcOf s.cfg x)))

/-- R150 (derived): the residue, where it holds, and that it does not hold in the default configuration. -/
def Obligations.CrcResidueIsZero : Prop :=
  (∀ (c : Cfg) (r : Half), c.crcRefin = false → crcByte c (crcByte c r (hi8 r)) (lo8 r) = 0) ∧
  (∀ (c : Cfg) (x : List Byte), c.crcRefin = false → c.crcRefout = false → c.crcXorout = 0 →
    c.crcLofirst = false → crcFrom c c.crcInit (x ++ crcField c (crcOf c x)) = 0) ∧
  ∃ x : List Byte, crcFrom Cfg.default Cfg.default.crcInit (x ++ crcField Cfg.default (crcOf Cfg.default x)) ≠ 0

/-- R152 (derived): two sequences of equal length that differ in exactly one bit have different `crc` values,
provided CRC_POLY is not 0. -/
def Obligations.CrcSeesEverySingleBit : Prop :=
  ∀ (c : Cfg) (p q : List Byte) (b : Byte) (k : Nat), c.crcPoly ≠ 0 → k < 8 →
    crcOf c (p ++ b :: q) ≠ crcOf c (p ++ (b ^^^ (1#8 <<< k)) :: q)

/-- R156: CRC.INIT loads the seed and completes; nothing else changes. -/
def Obligations.CrcInitCompletes : Prop :=
  ∀ s : State, s.busy = false →
    exec .crcInit s = .next
      { s with
        crc := s.cfg.crcInit, crcSet := true, res := some (.ok .none), records := s.records ++ [.ok .none]
        busy := false, fph := .idle }

/-- R157, R37: CRC.BYTE steps the register, or steps any value while the register holds none, drawn afresh. (The
free value's form is log 4's.) -/
def Obligations.CrcByteCompletes : Prop :=
  ∀ (s : State) (b : Byte), s.busy = false →
    exec (.crcByte b) s = .next
      { s with
        crc := crcByte s.cfg (if s.crcSet then s.crc else Config.freeCrc s.draws) b
        crcSet := true, draws := if s.crcSet then s.draws else s.draws + 1
        res := some (.ok .none), records := s.records ++ [.ok .none], busy := false, fph := .idle }

/-- R158, R37: CRC.GET returns the finalised register and leaves it; while it holds no value, any value is
returned, drawn afresh. (The free value's form is log 4's.) -/
def Obligations.CrcGetCompletes : Prop :=
  ∀ s : State, s.busy = false →
    let r := Completion.ok (.crc (crcFinal s.cfg (if s.crcSet then s.crc else Config.freeCrc s.draws)))
    exec .crcGet s = .next
      { s with
        draws := if s.crcSet then s.draws else s.draws + 1
        res := some r, records := s.records ++ [r], busy := false, fph := .idle }

/-- R159: CRC.BLK returns `crc(x)` and leaves the unfinalised value in the register. -/
def Obligations.CrcBlkCompletes : Prop :=
  ∀ (s : State) (x : List Byte), s.busy = false →
    let r := Completion.ok (.crc (crcOf s.cfg x))
    exec (.crcBlk x) s = .next
      { s with
        crc := crcFrom s.cfg s.cfg.crcInit x, crcSet := true
        res := some r, records := s.records ++ [r], busy := false, fph := .idle }

/-! ## Stuffing and the encoder (41_frame_encode.md) -/

/-- R171 (derived): a stuffed sequence is a concatenation of tokens, one per byte and in the same order. -/
def Obligations.StuffedSequencesAreTokens : Prop :=
  ∀ (c : Cfg) (s : List Byte), ∃ tok : List (List Byte),
    stuff c s = tok.flatten ∧
    List.Forall₂ (fun b t => (b ∉ c.reserved ∧ t = [b]) ∨ (b ∈ c.reserved ∧ t = [c.esc, b])) s tok ∧
    (stuff c s).length = s.length + s.countP (fun b => decide (b ∈ c.reserved)) ∧
    s.length ≤ (stuff c s).length ∧ (stuff c s).length ≤ 2 * s.length

/-- R180 (derived), R7 (derived): the length of an encoded frame, and its bound. -/
def Obligations.EncodedFrameLength : Prop :=
  ∀ (c : Cfg) (op : Byte) (pay : List Byte), pay.length ≤ 255 →
    (encodeFrame c op pay).length =
      5 + pay.length +
        (frameContent c op pay (crcOf c (frameBody op pay))).countP (fun b => decide (b ∈ c.reserved)) +
        (if c.endPresent then 1 else 0) ∧
    (encodeFrame c op pay).length ≤ 520

/-- R173 (derived): unstuffing undoes stuffing, given ESC in RESERVED. -/
def Obligations.UnstuffingUndoesStuffing : Prop :=
  ∀ (c : Cfg) (s : List Byte), c.esc ∈ c.reserved → unstuff c (stuff c s) = some s

/-- R176, R174: ENCODE leaves `encode(op, pay)` in WIRE and returns it; OPC, LEN, PAY, WIRE, WLEN, CRC and the
completion are all that changes. -/
def Obligations.EncodeCompletes : Prop :=
  ∀ (s : State) (op : Byte) (pay : List Byte), s.busy = false → pay.length ≤ 255 →
    let w := encodeFrame s.cfg op pay
    ∃ t, exec (.encode op pay) s = .next t ∧ t.payBytes = pay ∧ t.wireBytes = w ∧
      t = { s with
        opc := op, len := BitVec.ofNat 8 pay.length, pay := Memory.writeBytes s.pay 0 pay
        wire := Memory.writeBytes s.wire 0 w, wlen := BitVec.ofNat 10 w.length
        crc := crcFrom s.cfg s.cfg.crcInit (frameBody op pay), crcSet := true
        res := some (.ok (.wire w)), records := s.records ++ [.ok (.wire w)], busy := false, fph := .idle }

/-- R35 (derived), R176: ENCODE, XFER, OD.READ and OD.WRITE store into PAY and WIRE only the bytes of the payload
and of the frame they build. -/
def Obligations.EncoderStoresOnlyItsFrame : Prop :=
  ∀ (s t : State) (i : Instr) (op : Byte) (pay : List Byte),
    Instr.builds s.cfg i = some (op, pay) → exec i s = .next t → ∀ k,
      (pay.length ≤ k → Memory.read t.pay k = Memory.read s.pay k) ∧
      ((encodeFrame s.cfg op pay).length ≤ k → Memory.read t.wire k = Memory.read s.wire k)

/-- R122, R176, R222, R251, R257, R291: what the commands refuse at acceptance, CE_LENGTH before CE_OPERAND, with
nothing changed but the completion. -/
def Obligations.IllegalOperandsAreAnswered : Prop :=
  ∀ (s : State), s.busy = false →
    let failed := fun r : Completion => Host.Outcome.next (φ := Fault) (ρ := Refusal)
      { s with res := some r, records := s.records ++ [r], busy := false, fph := .idle }
    (∀ op pay, 255 < pay.length → exec (.encode op pay) s = failed (.err 10 2 0)) ∧
    (∀ op pay tmo, 255 < pay.length → exec (.xfer op pay tmo) s = failed (.err 10 2 0)) ∧
    (∀ op pay, pay.length ≤ 255 → exec (.xfer op pay 0) s = failed (.err 10 3 0)) ∧
    (∀ idx sub wid sgn tmo, (wid ≠ 1 ∧ wid ≠ 2 ∧ wid ≠ 4) ∨ tmo = 0 →
      exec (.odRead idx sub wid sgn tmo) s = failed (.err 10 3 0)) ∧
    (∀ idx sub val wid tmo, (wid ≠ 1 ∧ wid ≠ 2 ∧ wid ≠ 4) ∨ tmo = 0 →
      exec (.odWrite idx sub val wid tmo) s = failed (.err 10 3 0))

/-! ## The decoder (42_frame_decode.md) -/

/-- R190 to R195, R198: DECODE of an encoded frame returns its opcode and payload, and leaves the registers of DEC
as `State.decoded` says. -/
def Obligations.DecodeTakesEncodedFrame : Prop :=
  ∀ (s : State) (op : Byte) (pay : List Byte), s.cfg.WellFormed → s.busy = false → pay.length ≤ 255 →
    exec (.decode (encodeFrame s.cfg op pay)) s = .next ((s.decoded op pay).complete (.frame op pay))

/-- R178 (derived): decoding what ENCODE returns gives back the opcode and the payload. -/
def Obligations.EncodeDecodeRoundTrip : Prop :=
  ∀ (s : State) (op : Byte) (pay : List Byte), s.cfg.WellFormed → s.busy = false → pay.length ≤ 255 →
    ∃ t u w, exec (.encode op pay) s = .next t ∧ t.res = some (.ok (.wire w)) ∧
      exec (.decode w) t = .next u ∧ u.res = some (.ok (.frame op pay))

/-- R201 (derived): the byte sequences DECODE accepts, exactly. -/
def Obligations.DecodeAcceptsExactly : Prop :=
  ∀ (s : State) (w : List Byte) (op : Byte) (pay : List Byte), s.busy = false →
    ((∃ t, exec (.decode w) s = .next t ∧ t.res = some (.ok (.frame op pay))) ↔
      pay.length ≤ 255 ∧ ∃ u,
        unstuff s.cfg u = some (frameContent s.cfg op pay (crcOf s.cfg (frameBody op pay))) ∧
        w = s.cfg.start :: (u ++ endPart s.cfg))

/-- R199 (derived), R202 (derived), R35 (derived): DECODE completes on every byte sequence with Ok or a FrameError,
and touches nothing outside the decoder, PAY[0..LEN) and the completion. -/
def Obligations.DecodeIsTotal : Prop :=
  ∀ (s : State) (w : List Byte), s.busy = false →
    ∃ t r, exec (.decode w) s = .next t ∧ Completed s t r ∧ DecodeFrame s t ∧
      ((∃ op pay, r = .ok (.frame op pay) ∧ pay.length ≤ 255) ∨ ∃ c, r = (BlockError.frame c).record)

/-- R199 (derived), R21: the outcome of DECODE depends on the bytes and the configuration alone. -/
def Obligations.DecodeForgetsHistory : Prop :=
  ∀ (s s' : State) (w : List Byte), s.busy = false → s'.busy = false → s.cfg = s'.cfg →
    ∃ t t', exec (.decode w) s = .next t ∧ exec (.decode w) s' = .next t' ∧ t.res = t'.res

/-- R198, R200 (derived): every proper beginning of an encoded frame is FE_TRUNC. -/
def Obligations.CutFrameIsTruncated : Prop :=
  ∀ (s : State) (op : Byte) (pay : List Byte) (k : Nat), s.cfg.WellFormed → s.busy = false →
    pay.length ≤ 255 → k < (encodeFrame s.cfg op pay).length →
      ∃ t, exec (.decode ((encodeFrame s.cfg op pay).take k)) s = .next t ∧ Completed s t (.err 1 2 0)

/-- R196, R200 (derived): bytes after a complete frame are FE_LENGTH. -/
def Obligations.BytesAfterFrameAreRejected : Prop :=
  ∀ (s : State) (op : Byte) (pay : List Byte) (b : Byte) (w : List Byte), s.cfg.WellFormed →
    s.busy = false → pay.length ≤ 255 →
      ∃ t, exec (.decode (encodeFrame s.cfg op pay ++ b :: w)) s = .next t ∧ Completed s t (.err 1 3 0)

/-- R194, R200 (derived): a frame whose CRC field is not the CRC of its body is FE_CRC, whatever follows the field.
-/
def Obligations.WrongCrcIsRejected : Prop :=
  ∀ (s : State) (op : Byte) (pay : List Byte) (v : Half) (w : List Byte), s.cfg.WellFormed →
    s.busy = false → pay.length ≤ 255 → v ≠ crcOf s.cfg (frameBody op pay) →
      ∃ t, exec (.decode (s.cfg.start :: (stuff s.cfg (frameContent s.cfg op pay v) ++ w))) s = .next t ∧
        Completed s t (.err 1 4 0)

/-- R190, R195, R200 (derived): a first byte that is not START, and with an end marker configured a byte after the
CRC field that is not END, are FE_MARKER. -/
def Obligations.BadMarkersAreRejected : Prop :=
  ∀ s : State, s.busy = false →
    (∀ (b : Byte) (w : List Byte), b ≠ s.cfg.start →
      ∃ t, exec (.decode (b :: w)) s = .next t ∧ Completed s t (.err 1 1 0)) ∧
    (∀ (op : Byte) (pay : List Byte) (b : Byte) (w : List Byte), s.cfg.WellFormed → pay.length ≤ 255 →
      s.cfg.endPresent = true → b ≠ s.cfg.endByte →
      ∃ t, exec (.decode (s.cfg.start ::
          (stuff s.cfg (frameContent s.cfg op pay (crcOf s.cfg (frameBody op pay))) ++ b :: w))) s = .next t ∧
        Completed s t (.err 1 1 0))

/-- R203 (derived): one flipped bit of the content of an encoded frame, stuffed again: FE_CRC wherever it is but in
the length byte, and a FrameError there too. -/
def Obligations.SingleBitFlipIsDetected : Prop :=
  ∀ (s : State) (op : Byte) (pay : List Byte) (p k : Nat), s.cfg.WellFormed → s.busy = false →
    pay.length ≤ 255 → p < pay.length + 4 → k < 8 →
      let content := frameContent s.cfg op pay (crcOf s.cfg (frameBody op pay))
      let flipped := content.modify p (fun b => b ^^^ (1#8 <<< k))
      ∃ t c, exec (.decode (s.cfg.start :: (stuff s.cfg flipped ++ endPart s.cfg))) s = .next t ∧
        Completed s t (BlockError.frame c).record ∧ (p ≠ 1 → c = .crc)

/-! ## Transactions (43_framer.md, 44_dictionary.md): the request -/

/-- R222: XFER with legal operands is accepted: the frame is built and handed to the transport in one TXWRITE. (That
no byte of it is in TXS yet is the model's choice, log 23.) -/
def Obligations.XferIsAccepted : Prop :=
  ∀ (s : State) (op : Byte) (pay : List Byte) (tmo : Word), s.busy = false → pay.length ≤ 255 → tmo ≠ 0 →
    exec (.xfer op pay tmo) s = .next (State.accepted { s with odk := .none } op pay tmo)

/-- R250, R112: OD.READ with legal operands is accepted. (TXS as yet unchanged: log 23.) -/
def Obligations.OdReadIsAccepted : Prop :=
  ∀ (s : State) (idx : Half) (sub wid : Byte) (width : Width) (sgn : Bool) (tmo : Word),
    s.busy = false → Width.ofByte wid = some width → tmo ≠ 0 →
      exec (.odRead idx sub wid sgn tmo) s = .next
        (State.accepted
          { s with idx := idx, sub := sub, wid := width, sgn := sgn, odk := .rd, reqop := s.cfg.opRead }
          s.cfg.opRead [lo8 idx, hi8 idx, sub] tmo)

/-- R256, R113, R116: OD.WRITE with legal operands is accepted; of `val` the low `8*wid` bits are sent, least
significant byte first. (TXS as yet unchanged: log 23.) -/
def Obligations.OdWriteIsAccepted : Prop :=
  ∀ (s : State) (idx : Half) (sub : Byte) (val : Word) (wid : Byte) (width : Width) (tmo : Word),
    s.busy = false → Width.ofByte wid = some width → tmo ≠ 0 →
      exec (.odWrite idx sub val wid tmo) s = .next
        (State.accepted
          { s with idx := idx, sub := sub, wid := width, val := val, odk := .wr, reqop := s.cfg.opWrite }
          s.cfg.opWrite ([lo8 idx, hi8 idx, sub] ++ le width.bytes (width.low val)) tmo)

/-- R67, R68, R224 for RD.REQ, WR.REQ.1, WR.REQ.2, WR.REQ.4 and a FRAME to the drive: the frame the block has
handed to the transport crosses and the response is awaited; a frame it has not handed over does not cross (log 9,
the model's meaning for a frame row; that its bytes enter TXS in this step is log 23's). -/
def Obligations.RequestFrameCrosses : Prop :=
  ∀ (s : State) (i : Instr) (w : List Byte), i.port = .link .toDrive → wireOf s.cfg i = some w →
    (s.fph = .send → s.wireBytes = w → exec i s = .next
      { s with txs := s.txs ++ w, rxany := false, dph := .start, escf := false, n := 0, fph := .wait }) ∧
    ((s.fph ≠ .send ∨ s.wireBytes ≠ w) → exec i s = .next s)

/-- R222, R250, R256, R224: the frame an accepted XFER, OD.READ or OD.WRITE has handed over is the one that
crosses, once. (A frame row to the drive is the TXRESULT(ok) of that frame: log 9;
its bytes enter TXS then: log 23.) -/
def Obligations.AcceptedRequestReachesDrive : Prop :=
  ∀ (s t : State) (i j : Instr) (op : Byte) (pay : List Byte),
    Instr.builds s.cfg i = some (op, pay) → s.busy = false → exec i s = .next t → t.fph = .send →
    j.port = .link .toDrive → wireOf s.cfg j = some (encodeFrame s.cfg op pay) →
      ∃ u, exec j t = .next u ∧ u.txs = s.txs ++ encodeFrame s.cfg op pay ∧
        u.writes = s.writes ++ [encodeFrame s.cfg op pay] ∧ u.fph = .wait ∧ u.dph = .start ∧
        u.rxany = false ∧ u.rxq = s.rxq ∧ u.records = s.records

/-- R224, R68: TXRESULT(ok) in F_SEND. (That the bytes of the frame enter TXS in this step is the model's choice,
log 23; which frame a TXRESULT after a RESET answers is log 24's.) -/
def Obligations.TransmitSuccessEntersWait : Prop :=
  ∀ (s : State) (ts : List Turn), s.cfg.WellFormed → s.turns = .txResult .ok :: ts → s.fph = .send →
    s.wlen.toNat ≤ 520 → step s = .next
      { s with
        turns := ts, txs := s.txs ++ s.wireBytes, rxany := false, dph := .start, escf := false, n := 0
        fph := .wait }

/-- R225, R68: TXRESULT(fail) in F_SEND: a prefix has gone out, the command ends, the write is not repeated. (That
the prefix enters TXS in this step is the model's choice, log 23.) -/
def Obligations.TransmitFailureEndsCommand : Prop :=
  ∀ (s : State) (ts : List Turn) (k : Nat), s.cfg.WellFormed → s.turns = .txResult (.fail k) :: ts →
    s.fph = .send → s.wlen.toNat ≤ 520 → step s = .next
      { s with
        turns := ts, txs := s.txs ++ s.wireBytes.take k, res := some (.err 9 0 0)
        records := s.records ++ [.err 9 0 0], busy := false, fph := .idle }

/-- R70, R228: TICK outside F_WAIT does nothing. R233 (derived), R69: TXRESULT outside F_SEND and RXBYTE out of phase do
not occur; that a turn which names one is skipped is the model's choice (log 13). -/
def Obligations.EventsOutOfPhaseDoNothing : Prop :=
  ∀ (s : State) (t : Turn) (ts : List Turn), s.cfg.WellFormed → s.turns = t :: ts →
    ((∃ r, t = .txResult r) ∧ s.fph ≠ .send) ∨ (t = .tick ∧ s.fph ≠ .wait) ∨
      (t = .rxByte ∧ (s.fph ≠ .wait ∨ s.rxq = [])) →
    step s = .next { s with turns := ts }

/-- R228: TICK in F_WAIT lowers TMR, and at 0 ends the command: FE_TRUNC when a byte had come, TransportTimeout
when none had; in F_IDLE and F_SEND it does nothing. -/
def Obligations.TickCountsDown : Prop :=
  ∀ (s : State) (ts : List Turn), s.cfg.WellFormed → s.turns = .tick :: ts →
    let r : Completion := if s.rxany then .err 1 2 0 else .err 2 0 0
    (s.fph = .wait → step s = .next
      (if s.tmr = 1 then
        { s with turns := ts, tmr := 0, res := some r, records := s.records ++ [r], busy := false, fph := .idle }
      else { s with turns := ts, tmr := s.tmr - 1 })) ∧
    (s.fph ≠ .wait → step s = .next { s with turns := ts })

/-! ## Transactions: the response -/

/-- R223, R227: under XFER any valid frame from the drive is returned as it is: FRAME, RD.RSP.1, RD.RSP.2,
RD.RSP.4, RD.RSP.0 and WR.RSP, at its last byte. (The row puts the frame into RXQ, log 8; the block takes it one byte a
step.) -/
def Obligations.XferReturnsAnyFrame : Prop :=
  ∀ (s : State) (i : Instr) (op : Byte) (pay : List Byte), s.cfg.WellFormed → s.Awaiting → s.odk = .none →
    pay.length ≤ 255 → i.port = .link .fromDrive → wireOf s.cfg i = some (encodeFrame s.cfg op pay) →
      frameThenBytes i (encodeFrame s.cfg op pay).length s = .next ((s.received op pay).complete (.frame op pay))

/-- R250, R114, R116 for RD.RSP.1, RD.RSP.2 and RD.RSP.4: a response with code 0 and the expected width completes
OD.READ with the extended value at its last byte. (The row puts the frame into RXQ: log 8.) -/
def Obligations.ReadResponseCompletes : Prop :=
  ∀ (s : State), s.cfg.WellFormed → s.Awaiting → s.odk = .rd → s.reqop = s.cfg.opRead →
    let result := fun (pay : List Byte) (x : Word) => Host.Outcome.next (φ := Fault) (ρ := Refusal)
      ((((s.received s.cfg.opRead pay).setAbt 0).setVal x).complete (.value x))
    let crc := fun pay : List Byte => crcOf s.cfg (frameBody s.cfg.opRead pay)
    let size := fun pay : List Byte => (encodeFrame s.cfg s.cfg.opRead pay).length
    (∀ v : Byte, s.wid = .w1 →
      let pay := le 4 0 ++ le 1 (v.setWidth 32)
      frameThenBytes (.rdRsp1 0 v (crc pay)) (size pay) s =
        result pay (if s.sgn then v.signExtend 32 else v.setWidth 32)) ∧
    (∀ v : Half, s.wid = .w2 →
      let pay := le 4 0 ++ le 2 (v.setWidth 32)
      frameThenBytes (.rdRsp2 0 v (crc pay)) (size pay) s =
        result pay (if s.sgn then v.signExtend 32 else v.setWidth 32)) ∧
    (∀ v : Word, s.wid = .w4 →
      let pay := le 4 0 ++ le 4 v
      frameThenBytes (.rdRsp4 0 v (crc pay)) (size pay) s = result pay v)

/-- R255, R256, R259 for RD.RSP.0 and WR.RSP: a rejected read is DeviceError with the code, VAL not written; a
write response is Ack when the code is 0 and DeviceError otherwise, at the last byte of the frame. (The row puts the frame
into RXQ: log 8.) -/
def Obligations.ShortResponsesComplete : Prop :=
  ∀ (s : State) (abt : Word), s.cfg.WellFormed → s.Awaiting →
    let size := fun op : Byte => (encodeFrame s.cfg op (le 4 abt)).length
    (s.odk = .rd → s.reqop = s.cfg.opRead → abt ≠ 0 →
      frameThenBytes (.rdRsp0 abt (crcOf s.cfg (frameBody s.cfg.opRead (le 4 abt)))) (size s.cfg.opRead) s = .next
        (((s.received s.cfg.opRead (le 4 abt)).setAbt abt).finish (.err 4 0 abt))) ∧
    (s.odk = .wr → s.reqop = s.cfg.opWrite →
      frameThenBytes (.wrRsp abt (crcOf s.cfg (frameBody s.cfg.opWrite (le 4 abt)))) (size s.cfg.opWrite) s = .next
        (((s.received s.cfg.opWrite (le 4 abt)).setAbt abt).finish
          (if abt = 0 then .ok .none else .err 4 0 abt)))

/-- R250, R252 to R255, R263, R264: the verdict of OD.READ on a valid response frame of any shape, in the order of
the checks, made at its last byte; on an error VAL is not written. (The row puts the frame into RXQ: log 8.) -/
def Obligations.ReadVerdictOrder : Prop :=
  ∀ (s : State) (i : Instr) (op : Byte) (pay : List Byte), s.cfg.WellFormed → s.Awaiting → s.odk = .rd →
    pay.length ≤ 255 → i.port = .link .fromDrive → wireOf s.cfg i = some (encodeFrame s.cfg op pay) →
      let t := s.received op pay
      let code := unle (pay.take 4)
      let x := extendValue s.sgn s.wid (unle (pay.drop 4))
      frameThenBytes i (encodeFrame s.cfg op pay).length s = .next
        (if op ≠ s.reqop then t.finish (.err 3 1 0)
        else if pay.length < 4 then t.finish (.err 3 2 0)
        else if code ≠ 0 then (t.setAbt code).finish (.err 4 0 code)
        else if pay.length - 4 ≠ s.wid.bytes then (t.setAbt 0).finish (.err 3 3 0)
        else ((t.setAbt 0).setVal x).complete (.value x))

/-- R256, R258, R259, R263: the verdict of OD.WRITE on a valid response frame of any shape, in the order of the
checks, made at its last byte. (The row puts the frame into RXQ: log 8.) -/
def Obligations.WriteVerdictOrder : Prop :=
  ∀ (s : State) (i : Instr) (op : Byte) (pay : List Byte), s.cfg.WellFormed → s.Awaiting → s.odk = .wr →
    pay.length ≤ 255 → i.port = .link .fromDrive → wireOf s.cfg i = some (encodeFrame s.cfg op pay) →
      let t := s.received op pay
      let code := unle (pay.take 4)
      frameThenBytes i (encodeFrame s.cfg op pay).length s = .next
        (if op ≠ s.reqop then t.finish (.err 3 1 0)
        else if pay.length < 4 then t.finish (.err 3 2 0)
        else if code ≠ 0 then (t.setAbt code).finish (.err 4 0 code)
        else if pay.length ≠ 4 then (t.setAbt 0).finish (.err 3 2 0)
        else (t.setAbt 0).complete .none)

/-- R227, R229: a response whose CRC field is wrong ends the command with FE_CRC at its second CRC byte; an end
marker behind it stays queued. (The row puts the frame into RXQ: log 8.) -/
def Obligations.DamagedResponseEndsCommand : Prop :=
  ∀ (s : State) (i : Instr) (op : Byte) (pay : List Byte) (v : Half), s.cfg.WellFormed → s.Awaiting →
    i.port = .link .fromDrive → i.frameParts s.cfg = some (op, pay, v) → pay.length ≤ 255 →
    v ≠ crcOf s.cfg (frameBody op pay) →
      ∃ t, frameThenBytes i (1 + (stuff s.cfg (frameContent s.cfg op pay v)).length) s = .next t ∧
        Completed s t (.err 1 4 0) ∧ DecodeFrame { s with rxany := true, rxq := endPart s.cfg } t

/-- R63, R233 (derived), R2 for FRAME, RD.RSP.1, RD.RSP.2, RD.RSP.4, RD.RSP.0 and WR.RSP: a frame from the drive is
added to the tail of RXQ in any phase, and nothing else changes: the block takes no byte in that step. While no command
awaits it, it stays there, whatever RXBYTE turns follow. (That the row is the frame's coming in is the model's choice,
log 8; that RXBYTE turns out of phase are skipped is log 13's.) -/
def Obligations.UnsolicitedFrameIsQueued : Prop :=
  ∀ (s : State) (i : Instr) (w : List Byte), i.port = .link .fromDrive → wireOf s.cfg i = some w →
    exec i s = .next { s with rxq := s.rxq ++ w } ∧
    (s.cfg.WellFormed → s.fph ≠ .wait → ∀ k, frameThenBytes i k s = .next { s with rxq := s.rxq ++ w })

/-- R331: a late response left in RXQ is taken as the answer to the next read, and that read's own answer stays
queued. (A
row from the drive puts its frame into RXQ: log 8.) -/
def Obligations.StaleResponseIsTakenFirst : Prop :=
  ∀ (s : State) (i : Instr) (w : List Byte) (v : Word), s.cfg.WellFormed → s.fph = .wait → s.dph = .start →
    s.odk = .rd → s.reqop = s.cfg.opRead →
    s.rxq = encodeFrame s.cfg s.cfg.opRead (le 4 0 ++ le s.wid.bytes v) →
    i.port = .link .fromDrive → wireOf s.cfg i = some w →
      let x := extendValue s.sgn s.wid (s.wid.low v)
      frameThenBytes i s.rxq.length s = .next
        (((((s.received s.cfg.opRead (le 4 0 ++ le s.wid.bytes v)).setAbt 0).setVal x).setRxq w).complete (.value x))

/-- R265 (derived): when the drive answers a read with the value bytes that OD.WRITE sent for `v`, the read returns
`v` if it is representable, and otherwise the value with the same low bits. (The row puts the
frame into RXQ: log 8.) -/
def Obligations.WrittenValueReadsBack : Prop :=
  ∀ (s : State) (i : Instr) (idx : Half) (sub : Byte) (v : Word), s.cfg.WellFormed → s.Awaiting →
    s.odk = .rd → s.reqop = s.cfg.opRead → i.port = .link .fromDrive →
    let w := encodeFrame s.cfg s.cfg.opRead (le 4 0 ++ (writePayload idx sub v s.wid).drop 3)
    wireOf s.cfg i = some w →
      ∃ t x, frameThenBytes i w.length s = .next t ∧ Completed s t (.ok (.value x)) ∧ t.val = x ∧
        x = extendValue s.sgn s.wid (s.wid.low v) ∧ s.wid.low x = s.wid.low v ∧
        (Representable s.sgn s.wid v → x = v)

/-! ## The machine -/

/-- R63, R69, R70, R227, R229: a frame from the drive that comes in and is then taken one byte a step ends in the same
state as its bytes coming in one at a time, each followed by an RXBYTE. (A row from the drive puts its frame into RXQ:
log 8; RXBYTE turns left after the command has ended are skipped: log 13.) -/
def Obligations.FrameIsItsBytes : Prop :=
  ∀ (s : State) (i : Instr) (w : List Byte), s.cfg.WellFormed → i.port = .link .fromDrive →
    wireOf s.cfg i = some w →
      Host.Core.run Sys2Proof.core (byteByByte w).length { s with turns := byteByByte w ++ s.turns } =
        frameThenBytes i w.length s

/-- R235 (derived), R236 (derived), R230: in F_WAIT, whatever bytes arrive and are taken meanwhile, the command has
ended with exactly one record by the time TMR TICKs have come. (RXBYTE turns after the end are skipped: log 13.) -/
def Obligations.TransactionEndsWithinTimeout : Prop :=
  ∀ s : State, s.cfg.WellFormed → s.fph = .wait → s.tmr ≠ 0 → (∀ t, t ∈ s.turns → t.isReceive = true) →
    s.tmr.toNat ≤ s.turns.countP (fun t => decide (t = .tick)) →
      ∃ t r, Host.Core.run Sys2Proof.core s.turns.length s = .next t ∧ Completed s t r ∧
        t.writes = s.writes ∧ t.txs = s.txs

/-- R232, R301, R32: while BUSY = 1 a command is held off: no effect, no record, and it stays on offer. -/
def Obligations.BusyHoldsCommands : Prop :=
  ∀ s : State, s.busy = true →
    (∀ i : Instr, i.port = .command → exec i s = .next s) ∧
    (∀ ts, s.cfg.WellFormed → s.turns = .host :: ts → step s = .next { s with turns := ts })

/-- A step runs the decoded instruction: the record on the command port, the frame that comes in at RXQ, the
frame in WIRE that the transport reports sent (R8, R32; log 2, log 8, log 9). -/
def Obligations.StepRunsDecodedInstruction : Prop :=
  ∀ (s : State) (i : Instr) (ts : List Turn), s.cfg.WellFormed →
    (∀ r rs, s.turns = .host :: ts → s.cmds = r :: rs → s.busy = false → decode s.cfg .command r = .ok i →
      step s = exec i { s with turns := ts, cmds := rs }) ∧
    (∀ w, s.turns = .rxArrive w :: ts → readWire s.cfg .fromDrive w = some i →
      step s = exec i { s with turns := ts }) ∧
    (s.turns = .txResult .ok :: ts → s.fph = .send → s.wlen.toNat ≤ 520 →
      readWire s.cfg .toDrive s.wireBytes = some i → step s = exec i { s with turns := ts })

/-- R121: a command code that is not one of the nine is answered CE_ILLEGAL, with nothing else changed and nothing
sent. -/
def Obligations.IllegalCodeIsAnswered : Prop :=
  ∀ (s : State) (ts : List Turn) (code : Byte) (ops : List Byte) (rs : List (List Byte)),
    s.cfg.WellFormed → s.busy = false → s.turns = .host :: ts → s.cmds = (code :: ops) :: rs →
    code.toNat ∉ [0x01, 0x02, 0x03, 0x04, 0x10, 0x11, 0x20, 0x30, 0x31] →
      step s = .next
        { s with
          turns := ts, cmds := rs, res := some (.err 10 1 0), records := s.records ++ [.err 10 1 0]
          busy := false, fph := .idle }

/-- R320 to R323, R36: RESET: what the spec says each register is after it; configuration, RXQ and the records are
as they were, and of a frame outstanding at the transport a prefix has gone out. (The prefix sent is the
environment's choice, log 6; that it enters TXS in this step is log 23's.) -/
def Obligations.ResetEventClearsBlock : Prop :=
  ∀ (s : State) (ts : List Turn) (k : Nat), s.cfg.WellFormed → s.turns = .reset k :: ts →
    (s.fph = .send → s.wlen.toNat ≤ 520) →
      ∃ t, step s = .next t ∧ t.fph = .idle ∧ t.busy = false ∧ t.dph = .start ∧ t.escf = false ∧
        t.rxany = false ∧ t.odk = .none ∧ t.crcSet = false ∧ t.res = none ∧
        (∀ a, Memory.read t.pay a = none ∧ Memory.read t.wire a = none) ∧
        t.cfg = s.cfg ∧ t.rxq = s.rxq ∧ t.records = s.records ∧ t.writes = s.writes ∧ t.cmds = s.cmds ∧
        t.turns = ts ∧ t.txs = s.txs ++ (if s.fph = .send then s.wireBytes.take k else [])

/-- R36, R321: the machine right after reset: the values the spec gives, and the invariants hold. -/
def Obligations.ResetStateIsGood : Prop :=
  Inv State.reset ∧ RecordsOk State.reset ∧ State.reset.fph = .idle ∧ State.reset.busy = false ∧
    State.reset.dph = .start ∧ State.reset.escf = false ∧ State.reset.rxany = false ∧ State.reset.odk = .none ∧
    State.reset.crcSet = false ∧ State.reset.res = none

/-! ## Encodings (30_encoding.md) -/

/-- R120, R101, R112 to R115: decoding what the encoder writes gives back the instruction, for every instruction
that has an encoding. (The layout of a command record is the model's choice, log 3.) -/
def Obligations.DecodeOfEncode : Prop :=
  ∀ (c : Cfg) (i : Instr), c.WellFormed → i.WellFormed c → decode c i.port (encode c i) = .ok i

/-- R120, R101, R112 to R115: what the decoder accepts is the encoding of the instruction it reads. (The layout of
a command record is the model's choice, log 3.) -/
def Obligations.EncodeOfDecode : Prop :=
  ∀ (c : Cfg) (p : Port) (bs : List Byte) (i : Instr), c.WellFormed → decode c p bs = .ok i →
    i.port = p ∧ i.WellFormed c ∧ encode c i = bs

/-- R104, R105, R127 (derived): the wire form of a frame is read back as the frame. -/
def Obligations.WireFormReadsBack : Prop :=
  ∀ (c : Cfg) (i : Instr) (d : Dir) (w : List Byte), c.WellFormed → i.WellFormed c → i.port = .link d →
    wireOf c i = some w → readWire c d w = some i

/-- R120, R127 (derived): words of the opcode table decode to their rows. (A record's operand bytes are zeros and a
frame word is read most significant byte first, log 3, log 10.) -/
def Obligations.TableWordsDecode : Prop :=
  decodeTableWord 8 0x02 = some (.crcByte 0) ∧ decodeTableWord 8 0x10 = some (.encode 0 []) ∧
    decodeTableWord 8 0x20 = some (.xfer 0 [] 0) ∧ decodeTableWord 8 0x31 = some (.odWrite 0 0 0 0 0) ∧
    decodeTableWord 24 0x7E0103 = some (.rdReq 0 0 0) ∧ decodeTableWord 24 0x7E0106 = some (.rdRsp2 0 0 0)

/-! ## What every step keeps -/

/-- R26, R30, R221, R193, R229: the invariant of the block is kept by every step from every state that has it. -/
def Obligations.StepKeepsInvariant : Prop :=
  ∀ s t : State, Inv s → step s = .next t → Inv t

/-- R26, R12: from a state with the invariant no step faults. -/
def Obligations.InvariantExcludesFaults : Prop :=
  ∀ (s : State) (f : Fault), Inv s → step s ≠ .fault f

/-- R29, R281 to R286, R288: every record delivered is one the tables allow, and RES is the last one or there has
been a reset since. -/
def Obligations.StepKeepsRecordsLegal : Prop :=
  ∀ s t : State, RecordsOk s → step s = .next t → RecordsOk t

/-- R78, R231, R261: a step writes at most one request frame, only by accepting a command, and never while one is
in progress. -/
def Obligations.RequestsAreNeverRepeated : Prop :=
  ∀ s t : State, step s = .next t →
    t.writes = s.writes ∨
      (s.busy = false ∧ t.busy = true ∧ t.fph = .send ∧ t.writes = s.writes ++ [t.wireBytes])

/-- R62, R63, R36: TXS only grows at its tail, RXQ loses bytes only in F_WAIT, the configuration never changes. -/
def Obligations.StreamsAreAppendOnly : Prop :=
  ∀ s t : State, step s = .next t →
    t.cfg = s.cfg ∧ s.txs <+: t.txs ∧ s.records <+: t.records ∧ (s.fph ≠ .wait → s.rxq <+: t.rxq)

/-- R222, R229: under the framer FE_LENGTH never arises, and a step in F_WAIT delivers at most one record. -/
def Obligations.FramerNeverReportsLength : Prop :=
  ∀ s t : State, Inv s → s.fph = .wait → step s = .next t →
    t.records = s.records ∨ ∃ r, t.records = s.records ++ [r] ∧ r ≠ .err 1 3 0
end

