-- ==== Sys2Proof/Laws/Memory.lean ====
section
/-! SUPPORT. The laws of the byte buffers: a read after a write, and the canonical form every write keeps. -/

namespace Sys2Proof.Machine

/-- Reading the address just written gives the byte written. -/
@[simp] theorem Memory.read_write_same (m : Memory) (a : Nat) (b : Byte) :
    Memory.read (Memory.write m a b) a = some b := by
  induction m with
  | nil => simp [Memory.write, Memory.read]
  | cons x m ih =>
    obtain ⟨k, v⟩ := x
    unfold Memory.write
    split
    · simp [Memory.read]
    · split
      · simp_all [Memory.read]
      · rename_i h1 h2
        simp [Memory.read, ih, Ne.symm h2]

/-- A write leaves every other address alone. -/
theorem Memory.read_write_other (m : Memory) (a k : Nat) (b : Byte) (h : k ≠ a) :
    Memory.read (Memory.write m a b) k = Memory.read m k := by
  induction m with
  | nil => simp [Memory.write, Memory.read, Ne.symm h]
  | cons x m ih =>
    obtain ⟨j, v⟩ := x
    unfold Memory.write
    split
    · simp [Memory.read, Ne.symm h]
    · split
      · rename_i h2
        subst h2
        simp [Memory.read, Ne.symm h]
      · simp [Memory.read, ih]

/-- One byte read after one byte written. -/
theorem Memory.read_write (m : Memory) (a k : Nat) (b : Byte) :
    Memory.read (Memory.write m a b) k = if k = a then some b else Memory.read m k := by
  by_cases h : k = a
  · subst h; simp
  · simp [h, Memory.read_write_other m a k b h]

/-- The first address of a memory in canonical form bounds the rest. -/
theorem Memory.wf_cons (x : Host.Cell) (m : Memory) :
    Memory.wf (x :: m) = true ↔ (∀ y, m.head? = some y → x.1 < y.1) ∧ Memory.wf m = true := by
  cases m with
  | nil => simp [Memory.wf]
  | cons y m => simp [Memory.wf]

/-- The first address after a write is the lower of the old first and the one written. -/
theorem Memory.head_write (m : Memory) (a : Nat) (b : Byte) (y : Host.Cell)
    (h : (Memory.write m a b).head? = some y) : y.1 = a ∨ ∃ z, m.head? = some z ∧ y.1 = z.1 := by
  cases m with
  | nil => simp [Memory.write] at h; simp [← h]
  | cons x m =>
    obtain ⟨k, v⟩ := x
    unfold Memory.write at h
    split at h
    · simp at h; simp [← h]
    · split at h
      · simp at h; simp [← h]
      · simp at h; simp [← h]

/-- A write keeps the canonical form. -/
theorem Memory.write_wf (m : Memory) (a : Nat) (b : Byte) (h : Memory.wf m = true) :
    Memory.wf (Memory.write m a b) = true := by
  induction m with
  | nil => simp [Memory.write, Memory.wf]
  | cons x m ih =>
    obtain ⟨k, v⟩ := x
    have hm := (Memory.wf_cons _ _).1 h
    unfold Memory.write
    split
    · rename_i hlt
      exact (Memory.wf_cons _ _).2 ⟨by simpa using hlt, h⟩
    · split
      · exact (Memory.wf_cons _ _).2 ⟨by simpa using hm.1, hm.2⟩
      · refine (Memory.wf_cons _ _).2 ⟨fun y hy => ?_, ih hm.2⟩
        rcases Memory.head_write m a b y hy with hya | ⟨z, hz, hyz⟩
        · simp only; omega
        · have := hm.1 z hz
          simp only at this ⊢; omega

/-- A write inside the range keeps the memory inside the range. -/
theorem Memory.write_below (m : Memory) (n a : Nat) (b : Byte) (ha : a < n) (h : Memory.below n m = true) :
    Memory.below n (Memory.write m a b) = true := by
  induction m with
  | nil => simpa [Memory.write, Memory.below] using ha
  | cons x m ih =>
    obtain ⟨k, v⟩ := x
    simp only [Memory.below, List.all_cons, Bool.and_eq_true, decide_eq_true_eq] at h ih ⊢
    unfold Memory.write
    split
    · simp [ha, h]
    · split
      · simp [h]
      · simpa [h.1] using ih h.2

/-- `writeBytes` of two sequences, one after the other. -/
theorem Memory.writeBytes_append (m : Memory) (a : Nat) (x y : List Byte) :
    Memory.writeBytes m a (x ++ y) = Memory.writeBytes (Memory.writeBytes m a x) (a + x.length) y := by
  induction x generalizing m a with
  | nil => rfl
  | cons b x ih =>
    simp only [List.cons_append, Memory.writeBytes, ih, List.length_cons]
    congr 1; omega

/-- One byte read after a sequence written: the sequence's byte inside its range, the old byte outside. -/
theorem Memory.read_writeBytes (m : Memory) (a k : Nat) (x : List Byte) :
    Memory.read (Memory.writeBytes m a x) k =
      if a ≤ k ∧ k < a + x.length then x[k - a]? else Memory.read m k := by
  induction x generalizing m a with
  | nil => simp [Memory.writeBytes]
  | cons b x ih =>
    simp only [Memory.writeBytes, ih, Memory.read_write, List.length_cons]
    by_cases h1 : k = a
    · subst h1; simp
    · by_cases h2 : a + 1 ≤ k ∧ k < a + 1 + x.length
      · have h3 : a ≤ k ∧ k < a + (x.length + 1) := by omega
        have h4 : k - a = (k - (a + 1)) + 1 := by omega
        simp only [h2, h3, and_self, if_true, h4, List.getElem?_cons_succ]
      · have h3 : ¬ (a ≤ k ∧ k < a + (x.length + 1)) := by omega
        rw [if_neg h2, if_neg h3, if_neg h1]

/-- `writeBytes` keeps the canonical form. -/
theorem Memory.writeBytes_wf (m : Memory) (a : Nat) (x : List Byte) (h : Memory.wf m = true) :
    Memory.wf (Memory.writeBytes m a x) = true := by
  induction x generalizing m a with
  | nil => exact h
  | cons b x ih => exact ih _ _ (Memory.write_wf m a b h)

/-- `writeBytes` inside the range keeps the memory inside the range. -/
theorem Memory.writeBytes_below (m : Memory) (n a : Nat) (x : List Byte) (hx : a + x.length ≤ n)
    (h : Memory.below n m = true) : Memory.below n (Memory.writeBytes m a x) = true := by
  induction x generalizing m a with
  | nil => exact h
  | cons b x ih =>
    simp only [List.length_cons] at hx
    exact ih _ _ (by omega) (Memory.write_below m n a b (by omega) h)

end Sys2Proof.Machine
end

