-- ==== Sys2Proof/Laws/State.lean ====
section
/-! SUPPORT. For each named update of the state, what every field is after it, and for the reads what they read. -/

namespace Sys2Proof.Machine

variable (s : State)

/-! ## `leaveBusy` -/

@[simp] theorem State.leaveBusy_cfg : s.leaveBusy.cfg = s.cfg := rfl
@[simp] theorem State.leaveBusy_crc : s.leaveBusy.crc = s.crc := rfl
@[simp] theorem State.leaveBusy_crcSet : s.leaveBusy.crcSet = s.crcSet := rfl
@[simp] theorem State.leaveBusy_opc : s.leaveBusy.opc = s.opc := rfl
@[simp] theorem State.leaveBusy_len : s.leaveBusy.len = s.len := rfl
@[simp] theorem State.leaveBusy_pay : s.leaveBusy.pay = s.pay := rfl
@[simp] theorem State.leaveBusy_rcrc : s.leaveBusy.rcrc = s.rcrc := rfl
@[simp] theorem State.leaveBusy_wire : s.leaveBusy.wire = s.wire := rfl
@[simp] theorem State.leaveBusy_wlen : s.leaveBusy.wlen = s.wlen := rfl
@[simp] theorem State.leaveBusy_tmr : s.leaveBusy.tmr = s.tmr := rfl
@[simp] theorem State.leaveBusy_idx : s.leaveBusy.idx = s.idx := rfl
@[simp] theorem State.leaveBusy_sub : s.leaveBusy.sub = s.sub := rfl
@[simp] theorem State.leaveBusy_wid : s.leaveBusy.wid = s.wid := rfl
@[simp] theorem State.leaveBusy_sgn : s.leaveBusy.sgn = s.sgn := rfl
@[simp] theorem State.leaveBusy_val : s.leaveBusy.val = s.val := rfl
@[simp] theorem State.leaveBusy_abt : s.leaveBusy.abt = s.abt := rfl
@[simp] theorem State.leaveBusy_reqop : s.leaveBusy.reqop = s.reqop := rfl
@[simp] theorem State.leaveBusy_odk : s.leaveBusy.odk = s.odk := rfl
@[simp] theorem State.leaveBusy_res : s.leaveBusy.res = s.res := rfl
@[simp] theorem State.leaveBusy_fph : s.leaveBusy.fph = .idle := rfl
@[simp] theorem State.leaveBusy_dph : s.leaveBusy.dph = s.dph := rfl
@[simp] theorem State.leaveBusy_n : s.leaveBusy.n = s.n := rfl
@[simp] theorem State.leaveBusy_busy : s.leaveBusy.busy = false := rfl
@[simp] theorem State.leaveBusy_escf : s.leaveBusy.escf = s.escf := rfl
@[simp] theorem State.leaveBusy_rxany : s.leaveBusy.rxany = s.rxany := rfl
@[simp] theorem State.leaveBusy_rxq : s.leaveBusy.rxq = s.rxq := rfl
@[simp] theorem State.leaveBusy_txs : s.leaveBusy.txs = s.txs := rfl
@[simp] theorem State.leaveBusy_cmds : s.leaveBusy.cmds = s.cmds := rfl
@[simp] theorem State.leaveBusy_turns : s.leaveBusy.turns = s.turns := rfl
@[simp] theorem State.leaveBusy_records : s.leaveBusy.records = s.records := rfl
@[simp] theorem State.leaveBusy_writes : s.leaveBusy.writes = s.writes := rfl
@[simp] theorem State.leaveBusy_draws : s.leaveBusy.draws = s.draws := rfl

/-! ## `enterSend` -/

@[simp] theorem State.enterSend_cfg : s.enterSend.cfg = s.cfg := rfl
@[simp] theorem State.enterSend_crc : s.enterSend.crc = s.crc := rfl
@[simp] theorem State.enterSend_crcSet : s.enterSend.crcSet = s.crcSet := rfl
@[simp] theorem State.enterSend_opc : s.enterSend.opc = s.opc := rfl
@[simp] theorem State.enterSend_len : s.enterSend.len = s.len := rfl
@[simp] theorem State.enterSend_pay : s.enterSend.pay = s.pay := rfl
@[simp] theorem State.enterSend_rcrc : s.enterSend.rcrc = s.rcrc := rfl
@[simp] theorem State.enterSend_wire : s.enterSend.wire = s.wire := rfl
@[simp] theorem State.enterSend_wlen : s.enterSend.wlen = s.wlen := rfl
@[simp] theorem State.enterSend_tmr : s.enterSend.tmr = s.tmr := rfl
@[simp] theorem State.enterSend_idx : s.enterSend.idx = s.idx := rfl
@[simp] theorem State.enterSend_sub : s.enterSend.sub = s.sub := rfl
@[simp] theorem State.enterSend_wid : s.enterSend.wid = s.wid := rfl
@[simp] theorem State.enterSend_sgn : s.enterSend.sgn = s.sgn := rfl
@[simp] theorem State.enterSend_val : s.enterSend.val = s.val := rfl
@[simp] theorem State.enterSend_abt : s.enterSend.abt = s.abt := rfl
@[simp] theorem State.enterSend_reqop : s.enterSend.reqop = s.reqop := rfl
@[simp] theorem State.enterSend_odk : s.enterSend.odk = s.odk := rfl
@[simp] theorem State.enterSend_res : s.enterSend.res = s.res := rfl
@[simp] theorem State.enterSend_fph : s.enterSend.fph = .send := rfl
@[simp] theorem State.enterSend_dph : s.enterSend.dph = s.dph := rfl
@[simp] theorem State.enterSend_n : s.enterSend.n = s.n := rfl
@[simp] theorem State.enterSend_busy : s.enterSend.busy = true := rfl
@[simp] theorem State.enterSend_escf : s.enterSend.escf = s.escf := rfl
@[simp] theorem State.enterSend_rxany : s.enterSend.rxany = s.rxany := rfl
@[simp] theorem State.enterSend_rxq : s.enterSend.rxq = s.rxq := rfl
@[simp] theorem State.enterSend_txs : s.enterSend.txs = s.txs := rfl
@[simp] theorem State.enterSend_cmds : s.enterSend.cmds = s.cmds := rfl
@[simp] theorem State.enterSend_turns : s.enterSend.turns = s.turns := rfl
@[simp] theorem State.enterSend_records : s.enterSend.records = s.records := rfl
@[simp] theorem State.enterSend_writes : s.enterSend.writes = s.writes := rfl
@[simp] theorem State.enterSend_draws : s.enterSend.draws = s.draws := rfl

/-! ## `setEsc` -/

@[simp] theorem State.setEsc_cfg (b : Bool) : (s.setEsc b).cfg = s.cfg := rfl
@[simp] theorem State.setEsc_crc (b : Bool) : (s.setEsc b).crc = s.crc := rfl
@[simp] theorem State.setEsc_crcSet (b : Bool) : (s.setEsc b).crcSet = s.crcSet := rfl
@[simp] theorem State.setEsc_opc (b : Bool) : (s.setEsc b).opc = s.opc := rfl
@[simp] theorem State.setEsc_len (b : Bool) : (s.setEsc b).len = s.len := rfl
@[simp] theorem State.setEsc_pay (b : Bool) : (s.setEsc b).pay = s.pay := rfl
@[simp] theorem State.setEsc_rcrc (b : Bool) : (s.setEsc b).rcrc = s.rcrc := rfl
@[simp] theorem State.setEsc_wire (b : Bool) : (s.setEsc b).wire = s.wire := rfl
@[simp] theorem State.setEsc_wlen (b : Bool) : (s.setEsc b).wlen = s.wlen := rfl
@[simp] theorem State.setEsc_tmr (b : Bool) : (s.setEsc b).tmr = s.tmr := rfl
@[simp] theorem State.setEsc_idx (b : Bool) : (s.setEsc b).idx = s.idx := rfl
@[simp] theorem State.setEsc_sub (b : Bool) : (s.setEsc b).sub = s.sub := rfl
@[simp] theorem State.setEsc_wid (b : Bool) : (s.setEsc b).wid = s.wid := rfl
@[simp] theorem State.setEsc_sgn (b : Bool) : (s.setEsc b).sgn = s.sgn := rfl
@[simp] theorem State.setEsc_val (b : Bool) : (s.setEsc b).val = s.val := rfl
@[simp] theorem State.setEsc_abt (b : Bool) : (s.setEsc b).abt = s.abt := rfl
@[simp] theorem State.setEsc_reqop (b : Bool) : (s.setEsc b).reqop = s.reqop := rfl
@[simp] theorem State.setEsc_odk (b : Bool) : (s.setEsc b).odk = s.odk := rfl
@[simp] theorem State.setEsc_res (b : Bool) : (s.setEsc b).res = s.res := rfl
@[simp] theorem State.setEsc_fph (b : Bool) : (s.setEsc b).fph = s.fph := rfl
@[simp] theorem State.setEsc_dph (b : Bool) : (s.setEsc b).dph = s.dph := rfl
@[simp] theorem State.setEsc_n (b : Bool) : (s.setEsc b).n = s.n := rfl
@[simp] theorem State.setEsc_busy (b : Bool) : (s.setEsc b).busy = s.busy := rfl
@[simp] theorem State.setEsc_escf (b : Bool) : (s.setEsc b).escf = b := rfl
@[simp] theorem State.setEsc_rxany (b : Bool) : (s.setEsc b).rxany = s.rxany := rfl
@[simp] theorem State.setEsc_rxq (b : Bool) : (s.setEsc b).rxq = s.rxq := rfl
@[simp] theorem State.setEsc_txs (b : Bool) : (s.setEsc b).txs = s.txs := rfl
@[simp] theorem State.setEsc_cmds (b : Bool) : (s.setEsc b).cmds = s.cmds := rfl
@[simp] theorem State.setEsc_turns (b : Bool) : (s.setEsc b).turns = s.turns := rfl
@[simp] theorem State.setEsc_records (b : Bool) : (s.setEsc b).records = s.records := rfl
@[simp] theorem State.setEsc_writes (b : Bool) : (s.setEsc b).writes = s.writes := rfl
@[simp] theorem State.setEsc_draws (b : Bool) : (s.setEsc b).draws = s.draws := rfl

/-! ## `setRxAny` -/

@[simp] theorem State.setRxAny_cfg (b : Bool) : (s.setRxAny b).cfg = s.cfg := rfl
@[simp] theorem State.setRxAny_crc (b : Bool) : (s.setRxAny b).crc = s.crc := rfl
@[simp] theorem State.setRxAny_crcSet (b : Bool) : (s.setRxAny b).crcSet = s.crcSet := rfl
@[simp] theorem State.setRxAny_opc (b : Bool) : (s.setRxAny b).opc = s.opc := rfl
@[simp] theorem State.setRxAny_len (b : Bool) : (s.setRxAny b).len = s.len := rfl
@[simp] theorem State.setRxAny_pay (b : Bool) : (s.setRxAny b).pay = s.pay := rfl
@[simp] theorem State.setRxAny_rcrc (b : Bool) : (s.setRxAny b).rcrc = s.rcrc := rfl
@[simp] theorem State.setRxAny_wire (b : Bool) : (s.setRxAny b).wire = s.wire := rfl
@[simp] theorem State.setRxAny_wlen (b : Bool) : (s.setRxAny b).wlen = s.wlen := rfl
@[simp] theorem State.setRxAny_tmr (b : Bool) : (s.setRxAny b).tmr = s.tmr := rfl
@[simp] theorem State.setRxAny_idx (b : Bool) : (s.setRxAny b).idx = s.idx := rfl
@[simp] theorem State.setRxAny_sub (b : Bool) : (s.setRxAny b).sub = s.sub := rfl
@[simp] theorem State.setRxAny_wid (b : Bool) : (s.setRxAny b).wid = s.wid := rfl
@[simp] theorem State.setRxAny_sgn (b : Bool) : (s.setRxAny b).sgn = s.sgn := rfl
@[simp] theorem State.setRxAny_val (b : Bool) : (s.setRxAny b).val = s.val := rfl
@[simp] theorem State.setRxAny_abt (b : Bool) : (s.setRxAny b).abt = s.abt := rfl
@[simp] theorem State.setRxAny_reqop (b : Bool) : (s.setRxAny b).reqop = s.reqop := rfl
@[simp] theorem State.setRxAny_odk (b : Bool) : (s.setRxAny b).odk = s.odk := rfl
@[simp] theorem State.setRxAny_res (b : Bool) : (s.setRxAny b).res = s.res := rfl
@[simp] theorem State.setRxAny_fph (b : Bool) : (s.setRxAny b).fph = s.fph := rfl
@[simp] theorem State.setRxAny_dph (b : Bool) : (s.setRxAny b).dph = s.dph := rfl
@[simp] theorem State.setRxAny_n (b : Bool) : (s.setRxAny b).n = s.n := rfl
@[simp] theorem State.setRxAny_busy (b : Bool) : (s.setRxAny b).busy = s.busy := rfl
@[simp] theorem State.setRxAny_escf (b : Bool) : (s.setRxAny b).escf = s.escf := rfl
@[simp] theorem State.setRxAny_rxany (b : Bool) : (s.setRxAny b).rxany = b := rfl
@[simp] theorem State.setRxAny_rxq (b : Bool) : (s.setRxAny b).rxq = s.rxq := rfl
@[simp] theorem State.setRxAny_txs (b : Bool) : (s.setRxAny b).txs = s.txs := rfl
@[simp] theorem State.setRxAny_cmds (b : Bool) : (s.setRxAny b).cmds = s.cmds := rfl
@[simp] theorem State.setRxAny_turns (b : Bool) : (s.setRxAny b).turns = s.turns := rfl
@[simp] theorem State.setRxAny_records (b : Bool) : (s.setRxAny b).records = s.records := rfl
@[simp] theorem State.setRxAny_writes (b : Bool) : (s.setRxAny b).writes = s.writes := rfl
@[simp] theorem State.setRxAny_draws (b : Bool) : (s.setRxAny b).draws = s.draws := rfl

/-! ## `deliver` -/

@[simp] theorem State.deliver_cfg (r : Completion) : (s.deliver r).cfg = s.cfg := rfl
@[simp] theorem State.deliver_crc (r : Completion) : (s.deliver r).crc = s.crc := rfl
@[simp] theorem State.deliver_crcSet (r : Completion) : (s.deliver r).crcSet = s.crcSet := rfl
@[simp] theorem State.deliver_opc (r : Completion) : (s.deliver r).opc = s.opc := rfl
@[simp] theorem State.deliver_len (r : Completion) : (s.deliver r).len = s.len := rfl
@[simp] theorem State.deliver_pay (r : Completion) : (s.deliver r).pay = s.pay := rfl
@[simp] theorem State.deliver_rcrc (r : Completion) : (s.deliver r).rcrc = s.rcrc := rfl
@[simp] theorem State.deliver_wire (r : Completion) : (s.deliver r).wire = s.wire := rfl
@[simp] theorem State.deliver_wlen (r : Completion) : (s.deliver r).wlen = s.wlen := rfl
@[simp] theorem State.deliver_tmr (r : Completion) : (s.deliver r).tmr = s.tmr := rfl
@[simp] theorem State.deliver_idx (r : Completion) : (s.deliver r).idx = s.idx := rfl
@[simp] theorem State.deliver_sub (r : Completion) : (s.deliver r).sub = s.sub := rfl
@[simp] theorem State.deliver_wid (r : Completion) : (s.deliver r).wid = s.wid := rfl
@[simp] theorem State.deliver_sgn (r : Completion) : (s.deliver r).sgn = s.sgn := rfl
@[simp] theorem State.deliver_val (r : Completion) : (s.deliver r).val = s.val := rfl
@[simp] theorem State.deliver_abt (r : Completion) : (s.deliver r).abt = s.abt := rfl
@[simp] theorem State.deliver_reqop (r : Completion) : (s.deliver r).reqop = s.reqop := rfl
@[simp] theorem State.deliver_odk (r : Completion) : (s.deliver r).odk = s.odk := rfl
@[simp] theorem State.deliver_res (r : Completion) : (s.deliver r).res = some r := rfl
@[simp] theorem State.deliver_fph (r : Completion) : (s.deliver r).fph = s.fph := rfl
@[simp] theorem State.deliver_dph (r : Completion) : (s.deliver r).dph = s.dph := rfl
@[simp] theorem State.deliver_n (r : Completion) : (s.deliver r).n = s.n := rfl
@[simp] theorem State.deliver_busy (r : Completion) : (s.deliver r).busy = s.busy := rfl
@[simp] theorem State.deliver_escf (r : Completion) : (s.deliver r).escf = s.escf := rfl
@[simp] theorem State.deliver_rxany (r : Completion) : (s.deliver r).rxany = s.rxany := rfl
@[simp] theorem State.deliver_rxq (r : Completion) : (s.deliver r).rxq = s.rxq := rfl
@[simp] theorem State.deliver_txs (r : Completion) : (s.deliver r).txs = s.txs := rfl
@[simp] theorem State.deliver_cmds (r : Completion) : (s.deliver r).cmds = s.cmds := rfl
@[simp] theorem State.deliver_turns (r : Completion) : (s.deliver r).turns = s.turns := rfl
@[simp] theorem State.deliver_records (r : Completion) : (s.deliver r).records = s.records ++ [r] := rfl
@[simp] theorem State.deliver_writes (r : Completion) : (s.deliver r).writes = s.writes := rfl
@[simp] theorem State.deliver_draws (r : Completion) : (s.deliver r).draws = s.draws := rfl

/-! ## `finish` -/

@[simp] theorem State.finish_cfg (r : Completion) : (s.finish r).cfg = s.cfg := rfl
@[simp] theorem State.finish_crc (r : Completion) : (s.finish r).crc = s.crc := rfl
@[simp] theorem State.finish_crcSet (r : Completion) : (s.finish r).crcSet = s.crcSet := rfl
@[simp] theorem State.finish_opc (r : Completion) : (s.finish r).opc = s.opc := rfl
@[simp] theorem State.finish_len (r : Completion) : (s.finish r).len = s.len := rfl
@[simp] theorem State.finish_pay (r : Completion) : (s.finish r).pay = s.pay := rfl
@[simp] theorem State.finish_rcrc (r : Completion) : (s.finish r).rcrc = s.rcrc := rfl
@[simp] theorem State.finish_wire (r : Completion) : (s.finish r).wire = s.wire := rfl
@[simp] theorem State.finish_wlen (r : Completion) : (s.finish r).wlen = s.wlen := rfl
@[simp] theorem State.finish_tmr (r : Completion) : (s.finish r).tmr = s.tmr := rfl
@[simp] theorem State.finish_idx (r : Completion) : (s.finish r).idx = s.idx := rfl
@[simp] theorem State.finish_sub (r : Completion) : (s.finish r).sub = s.sub := rfl
@[simp] theorem State.finish_wid (r : Completion) : (s.finish r).wid = s.wid := rfl
@[simp] theorem State.finish_sgn (r : Completion) : (s.finish r).sgn = s.sgn := rfl
@[simp] theorem State.finish_val (r : Completion) : (s.finish r).val = s.val := rfl
@[simp] theorem State.finish_abt (r : Completion) : (s.finish r).abt = s.abt := rfl
@[simp] theorem State.finish_reqop (r : Completion) : (s.finish r).reqop = s.reqop := rfl
@[simp] theorem State.finish_odk (r : Completion) : (s.finish r).odk = s.odk := rfl
@[simp] theorem State.finish_res (r : Completion) : (s.finish r).res = some r := rfl
@[simp] theorem State.finish_fph (r : Completion) : (s.finish r).fph = .idle := rfl
@[simp] theorem State.finish_dph (r : Completion) : (s.finish r).dph = s.dph := rfl
@[simp] theorem State.finish_n (r : Completion) : (s.finish r).n = s.n := rfl
@[simp] theorem State.finish_busy (r : Completion) : (s.finish r).busy = false := rfl
@[simp] theorem State.finish_escf (r : Completion) : (s.finish r).escf = s.escf := rfl
@[simp] theorem State.finish_rxany (r : Completion) : (s.finish r).rxany = s.rxany := rfl
@[simp] theorem State.finish_rxq (r : Completion) : (s.finish r).rxq = s.rxq := rfl
@[simp] theorem State.finish_txs (r : Completion) : (s.finish r).txs = s.txs := rfl
@[simp] theorem State.finish_cmds (r : Completion) : (s.finish r).cmds = s.cmds := rfl
@[simp] theorem State.finish_turns (r : Completion) : (s.finish r).turns = s.turns := rfl
@[simp] theorem State.finish_records (r : Completion) : (s.finish r).records = s.records ++ [r] := rfl
@[simp] theorem State.finish_writes (r : Completion) : (s.finish r).writes = s.writes := rfl
@[simp] theorem State.finish_draws (r : Completion) : (s.finish r).draws = s.draws := rfl

/-! ## `complete` -/

@[simp] theorem State.complete_cfg (r : Results) : (s.complete r).cfg = s.cfg := rfl
@[simp] theorem State.complete_crc (r : Results) : (s.complete r).crc = s.crc := rfl
@[simp] theorem State.complete_crcSet (r : Results) : (s.complete r).crcSet = s.crcSet := rfl
@[simp] theorem State.complete_opc (r : Results) : (s.complete r).opc = s.opc := rfl
@[simp] theorem State.complete_len (r : Results) : (s.complete r).len = s.len := rfl
@[simp] theorem State.complete_pay (r : Results) : (s.complete r).pay = s.pay := rfl
@[simp] theorem State.complete_rcrc (r : Results) : (s.complete r).rcrc = s.rcrc := rfl
@[simp] theorem State.complete_wire (r : Results) : (s.complete r).wire = s.wire := rfl
@[simp] theorem State.complete_wlen (r : Results) : (s.complete r).wlen = s.wlen := rfl
@[simp] theorem State.complete_tmr (r : Results) : (s.complete r).tmr = s.tmr := rfl
@[simp] theorem State.complete_idx (r : Results) : (s.complete r).idx = s.idx := rfl
@[simp] theorem State.complete_sub (r : Results) : (s.complete r).sub = s.sub := rfl
@[simp] theorem State.complete_wid (r : Results) : (s.complete r).wid = s.wid := rfl
@[simp] theorem State.complete_sgn (r : Results) : (s.complete r).sgn = s.sgn := rfl
@[simp] theorem State.complete_val (r : Results) : (s.complete r).val = s.val := rfl
@[simp] theorem State.complete_abt (r : Results) : (s.complete r).abt = s.abt := rfl
@[simp] theorem State.complete_reqop (r : Results) : (s.complete r).reqop = s.reqop := rfl
@[simp] theorem State.complete_odk (r : Results) : (s.complete r).odk = s.odk := rfl
@[simp] theorem State.complete_res (r : Results) : (s.complete r).res = some (.ok r) := rfl
@[simp] theorem State.complete_fph (r : Results) : (s.complete r).fph = .idle := rfl
@[simp] theorem State.complete_dph (r : Results) : (s.complete r).dph = s.dph := rfl
@[simp] theorem State.complete_n (r : Results) : (s.complete r).n = s.n := rfl
@[simp] theorem State.complete_busy (r : Results) : (s.complete r).busy = false := rfl
@[simp] theorem State.complete_escf (r : Results) : (s.complete r).escf = s.escf := rfl
@[simp] theorem State.complete_rxany (r : Results) : (s.complete r).rxany = s.rxany := rfl
@[simp] theorem State.complete_rxq (r : Results) : (s.complete r).rxq = s.rxq := rfl
@[simp] theorem State.complete_txs (r : Results) : (s.complete r).txs = s.txs := rfl
@[simp] theorem State.complete_cmds (r : Results) : (s.complete r).cmds = s.cmds := rfl
@[simp] theorem State.complete_turns (r : Results) : (s.complete r).turns = s.turns := rfl
@[simp] theorem State.complete_records (r : Results) : (s.complete r).records = s.records ++ [.ok r] := rfl
@[simp] theorem State.complete_writes (r : Results) : (s.complete r).writes = s.writes := rfl
@[simp] theorem State.complete_draws (r : Results) : (s.complete r).draws = s.draws := rfl

/-! ## `raise` -/

@[simp] theorem State.raise_cfg (e : BlockError) : (s.raise e).cfg = s.cfg := rfl
@[simp] theorem State.raise_crc (e : BlockError) : (s.raise e).crc = s.crc := rfl
@[simp] theorem State.raise_crcSet (e : BlockError) : (s.raise e).crcSet = s.crcSet := rfl
@[simp] theorem State.raise_opc (e : BlockError) : (s.raise e).opc = s.opc := rfl
@[simp] theorem State.raise_len (e : BlockError) : (s.raise e).len = s.len := rfl
@[simp] theorem State.raise_pay (e : BlockError) : (s.raise e).pay = s.pay := rfl
@[simp] theorem State.raise_rcrc (e : BlockError) : (s.raise e).rcrc = s.rcrc := rfl
@[simp] theorem State.raise_wire (e : BlockError) : (s.raise e).wire = s.wire := rfl
@[simp] theorem State.raise_wlen (e : BlockError) : (s.raise e).wlen = s.wlen := rfl
@[simp] theorem State.raise_tmr (e : BlockError) : (s.raise e).tmr = s.tmr := rfl
@[simp] theorem State.raise_idx (e : BlockError) : (s.raise e).idx = s.idx := rfl
@[simp] theorem State.raise_sub (e : BlockError) : (s.raise e).sub = s.sub := rfl
@[simp] theorem State.raise_wid (e : BlockError) : (s.raise e).wid = s.wid := rfl
@[simp] theorem State.raise_sgn (e : BlockError) : (s.raise e).sgn = s.sgn := rfl
@[simp] theorem State.raise_val (e : BlockError) : (s.raise e).val = s.val := rfl
@[simp] theorem State.raise_abt (e : BlockError) : (s.raise e).abt = s.abt := rfl
@[simp] theorem State.raise_reqop (e : BlockError) : (s.raise e).reqop = s.reqop := rfl
@[simp] theorem State.raise_odk (e : BlockError) : (s.raise e).odk = s.odk := rfl
@[simp] theorem State.raise_res (e : BlockError) : (s.raise e).res = some e.record := rfl
@[simp] theorem State.raise_fph (e : BlockError) : (s.raise e).fph = .idle := rfl
@[simp] theorem State.raise_dph (e : BlockError) : (s.raise e).dph = s.dph := rfl
@[simp] theorem State.raise_n (e : BlockError) : (s.raise e).n = s.n := rfl
@[simp] theorem State.raise_busy (e : BlockError) : (s.raise e).busy = false := rfl
@[simp] theorem State.raise_escf (e : BlockError) : (s.raise e).escf = s.escf := rfl
@[simp] theorem State.raise_rxany (e : BlockError) : (s.raise e).rxany = s.rxany := rfl
@[simp] theorem State.raise_rxq (e : BlockError) : (s.raise e).rxq = s.rxq := rfl
@[simp] theorem State.raise_txs (e : BlockError) : (s.raise e).txs = s.txs := rfl
@[simp] theorem State.raise_cmds (e : BlockError) : (s.raise e).cmds = s.cmds := rfl
@[simp] theorem State.raise_turns (e : BlockError) : (s.raise e).turns = s.turns := rfl
@[simp] theorem State.raise_records (e : BlockError) : (s.raise e).records = s.records ++ [e.record] := rfl
@[simp] theorem State.raise_writes (e : BlockError) : (s.raise e).writes = s.writes := rfl
@[simp] theorem State.raise_draws (e : BlockError) : (s.raise e).draws = s.draws := rfl

/-! ## `setCrc` -/

@[simp] theorem State.setCrc_cfg (v : Half) : (s.setCrc v).cfg = s.cfg := rfl
@[simp] theorem State.setCrc_crc (v : Half) : (s.setCrc v).crc = v := rfl
@[simp] theorem State.setCrc_crcSet (v : Half) : (s.setCrc v).crcSet = true := rfl
@[simp] theorem State.setCrc_opc (v : Half) : (s.setCrc v).opc = s.opc := rfl
@[simp] theorem State.setCrc_len (v : Half) : (s.setCrc v).len = s.len := rfl
@[simp] theorem State.setCrc_pay (v : Half) : (s.setCrc v).pay = s.pay := rfl
@[simp] theorem State.setCrc_rcrc (v : Half) : (s.setCrc v).rcrc = s.rcrc := rfl
@[simp] theorem State.setCrc_wire (v : Half) : (s.setCrc v).wire = s.wire := rfl
@[simp] theorem State.setCrc_wlen (v : Half) : (s.setCrc v).wlen = s.wlen := rfl
@[simp] theorem State.setCrc_tmr (v : Half) : (s.setCrc v).tmr = s.tmr := rfl
@[simp] theorem State.setCrc_idx (v : Half) : (s.setCrc v).idx = s.idx := rfl
@[simp] theorem State.setCrc_sub (v : Half) : (s.setCrc v).sub = s.sub := rfl
@[simp] theorem State.setCrc_wid (v : Half) : (s.setCrc v).wid = s.wid := rfl
@[simp] theorem State.setCrc_sgn (v : Half) : (s.setCrc v).sgn = s.sgn := rfl
@[simp] theorem State.setCrc_val (v : Half) : (s.setCrc v).val = s.val := rfl
@[simp] theorem State.setCrc_abt (v : Half) : (s.setCrc v).abt = s.abt := rfl
@[simp] theorem State.setCrc_reqop (v : Half) : (s.setCrc v).reqop = s.reqop := rfl
@[simp] theorem State.setCrc_odk (v : Half) : (s.setCrc v).odk = s.odk := rfl
@[simp] theorem State.setCrc_res (v : Half) : (s.setCrc v).res = s.res := rfl
@[simp] theorem State.setCrc_fph (v : Half) : (s.setCrc v).fph = s.fph := rfl
@[simp] theorem State.setCrc_dph (v : Half) : (s.setCrc v).dph = s.dph := rfl
@[simp] theorem State.setCrc_n (v : Half) : (s.setCrc v).n = s.n := rfl
@[simp] theorem State.setCrc_busy (v : Half) : (s.setCrc v).busy = s.busy := rfl
@[simp] theorem State.setCrc_escf (v : Half) : (s.setCrc v).escf = s.escf := rfl
@[simp] theorem State.setCrc_rxany (v : Half) : (s.setCrc v).rxany = s.rxany := rfl
@[simp] theorem State.setCrc_rxq (v : Half) : (s.setCrc v).rxq = s.rxq := rfl
@[simp] theorem State.setCrc_txs (v : Half) : (s.setCrc v).txs = s.txs := rfl
@[simp] theorem State.setCrc_cmds (v : Half) : (s.setCrc v).cmds = s.cmds := rfl
@[simp] theorem State.setCrc_turns (v : Half) : (s.setCrc v).turns = s.turns := rfl
@[simp] theorem State.setCrc_records (v : Half) : (s.setCrc v).records = s.records := rfl
@[simp] theorem State.setCrc_writes (v : Half) : (s.setCrc v).writes = s.writes := rfl
@[simp] theorem State.setCrc_draws (v : Half) : (s.setCrc v).draws = s.draws := rfl

/-! ## `put` -/

@[simp] theorem State.put_cfg (b : Byte) : (s.put b).cfg = s.cfg := rfl
@[simp] theorem State.put_crc (b : Byte) : (s.put b).crc = s.crc := rfl
@[simp] theorem State.put_crcSet (b : Byte) : (s.put b).crcSet = s.crcSet := rfl
@[simp] theorem State.put_opc (b : Byte) : (s.put b).opc = s.opc := rfl
@[simp] theorem State.put_len (b : Byte) : (s.put b).len = s.len := rfl
@[simp] theorem State.put_pay (b : Byte) : (s.put b).pay = s.pay := rfl
@[simp] theorem State.put_rcrc (b : Byte) : (s.put b).rcrc = s.rcrc := rfl
@[simp] theorem State.put_wire (b : Byte) : (s.put b).wire = Memory.write s.wire s.wlen.toNat b := rfl
@[simp] theorem State.put_wlen (b : Byte) : (s.put b).wlen = s.wlen + 1 := rfl
@[simp] theorem State.put_tmr (b : Byte) : (s.put b).tmr = s.tmr := rfl
@[simp] theorem State.put_idx (b : Byte) : (s.put b).idx = s.idx := rfl
@[simp] theorem State.put_sub (b : Byte) : (s.put b).sub = s.sub := rfl
@[simp] theorem State.put_wid (b : Byte) : (s.put b).wid = s.wid := rfl
@[simp] theorem State.put_sgn (b : Byte) : (s.put b).sgn = s.sgn := rfl
@[simp] theorem State.put_val (b : Byte) : (s.put b).val = s.val := rfl
@[simp] theorem State.put_abt (b : Byte) : (s.put b).abt = s.abt := rfl
@[simp] theorem State.put_reqop (b : Byte) : (s.put b).reqop = s.reqop := rfl
@[simp] theorem State.put_odk (b : Byte) : (s.put b).odk = s.odk := rfl
@[simp] theorem State.put_res (b : Byte) : (s.put b).res = s.res := rfl
@[simp] theorem State.put_fph (b : Byte) : (s.put b).fph = s.fph := rfl
@[simp] theorem State.put_dph (b : Byte) : (s.put b).dph = s.dph := rfl
@[simp] theorem State.put_n (b : Byte) : (s.put b).n = s.n := rfl
@[simp] theorem State.put_busy (b : Byte) : (s.put b).busy = s.busy := rfl
@[simp] theorem State.put_escf (b : Byte) : (s.put b).escf = s.escf := rfl
@[simp] theorem State.put_rxany (b : Byte) : (s.put b).rxany = s.rxany := rfl
@[simp] theorem State.put_rxq (b : Byte) : (s.put b).rxq = s.rxq := rfl
@[simp] theorem State.put_txs (b : Byte) : (s.put b).txs = s.txs := rfl
@[simp] theorem State.put_cmds (b : Byte) : (s.put b).cmds = s.cmds := rfl
@[simp] theorem State.put_turns (b : Byte) : (s.put b).turns = s.turns := rfl
@[simp] theorem State.put_records (b : Byte) : (s.put b).records = s.records := rfl
@[simp] theorem State.put_writes (b : Byte) : (s.put b).writes = s.writes := rfl
@[simp] theorem State.put_draws (b : Byte) : (s.put b).draws = s.draws := rfl

/-! ## `loadPayload` -/

@[simp] theorem State.loadPayload_cfg (op : Byte) (p : List Byte) : (s.loadPayload op p).cfg = s.cfg := rfl
@[simp] theorem State.loadPayload_crc (op : Byte) (p : List Byte) : (s.loadPayload op p).crc = s.crc := rfl
@[simp] theorem State.loadPayload_crcSet (op : Byte) (p : List Byte) : (s.loadPayload op p).crcSet = s.crcSet := rfl
@[simp] theorem State.loadPayload_opc (op : Byte) (p : List Byte) : (s.loadPayload op p).opc = op := rfl
@[simp] theorem State.loadPayload_len (op : Byte) (p : List Byte) : (s.loadPayload op p).len = BitVec.ofNat 8 p.length := rfl
@[simp] theorem State.loadPayload_pay (op : Byte) (p : List Byte) : (s.loadPayload op p).pay = Memory.writeBytes s.pay 0 p := rfl
@[simp] theorem State.loadPayload_rcrc (op : Byte) (p : List Byte) : (s.loadPayload op p).rcrc = s.rcrc := rfl
@[simp] theorem State.loadPayload_wire (op : Byte) (p : List Byte) : (s.loadPayload op p).wire = s.wire := rfl
@[simp] theorem State.loadPayload_wlen (op : Byte) (p : List Byte) : (s.loadPayload op p).wlen = s.wlen := rfl
@[simp] theorem State.loadPayload_tmr (op : Byte) (p : List Byte) : (s.loadPayload op p).tmr = s.tmr := rfl
@[simp] theorem State.loadPayload_idx (op : Byte) (p : List Byte) : (s.loadPayload op p).idx = s.idx := rfl
@[simp] theorem State.loadPayload_sub (op : Byte) (p : List Byte) : (s.loadPayload op p).sub = s.sub := rfl
@[simp] theorem State.loadPayload_wid (op : Byte) (p : List Byte) : (s.loadPayload op p).wid = s.wid := rfl
@[simp] theorem State.loadPayload_sgn (op : Byte) (p : List Byte) : (s.loadPayload op p).sgn = s.sgn := rfl
@[simp] theorem State.loadPayload_val (op : Byte) (p : List Byte) : (s.loadPayload op p).val = s.val := rfl
@[simp] theorem State.loadPayload_abt (op : Byte) (p : List Byte) : (s.loadPayload op p).abt = s.abt := rfl
@[simp] theorem State.loadPayload_reqop (op : Byte) (p : List Byte) : (s.loadPayload op p).reqop = s.reqop := rfl
@[simp] theorem State.loadPayload_odk (op : Byte) (p : List Byte) : (s.loadPayload op p).odk = s.odk := rfl
@[simp] theorem State.loadPayload_res (op : Byte) (p : List Byte) : (s.loadPayload op p).res = s.res := rfl
@[simp] theorem State.loadPayload_fph (op : Byte) (p : List Byte) : (s.loadPayload op p).fph = s.fph := rfl
@[simp] theorem State.loadPayload_dph (op : Byte) (p : List Byte) : (s.loadPayload op p).dph = s.dph := rfl
@[simp] theorem State.loadPayload_n (op : Byte) (p : List Byte) : (s.loadPayload op p).n = s.n := rfl
@[simp] theorem State.loadPayload_busy (op : Byte) (p : List Byte) : (s.loadPayload op p).busy = s.busy := rfl
@[simp] theorem State.loadPayload_escf (op : Byte) (p : List Byte) : (s.loadPayload op p).escf = s.escf := rfl
@[simp] theorem State.loadPayload_rxany (op : Byte) (p : List Byte) : (s.loadPayload op p).rxany = s.rxany := rfl
@[simp] theorem State.loadPayload_rxq (op : Byte) (p : List Byte) : (s.loadPayload op p).rxq = s.rxq := rfl
@[simp] theorem State.loadPayload_txs (op : Byte) (p : List Byte) : (s.loadPayload op p).txs = s.txs := rfl
@[simp] theorem State.loadPayload_cmds (op : Byte) (p : List Byte) : (s.loadPayload op p).cmds = s.cmds := rfl
@[simp] theorem State.loadPayload_turns (op : Byte) (p : List Byte) : (s.loadPayload op p).turns = s.turns := rfl
@[simp] theorem State.loadPayload_records (op : Byte) (p : List Byte) : (s.loadPayload op p).records = s.records := rfl
@[simp] theorem State.loadPayload_writes (op : Byte) (p : List Byte) : (s.loadPayload op p).writes = s.writes := rfl
@[simp] theorem State.loadPayload_draws (op : Byte) (p : List Byte) : (s.loadPayload op p).draws = s.draws := rfl

/-! ## `decReset` -/

@[simp] theorem State.decReset_cfg : s.decReset.cfg = s.cfg := rfl
@[simp] theorem State.decReset_crc : s.decReset.crc = s.crc := rfl
@[simp] theorem State.decReset_crcSet : s.decReset.crcSet = s.crcSet := rfl
@[simp] theorem State.decReset_opc : s.decReset.opc = s.opc := rfl
@[simp] theorem State.decReset_len : s.decReset.len = s.len := rfl
@[simp] theorem State.decReset_pay : s.decReset.pay = s.pay := rfl
@[simp] theorem State.decReset_rcrc : s.decReset.rcrc = s.rcrc := rfl
@[simp] theorem State.decReset_wire : s.decReset.wire = s.wire := rfl
@[simp] theorem State.decReset_wlen : s.decReset.wlen = s.wlen := rfl
@[simp] theorem State.decReset_tmr : s.decReset.tmr = s.tmr := rfl
@[simp] theorem State.decReset_idx : s.decReset.idx = s.idx := rfl
@[simp] theorem State.decReset_sub : s.decReset.sub = s.sub := rfl
@[simp] theorem State.decReset_wid : s.decReset.wid = s.wid := rfl
@[simp] theorem State.decReset_sgn : s.decReset.sgn = s.sgn := rfl
@[simp] theorem State.decReset_val : s.decReset.val = s.val := rfl
@[simp] theorem State.decReset_abt : s.decReset.abt = s.abt := rfl
@[simp] theorem State.decReset_reqop : s.decReset.reqop = s.reqop := rfl
@[simp] theorem State.decReset_odk : s.decReset.odk = s.odk := rfl
@[simp] theorem State.decReset_res : s.decReset.res = s.res := rfl
@[simp] theorem State.decReset_fph : s.decReset.fph = s.fph := rfl
@[simp] theorem State.decReset_dph : s.decReset.dph = .start := rfl
@[simp] theorem State.decReset_n : s.decReset.n = 0 := rfl
@[simp] theorem State.decReset_busy : s.decReset.busy = s.busy := rfl
@[simp] theorem State.decReset_escf : s.decReset.escf = false := rfl
@[simp] theorem State.decReset_rxany : s.decReset.rxany = s.rxany := rfl
@[simp] theorem State.decReset_rxq : s.decReset.rxq = s.rxq := rfl
@[simp] theorem State.decReset_txs : s.decReset.txs = s.txs := rfl
@[simp] theorem State.decReset_cmds : s.decReset.cmds = s.cmds := rfl
@[simp] theorem State.decReset_turns : s.decReset.turns = s.turns := rfl
@[simp] theorem State.decReset_records : s.decReset.records = s.records := rfl
@[simp] theorem State.decReset_writes : s.decReset.writes = s.writes := rfl
@[simp] theorem State.decReset_draws : s.decReset.draws = s.draws := rfl

/-! ## `decFail` -/

@[simp] theorem State.decFail_cfg (c : FrameCause) : (s.decFail c).cfg = s.cfg := rfl
@[simp] theorem State.decFail_crc (c : FrameCause) : (s.decFail c).crc = s.crc := rfl
@[simp] theorem State.decFail_crcSet (c : FrameCause) : (s.decFail c).crcSet = s.crcSet := rfl
@[simp] theorem State.decFail_opc (c : FrameCause) : (s.decFail c).opc = s.opc := rfl
@[simp] theorem State.decFail_len (c : FrameCause) : (s.decFail c).len = s.len := rfl
@[simp] theorem State.decFail_pay (c : FrameCause) : (s.decFail c).pay = s.pay := rfl
@[simp] theorem State.decFail_rcrc (c : FrameCause) : (s.decFail c).rcrc = s.rcrc := rfl
@[simp] theorem State.decFail_wire (c : FrameCause) : (s.decFail c).wire = s.wire := rfl
@[simp] theorem State.decFail_wlen (c : FrameCause) : (s.decFail c).wlen = s.wlen := rfl
@[simp] theorem State.decFail_tmr (c : FrameCause) : (s.decFail c).tmr = s.tmr := rfl
@[simp] theorem State.decFail_idx (c : FrameCause) : (s.decFail c).idx = s.idx := rfl
@[simp] theorem State.decFail_sub (c : FrameCause) : (s.decFail c).sub = s.sub := rfl
@[simp] theorem State.decFail_wid (c : FrameCause) : (s.decFail c).wid = s.wid := rfl
@[simp] theorem State.decFail_sgn (c : FrameCause) : (s.decFail c).sgn = s.sgn := rfl
@[simp] theorem State.decFail_val (c : FrameCause) : (s.decFail c).val = s.val := rfl
@[simp] theorem State.decFail_abt (c : FrameCause) : (s.decFail c).abt = s.abt := rfl
@[simp] theorem State.decFail_reqop (c : FrameCause) : (s.decFail c).reqop = s.reqop := rfl
@[simp] theorem State.decFail_odk (c : FrameCause) : (s.decFail c).odk = s.odk := rfl
@[simp] theorem State.decFail_res (c : FrameCause) : (s.decFail c).res = s.res := rfl
@[simp] theorem State.decFail_fph (c : FrameCause) : (s.decFail c).fph = s.fph := rfl
@[simp] theorem State.decFail_dph (c : FrameCause) : (s.decFail c).dph = .err c := rfl
@[simp] theorem State.decFail_n (c : FrameCause) : (s.decFail c).n = s.n := rfl
@[simp] theorem State.decFail_busy (c : FrameCause) : (s.decFail c).busy = s.busy := rfl
@[simp] theorem State.decFail_escf (c : FrameCause) : (s.decFail c).escf = s.escf := rfl
@[simp] theorem State.decFail_rxany (c : FrameCause) : (s.decFail c).rxany = s.rxany := rfl
@[simp] theorem State.decFail_rxq (c : FrameCause) : (s.decFail c).rxq = s.rxq := rfl
@[simp] theorem State.decFail_txs (c : FrameCause) : (s.decFail c).txs = s.txs := rfl
@[simp] theorem State.decFail_cmds (c : FrameCause) : (s.decFail c).cmds = s.cmds := rfl
@[simp] theorem State.decFail_turns (c : FrameCause) : (s.decFail c).turns = s.turns := rfl
@[simp] theorem State.decFail_records (c : FrameCause) : (s.decFail c).records = s.records := rfl
@[simp] theorem State.decFail_writes (c : FrameCause) : (s.decFail c).writes = s.writes := rfl
@[simp] theorem State.decFail_draws (c : FrameCause) : (s.decFail c).draws = s.draws := rfl

/-! ## `clearWire` -/

@[simp] theorem State.clearWire_cfg : s.clearWire.cfg = s.cfg := rfl
@[simp] theorem State.clearWire_crc : s.clearWire.crc = s.crc := rfl
@[simp] theorem State.clearWire_crcSet : s.clearWire.crcSet = s.crcSet := rfl
@[simp] theorem State.clearWire_opc : s.clearWire.opc = s.opc := rfl
@[simp] theorem State.clearWire_len : s.clearWire.len = s.len := rfl
@[simp] theorem State.clearWire_pay : s.clearWire.pay = s.pay := rfl
@[simp] theorem State.clearWire_rcrc : s.clearWire.rcrc = s.rcrc := rfl
@[simp] theorem State.clearWire_wire : s.clearWire.wire = s.wire := rfl
@[simp] theorem State.clearWire_wlen : s.clearWire.wlen = 0 := rfl
@[simp] theorem State.clearWire_tmr : s.clearWire.tmr = s.tmr := rfl
@[simp] theorem State.clearWire_idx : s.clearWire.idx = s.idx := rfl
@[simp] theorem State.clearWire_sub : s.clearWire.sub = s.sub := rfl
@[simp] theorem State.clearWire_wid : s.clearWire.wid = s.wid := rfl
@[simp] theorem State.clearWire_sgn : s.clearWire.sgn = s.sgn := rfl
@[simp] theorem State.clearWire_val : s.clearWire.val = s.val := rfl
@[simp] theorem State.clearWire_abt : s.clearWire.abt = s.abt := rfl
@[simp] theorem State.clearWire_reqop : s.clearWire.reqop = s.reqop := rfl
@[simp] theorem State.clearWire_odk : s.clearWire.odk = s.odk := rfl
@[simp] theorem State.clearWire_res : s.clearWire.res = s.res := rfl
@[simp] theorem State.clearWire_fph : s.clearWire.fph = s.fph := rfl
@[simp] theorem State.clearWire_dph : s.clearWire.dph = s.dph := rfl
@[simp] theorem State.clearWire_n : s.clearWire.n = s.n := rfl
@[simp] theorem State.clearWire_busy : s.clearWire.busy = s.busy := rfl
@[simp] theorem State.clearWire_escf : s.clearWire.escf = s.escf := rfl
@[simp] theorem State.clearWire_rxany : s.clearWire.rxany = s.rxany := rfl
@[simp] theorem State.clearWire_rxq : s.clearWire.rxq = s.rxq := rfl
@[simp] theorem State.clearWire_txs : s.clearWire.txs = s.txs := rfl
@[simp] theorem State.clearWire_cmds : s.clearWire.cmds = s.cmds := rfl
@[simp] theorem State.clearWire_turns : s.clearWire.turns = s.turns := rfl
@[simp] theorem State.clearWire_records : s.clearWire.records = s.records := rfl
@[simp] theorem State.clearWire_writes : s.clearWire.writes = s.writes := rfl
@[simp] theorem State.clearWire_draws : s.clearWire.draws = s.draws := rfl

/-! ## `setPhase` -/

@[simp] theorem State.setPhase_cfg (d : DPhase) : (s.setPhase d).cfg = s.cfg := rfl
@[simp] theorem State.setPhase_crc (d : DPhase) : (s.setPhase d).crc = s.crc := rfl
@[simp] theorem State.setPhase_crcSet (d : DPhase) : (s.setPhase d).crcSet = s.crcSet := rfl
@[simp] theorem State.setPhase_opc (d : DPhase) : (s.setPhase d).opc = s.opc := rfl
@[simp] theorem State.setPhase_len (d : DPhase) : (s.setPhase d).len = s.len := rfl
@[simp] theorem State.setPhase_pay (d : DPhase) : (s.setPhase d).pay = s.pay := rfl
@[simp] theorem State.setPhase_rcrc (d : DPhase) : (s.setPhase d).rcrc = s.rcrc := rfl
@[simp] theorem State.setPhase_wire (d : DPhase) : (s.setPhase d).wire = s.wire := rfl
@[simp] theorem State.setPhase_wlen (d : DPhase) : (s.setPhase d).wlen = s.wlen := rfl
@[simp] theorem State.setPhase_tmr (d : DPhase) : (s.setPhase d).tmr = s.tmr := rfl
@[simp] theorem State.setPhase_idx (d : DPhase) : (s.setPhase d).idx = s.idx := rfl
@[simp] theorem State.setPhase_sub (d : DPhase) : (s.setPhase d).sub = s.sub := rfl
@[simp] theorem State.setPhase_wid (d : DPhase) : (s.setPhase d).wid = s.wid := rfl
@[simp] theorem State.setPhase_sgn (d : DPhase) : (s.setPhase d).sgn = s.sgn := rfl
@[simp] theorem State.setPhase_val (d : DPhase) : (s.setPhase d).val = s.val := rfl
@[simp] theorem State.setPhase_abt (d : DPhase) : (s.setPhase d).abt = s.abt := rfl
@[simp] theorem State.setPhase_reqop (d : DPhase) : (s.setPhase d).reqop = s.reqop := rfl
@[simp] theorem State.setPhase_odk (d : DPhase) : (s.setPhase d).odk = s.odk := rfl
@[simp] theorem State.setPhase_res (d : DPhase) : (s.setPhase d).res = s.res := rfl
@[simp] theorem State.setPhase_fph (d : DPhase) : (s.setPhase d).fph = s.fph := rfl
@[simp] theorem State.setPhase_dph (d : DPhase) : (s.setPhase d).dph = d := rfl
@[simp] theorem State.setPhase_n (d : DPhase) : (s.setPhase d).n = s.n := rfl
@[simp] theorem State.setPhase_busy (d : DPhase) : (s.setPhase d).busy = s.busy := rfl
@[simp] theorem State.setPhase_escf (d : DPhase) : (s.setPhase d).escf = s.escf := rfl
@[simp] theorem State.setPhase_rxany (d : DPhase) : (s.setPhase d).rxany = s.rxany := rfl
@[simp] theorem State.setPhase_rxq (d : DPhase) : (s.setPhase d).rxq = s.rxq := rfl
@[simp] theorem State.setPhase_txs (d : DPhase) : (s.setPhase d).txs = s.txs := rfl
@[simp] theorem State.setPhase_cmds (d : DPhase) : (s.setPhase d).cmds = s.cmds := rfl
@[simp] theorem State.setPhase_turns (d : DPhase) : (s.setPhase d).turns = s.turns := rfl
@[simp] theorem State.setPhase_records (d : DPhase) : (s.setPhase d).records = s.records := rfl
@[simp] theorem State.setPhase_writes (d : DPhase) : (s.setPhase d).writes = s.writes := rfl
@[simp] theorem State.setPhase_draws (d : DPhase) : (s.setPhase d).draws = s.draws := rfl

/-! ## `startBody` -/

@[simp] theorem State.startBody_cfg : s.startBody.cfg = s.cfg := rfl
@[simp] theorem State.startBody_crc : s.startBody.crc = s.cfg.crcInit := rfl
@[simp] theorem State.startBody_crcSet : s.startBody.crcSet = true := rfl
@[simp] theorem State.startBody_opc : s.startBody.opc = s.opc := rfl
@[simp] theorem State.startBody_len : s.startBody.len = s.len := rfl
@[simp] theorem State.startBody_pay : s.startBody.pay = s.pay := rfl
@[simp] theorem State.startBody_rcrc : s.startBody.rcrc = s.rcrc := rfl
@[simp] theorem State.startBody_wire : s.startBody.wire = s.wire := rfl
@[simp] theorem State.startBody_wlen : s.startBody.wlen = s.wlen := rfl
@[simp] theorem State.startBody_tmr : s.startBody.tmr = s.tmr := rfl
@[simp] theorem State.startBody_idx : s.startBody.idx = s.idx := rfl
@[simp] theorem State.startBody_sub : s.startBody.sub = s.sub := rfl
@[simp] theorem State.startBody_wid : s.startBody.wid = s.wid := rfl
@[simp] theorem State.startBody_sgn : s.startBody.sgn = s.sgn := rfl
@[simp] theorem State.startBody_val : s.startBody.val = s.val := rfl
@[simp] theorem State.startBody_abt : s.startBody.abt = s.abt := rfl
@[simp] theorem State.startBody_reqop : s.startBody.reqop = s.reqop := rfl
@[simp] theorem State.startBody_odk : s.startBody.odk = s.odk := rfl
@[simp] theorem State.startBody_res : s.startBody.res = s.res := rfl
@[simp] theorem State.startBody_fph : s.startBody.fph = s.fph := rfl
@[simp] theorem State.startBody_dph : s.startBody.dph = .body := rfl
@[simp] theorem State.startBody_n : s.startBody.n = 0 := rfl
@[simp] theorem State.startBody_busy : s.startBody.busy = s.busy := rfl
@[simp] theorem State.startBody_escf : s.startBody.escf = false := rfl
@[simp] theorem State.startBody_rxany : s.startBody.rxany = s.rxany := rfl
@[simp] theorem State.startBody_rxq : s.startBody.rxq = s.rxq := rfl
@[simp] theorem State.startBody_txs : s.startBody.txs = s.txs := rfl
@[simp] theorem State.startBody_cmds : s.startBody.cmds = s.cmds := rfl
@[simp] theorem State.startBody_turns : s.startBody.turns = s.turns := rfl
@[simp] theorem State.startBody_records : s.startBody.records = s.records := rfl
@[simp] theorem State.startBody_writes : s.startBody.writes = s.writes := rfl
@[simp] theorem State.startBody_draws : s.startBody.draws = s.draws := rfl

/-! ## `setOpc` -/

@[simp] theorem State.setOpc_cfg (b : Byte) : (s.setOpc b).cfg = s.cfg := rfl
@[simp] theorem State.setOpc_crc (b : Byte) : (s.setOpc b).crc = s.crc := rfl
@[simp] theorem State.setOpc_crcSet (b : Byte) : (s.setOpc b).crcSet = s.crcSet := rfl
@[simp] theorem State.setOpc_opc (b : Byte) : (s.setOpc b).opc = b := rfl
@[simp] theorem State.setOpc_len (b : Byte) : (s.setOpc b).len = s.len := rfl
@[simp] theorem State.setOpc_pay (b : Byte) : (s.setOpc b).pay = s.pay := rfl
@[simp] theorem State.setOpc_rcrc (b : Byte) : (s.setOpc b).rcrc = s.rcrc := rfl
@[simp] theorem State.setOpc_wire (b : Byte) : (s.setOpc b).wire = s.wire := rfl
@[simp] theorem State.setOpc_wlen (b : Byte) : (s.setOpc b).wlen = s.wlen := rfl
@[simp] theorem State.setOpc_tmr (b : Byte) : (s.setOpc b).tmr = s.tmr := rfl
@[simp] theorem State.setOpc_idx (b : Byte) : (s.setOpc b).idx = s.idx := rfl
@[simp] theorem State.setOpc_sub (b : Byte) : (s.setOpc b).sub = s.sub := rfl
@[simp] theorem State.setOpc_wid (b : Byte) : (s.setOpc b).wid = s.wid := rfl
@[simp] theorem State.setOpc_sgn (b : Byte) : (s.setOpc b).sgn = s.sgn := rfl
@[simp] theorem State.setOpc_val (b : Byte) : (s.setOpc b).val = s.val := rfl
@[simp] theorem State.setOpc_abt (b : Byte) : (s.setOpc b).abt = s.abt := rfl
@[simp] theorem State.setOpc_reqop (b : Byte) : (s.setOpc b).reqop = s.reqop := rfl
@[simp] theorem State.setOpc_odk (b : Byte) : (s.setOpc b).odk = s.odk := rfl
@[simp] theorem State.setOpc_res (b : Byte) : (s.setOpc b).res = s.res := rfl
@[simp] theorem State.setOpc_fph (b : Byte) : (s.setOpc b).fph = s.fph := rfl
@[simp] theorem State.setOpc_dph (b : Byte) : (s.setOpc b).dph = s.dph := rfl
@[simp] theorem State.setOpc_n (b : Byte) : (s.setOpc b).n = s.n := rfl
@[simp] theorem State.setOpc_busy (b : Byte) : (s.setOpc b).busy = s.busy := rfl
@[simp] theorem State.setOpc_escf (b : Byte) : (s.setOpc b).escf = s.escf := rfl
@[simp] theorem State.setOpc_rxany (b : Byte) : (s.setOpc b).rxany = s.rxany := rfl
@[simp] theorem State.setOpc_rxq (b : Byte) : (s.setOpc b).rxq = s.rxq := rfl
@[simp] theorem State.setOpc_txs (b : Byte) : (s.setOpc b).txs = s.txs := rfl
@[simp] theorem State.setOpc_cmds (b : Byte) : (s.setOpc b).cmds = s.cmds := rfl
@[simp] theorem State.setOpc_turns (b : Byte) : (s.setOpc b).turns = s.turns := rfl
@[simp] theorem State.setOpc_records (b : Byte) : (s.setOpc b).records = s.records := rfl
@[simp] theorem State.setOpc_writes (b : Byte) : (s.setOpc b).writes = s.writes := rfl
@[simp] theorem State.setOpc_draws (b : Byte) : (s.setOpc b).draws = s.draws := rfl

/-! ## `setLen` -/

@[simp] theorem State.setLen_cfg (b : Byte) : (s.setLen b).cfg = s.cfg := rfl
@[simp] theorem State.setLen_crc (b : Byte) : (s.setLen b).crc = s.crc := rfl
@[simp] theorem State.setLen_crcSet (b : Byte) : (s.setLen b).crcSet = s.crcSet := rfl
@[simp] theorem State.setLen_opc (b : Byte) : (s.setLen b).opc = s.opc := rfl
@[simp] theorem State.setLen_len (b : Byte) : (s.setLen b).len = b := rfl
@[simp] theorem State.setLen_pay (b : Byte) : (s.setLen b).pay = s.pay := rfl
@[simp] theorem State.setLen_rcrc (b : Byte) : (s.setLen b).rcrc = s.rcrc := rfl
@[simp] theorem State.setLen_wire (b : Byte) : (s.setLen b).wire = s.wire := rfl
@[simp] theorem State.setLen_wlen (b : Byte) : (s.setLen b).wlen = s.wlen := rfl
@[simp] theorem State.setLen_tmr (b : Byte) : (s.setLen b).tmr = s.tmr := rfl
@[simp] theorem State.setLen_idx (b : Byte) : (s.setLen b).idx = s.idx := rfl
@[simp] theorem State.setLen_sub (b : Byte) : (s.setLen b).sub = s.sub := rfl
@[simp] theorem State.setLen_wid (b : Byte) : (s.setLen b).wid = s.wid := rfl
@[simp] theorem State.setLen_sgn (b : Byte) : (s.setLen b).sgn = s.sgn := rfl
@[simp] theorem State.setLen_val (b : Byte) : (s.setLen b).val = s.val := rfl
@[simp] theorem State.setLen_abt (b : Byte) : (s.setLen b).abt = s.abt := rfl
@[simp] theorem State.setLen_reqop (b : Byte) : (s.setLen b).reqop = s.reqop := rfl
@[simp] theorem State.setLen_odk (b : Byte) : (s.setLen b).odk = s.odk := rfl
@[simp] theorem State.setLen_res (b : Byte) : (s.setLen b).res = s.res := rfl
@[simp] theorem State.setLen_fph (b : Byte) : (s.setLen b).fph = s.fph := rfl
@[simp] theorem State.setLen_dph (b : Byte) : (s.setLen b).dph = s.dph := rfl
@[simp] theorem State.setLen_n (b : Byte) : (s.setLen b).n = s.n := rfl
@[simp] theorem State.setLen_busy (b : Byte) : (s.setLen b).busy = s.busy := rfl
@[simp] theorem State.setLen_escf (b : Byte) : (s.setLen b).escf = s.escf := rfl
@[simp] theorem State.setLen_rxany (b : Byte) : (s.setLen b).rxany = s.rxany := rfl
@[simp] theorem State.setLen_rxq (b : Byte) : (s.setLen b).rxq = s.rxq := rfl
@[simp] theorem State.setLen_txs (b : Byte) : (s.setLen b).txs = s.txs := rfl
@[simp] theorem State.setLen_cmds (b : Byte) : (s.setLen b).cmds = s.cmds := rfl
@[simp] theorem State.setLen_turns (b : Byte) : (s.setLen b).turns = s.turns := rfl
@[simp] theorem State.setLen_records (b : Byte) : (s.setLen b).records = s.records := rfl
@[simp] theorem State.setLen_writes (b : Byte) : (s.setLen b).writes = s.writes := rfl
@[simp] theorem State.setLen_draws (b : Byte) : (s.setLen b).draws = s.draws := rfl

/-! ## `setPay` -/

@[simp] theorem State.setPay_cfg (k : Nat) (b : Byte) : (s.setPay k b).cfg = s.cfg := rfl
@[simp] theorem State.setPay_crc (k : Nat) (b : Byte) : (s.setPay k b).crc = s.crc := rfl
@[simp] theorem State.setPay_crcSet (k : Nat) (b : Byte) : (s.setPay k b).crcSet = s.crcSet := rfl
@[simp] theorem State.setPay_opc (k : Nat) (b : Byte) : (s.setPay k b).opc = s.opc := rfl
@[simp] theorem State.setPay_len (k : Nat) (b : Byte) : (s.setPay k b).len = s.len := rfl
@[simp] theorem State.setPay_pay (k : Nat) (b : Byte) : (s.setPay k b).pay = Memory.write s.pay k b := rfl
@[simp] theorem State.setPay_rcrc (k : Nat) (b : Byte) : (s.setPay k b).rcrc = s.rcrc := rfl
@[simp] theorem State.setPay_wire (k : Nat) (b : Byte) : (s.setPay k b).wire = s.wire := rfl
@[simp] theorem State.setPay_wlen (k : Nat) (b : Byte) : (s.setPay k b).wlen = s.wlen := rfl
@[simp] theorem State.setPay_tmr (k : Nat) (b : Byte) : (s.setPay k b).tmr = s.tmr := rfl
@[simp] theorem State.setPay_idx (k : Nat) (b : Byte) : (s.setPay k b).idx = s.idx := rfl
@[simp] theorem State.setPay_sub (k : Nat) (b : Byte) : (s.setPay k b).sub = s.sub := rfl
@[simp] theorem State.setPay_wid (k : Nat) (b : Byte) : (s.setPay k b).wid = s.wid := rfl
@[simp] theorem State.setPay_sgn (k : Nat) (b : Byte) : (s.setPay k b).sgn = s.sgn := rfl
@[simp] theorem State.setPay_val (k : Nat) (b : Byte) : (s.setPay k b).val = s.val := rfl
@[simp] theorem State.setPay_abt (k : Nat) (b : Byte) : (s.setPay k b).abt = s.abt := rfl
@[simp] theorem State.setPay_reqop (k : Nat) (b : Byte) : (s.setPay k b).reqop = s.reqop := rfl
@[simp] theorem State.setPay_odk (k : Nat) (b : Byte) : (s.setPay k b).odk = s.odk := rfl
@[simp] theorem State.setPay_res (k : Nat) (b : Byte) : (s.setPay k b).res = s.res := rfl
@[simp] theorem State.setPay_fph (k : Nat) (b : Byte) : (s.setPay k b).fph = s.fph := rfl
@[simp] theorem State.setPay_dph (k : Nat) (b : Byte) : (s.setPay k b).dph = s.dph := rfl
@[simp] theorem State.setPay_n (k : Nat) (b : Byte) : (s.setPay k b).n = s.n := rfl
@[simp] theorem State.setPay_busy (k : Nat) (b : Byte) : (s.setPay k b).busy = s.busy := rfl
@[simp] theorem State.setPay_escf (k : Nat) (b : Byte) : (s.setPay k b).escf = s.escf := rfl
@[simp] theorem State.setPay_rxany (k : Nat) (b : Byte) : (s.setPay k b).rxany = s.rxany := rfl
@[simp] theorem State.setPay_rxq (k : Nat) (b : Byte) : (s.setPay k b).rxq = s.rxq := rfl
@[simp] theorem State.setPay_txs (k : Nat) (b : Byte) : (s.setPay k b).txs = s.txs := rfl
@[simp] theorem State.setPay_cmds (k : Nat) (b : Byte) : (s.setPay k b).cmds = s.cmds := rfl
@[simp] theorem State.setPay_turns (k : Nat) (b : Byte) : (s.setPay k b).turns = s.turns := rfl
@[simp] theorem State.setPay_records (k : Nat) (b : Byte) : (s.setPay k b).records = s.records := rfl
@[simp] theorem State.setPay_writes (k : Nat) (b : Byte) : (s.setPay k b).writes = s.writes := rfl
@[simp] theorem State.setPay_draws (k : Nat) (b : Byte) : (s.setPay k b).draws = s.draws := rfl

/-! ## `setRcrc` -/

@[simp] theorem State.setRcrc_cfg (v : Half) : (s.setRcrc v).cfg = s.cfg := rfl
@[simp] theorem State.setRcrc_crc (v : Half) : (s.setRcrc v).crc = s.crc := rfl
@[simp] theorem State.setRcrc_crcSet (v : Half) : (s.setRcrc v).crcSet = s.crcSet := rfl
@[simp] theorem State.setRcrc_opc (v : Half) : (s.setRcrc v).opc = s.opc := rfl
@[simp] theorem State.setRcrc_len (v : Half) : (s.setRcrc v).len = s.len := rfl
@[simp] theorem State.setRcrc_pay (v : Half) : (s.setRcrc v).pay = s.pay := rfl
@[simp] theorem State.setRcrc_rcrc (v : Half) : (s.setRcrc v).rcrc = v := rfl
@[simp] theorem State.setRcrc_wire (v : Half) : (s.setRcrc v).wire = s.wire := rfl
@[simp] theorem State.setRcrc_wlen (v : Half) : (s.setRcrc v).wlen = s.wlen := rfl
@[simp] theorem State.setRcrc_tmr (v : Half) : (s.setRcrc v).tmr = s.tmr := rfl
@[simp] theorem State.setRcrc_idx (v : Half) : (s.setRcrc v).idx = s.idx := rfl
@[simp] theorem State.setRcrc_sub (v : Half) : (s.setRcrc v).sub = s.sub := rfl
@[simp] theorem State.setRcrc_wid (v : Half) : (s.setRcrc v).wid = s.wid := rfl
@[simp] theorem State.setRcrc_sgn (v : Half) : (s.setRcrc v).sgn = s.sgn := rfl
@[simp] theorem State.setRcrc_val (v : Half) : (s.setRcrc v).val = s.val := rfl
@[simp] theorem State.setRcrc_abt (v : Half) : (s.setRcrc v).abt = s.abt := rfl
@[simp] theorem State.setRcrc_reqop (v : Half) : (s.setRcrc v).reqop = s.reqop := rfl
@[simp] theorem State.setRcrc_odk (v : Half) : (s.setRcrc v).odk = s.odk := rfl
@[simp] theorem State.setRcrc_res (v : Half) : (s.setRcrc v).res = s.res := rfl
@[simp] theorem State.setRcrc_fph (v : Half) : (s.setRcrc v).fph = s.fph := rfl
@[simp] theorem State.setRcrc_dph (v : Half) : (s.setRcrc v).dph = s.dph := rfl
@[simp] theorem State.setRcrc_n (v : Half) : (s.setRcrc v).n = s.n := rfl
@[simp] theorem State.setRcrc_busy (v : Half) : (s.setRcrc v).busy = s.busy := rfl
@[simp] theorem State.setRcrc_escf (v : Half) : (s.setRcrc v).escf = s.escf := rfl
@[simp] theorem State.setRcrc_rxany (v : Half) : (s.setRcrc v).rxany = s.rxany := rfl
@[simp] theorem State.setRcrc_rxq (v : Half) : (s.setRcrc v).rxq = s.rxq := rfl
@[simp] theorem State.setRcrc_txs (v : Half) : (s.setRcrc v).txs = s.txs := rfl
@[simp] theorem State.setRcrc_cmds (v : Half) : (s.setRcrc v).cmds = s.cmds := rfl
@[simp] theorem State.setRcrc_turns (v : Half) : (s.setRcrc v).turns = s.turns := rfl
@[simp] theorem State.setRcrc_records (v : Half) : (s.setRcrc v).records = s.records := rfl
@[simp] theorem State.setRcrc_writes (v : Half) : (s.setRcrc v).writes = s.writes := rfl
@[simp] theorem State.setRcrc_draws (v : Half) : (s.setRcrc v).draws = s.draws := rfl

/-! ## `countByte` -/

@[simp] theorem State.countByte_cfg : s.countByte.cfg = s.cfg := rfl
@[simp] theorem State.countByte_crc : s.countByte.crc = s.crc := rfl
@[simp] theorem State.countByte_crcSet : s.countByte.crcSet = s.crcSet := rfl
@[simp] theorem State.countByte_opc : s.countByte.opc = s.opc := rfl
@[simp] theorem State.countByte_len : s.countByte.len = s.len := rfl
@[simp] theorem State.countByte_pay : s.countByte.pay = s.pay := rfl
@[simp] theorem State.countByte_rcrc : s.countByte.rcrc = s.rcrc := rfl
@[simp] theorem State.countByte_wire : s.countByte.wire = s.wire := rfl
@[simp] theorem State.countByte_wlen : s.countByte.wlen = s.wlen := rfl
@[simp] theorem State.countByte_tmr : s.countByte.tmr = s.tmr := rfl
@[simp] theorem State.countByte_idx : s.countByte.idx = s.idx := rfl
@[simp] theorem State.countByte_sub : s.countByte.sub = s.sub := rfl
@[simp] theorem State.countByte_wid : s.countByte.wid = s.wid := rfl
@[simp] theorem State.countByte_sgn : s.countByte.sgn = s.sgn := rfl
@[simp] theorem State.countByte_val : s.countByte.val = s.val := rfl
@[simp] theorem State.countByte_abt : s.countByte.abt = s.abt := rfl
@[simp] theorem State.countByte_reqop : s.countByte.reqop = s.reqop := rfl
@[simp] theorem State.countByte_odk : s.countByte.odk = s.odk := rfl
@[simp] theorem State.countByte_res : s.countByte.res = s.res := rfl
@[simp] theorem State.countByte_fph : s.countByte.fph = s.fph := rfl
@[simp] theorem State.countByte_dph : s.countByte.dph = s.dph := rfl
@[simp] theorem State.countByte_n : s.countByte.n = s.n + 1 := rfl
@[simp] theorem State.countByte_busy : s.countByte.busy = s.busy := rfl
@[simp] theorem State.countByte_escf : s.countByte.escf = s.escf := rfl
@[simp] theorem State.countByte_rxany : s.countByte.rxany = s.rxany := rfl
@[simp] theorem State.countByte_rxq : s.countByte.rxq = s.rxq := rfl
@[simp] theorem State.countByte_txs : s.countByte.txs = s.txs := rfl
@[simp] theorem State.countByte_cmds : s.countByte.cmds = s.cmds := rfl
@[simp] theorem State.countByte_turns : s.countByte.turns = s.turns := rfl
@[simp] theorem State.countByte_records : s.countByte.records = s.records := rfl
@[simp] theorem State.countByte_writes : s.countByte.writes = s.writes := rfl
@[simp] theorem State.countByte_draws : s.countByte.draws = s.draws := rfl

/-! ## `loadTimer` -/

@[simp] theorem State.loadTimer_cfg (v : Word) : (s.loadTimer v).cfg = s.cfg := rfl
@[simp] theorem State.loadTimer_crc (v : Word) : (s.loadTimer v).crc = s.crc := rfl
@[simp] theorem State.loadTimer_crcSet (v : Word) : (s.loadTimer v).crcSet = s.crcSet := rfl
@[simp] theorem State.loadTimer_opc (v : Word) : (s.loadTimer v).opc = s.opc := rfl
@[simp] theorem State.loadTimer_len (v : Word) : (s.loadTimer v).len = s.len := rfl
@[simp] theorem State.loadTimer_pay (v : Word) : (s.loadTimer v).pay = s.pay := rfl
@[simp] theorem State.loadTimer_rcrc (v : Word) : (s.loadTimer v).rcrc = s.rcrc := rfl
@[simp] theorem State.loadTimer_wire (v : Word) : (s.loadTimer v).wire = s.wire := rfl
@[simp] theorem State.loadTimer_wlen (v : Word) : (s.loadTimer v).wlen = s.wlen := rfl
@[simp] theorem State.loadTimer_tmr (v : Word) : (s.loadTimer v).tmr = v := rfl
@[simp] theorem State.loadTimer_idx (v : Word) : (s.loadTimer v).idx = s.idx := rfl
@[simp] theorem State.loadTimer_sub (v : Word) : (s.loadTimer v).sub = s.sub := rfl
@[simp] theorem State.loadTimer_wid (v : Word) : (s.loadTimer v).wid = s.wid := rfl
@[simp] theorem State.loadTimer_sgn (v : Word) : (s.loadTimer v).sgn = s.sgn := rfl
@[simp] theorem State.loadTimer_val (v : Word) : (s.loadTimer v).val = s.val := rfl
@[simp] theorem State.loadTimer_abt (v : Word) : (s.loadTimer v).abt = s.abt := rfl
@[simp] theorem State.loadTimer_reqop (v : Word) : (s.loadTimer v).reqop = s.reqop := rfl
@[simp] theorem State.loadTimer_odk (v : Word) : (s.loadTimer v).odk = s.odk := rfl
@[simp] theorem State.loadTimer_res (v : Word) : (s.loadTimer v).res = s.res := rfl
@[simp] theorem State.loadTimer_fph (v : Word) : (s.loadTimer v).fph = s.fph := rfl
@[simp] theorem State.loadTimer_dph (v : Word) : (s.loadTimer v).dph = s.dph := rfl
@[simp] theorem State.loadTimer_n (v : Word) : (s.loadTimer v).n = s.n := rfl
@[simp] theorem State.loadTimer_busy (v : Word) : (s.loadTimer v).busy = s.busy := rfl
@[simp] theorem State.loadTimer_escf (v : Word) : (s.loadTimer v).escf = s.escf := rfl
@[simp] theorem State.loadTimer_rxany (v : Word) : (s.loadTimer v).rxany = s.rxany := rfl
@[simp] theorem State.loadTimer_rxq (v : Word) : (s.loadTimer v).rxq = s.rxq := rfl
@[simp] theorem State.loadTimer_txs (v : Word) : (s.loadTimer v).txs = s.txs := rfl
@[simp] theorem State.loadTimer_cmds (v : Word) : (s.loadTimer v).cmds = s.cmds := rfl
@[simp] theorem State.loadTimer_turns (v : Word) : (s.loadTimer v).turns = s.turns := rfl
@[simp] theorem State.loadTimer_records (v : Word) : (s.loadTimer v).records = s.records := rfl
@[simp] theorem State.loadTimer_writes (v : Word) : (s.loadTimer v).writes = s.writes := rfl
@[simp] theorem State.loadTimer_draws (v : Word) : (s.loadTimer v).draws = s.draws := rfl

/-! ## `txWrite` -/

@[simp] theorem State.txWrite_cfg (w : List Byte) : (s.txWrite w).cfg = s.cfg := rfl
@[simp] theorem State.txWrite_crc (w : List Byte) : (s.txWrite w).crc = s.crc := rfl
@[simp] theorem State.txWrite_crcSet (w : List Byte) : (s.txWrite w).crcSet = s.crcSet := rfl
@[simp] theorem State.txWrite_opc (w : List Byte) : (s.txWrite w).opc = s.opc := rfl
@[simp] theorem State.txWrite_len (w : List Byte) : (s.txWrite w).len = s.len := rfl
@[simp] theorem State.txWrite_pay (w : List Byte) : (s.txWrite w).pay = s.pay := rfl
@[simp] theorem State.txWrite_rcrc (w : List Byte) : (s.txWrite w).rcrc = s.rcrc := rfl
@[simp] theorem State.txWrite_wire (w : List Byte) : (s.txWrite w).wire = s.wire := rfl
@[simp] theorem State.txWrite_wlen (w : List Byte) : (s.txWrite w).wlen = s.wlen := rfl
@[simp] theorem State.txWrite_tmr (w : List Byte) : (s.txWrite w).tmr = s.tmr := rfl
@[simp] theorem State.txWrite_idx (w : List Byte) : (s.txWrite w).idx = s.idx := rfl
@[simp] theorem State.txWrite_sub (w : List Byte) : (s.txWrite w).sub = s.sub := rfl
@[simp] theorem State.txWrite_wid (w : List Byte) : (s.txWrite w).wid = s.wid := rfl
@[simp] theorem State.txWrite_sgn (w : List Byte) : (s.txWrite w).sgn = s.sgn := rfl
@[simp] theorem State.txWrite_val (w : List Byte) : (s.txWrite w).val = s.val := rfl
@[simp] theorem State.txWrite_abt (w : List Byte) : (s.txWrite w).abt = s.abt := rfl
@[simp] theorem State.txWrite_reqop (w : List Byte) : (s.txWrite w).reqop = s.reqop := rfl
@[simp] theorem State.txWrite_odk (w : List Byte) : (s.txWrite w).odk = s.odk := rfl
@[simp] theorem State.txWrite_res (w : List Byte) : (s.txWrite w).res = s.res := rfl
@[simp] theorem State.txWrite_fph (w : List Byte) : (s.txWrite w).fph = s.fph := rfl
@[simp] theorem State.txWrite_dph (w : List Byte) : (s.txWrite w).dph = s.dph := rfl
@[simp] theorem State.txWrite_n (w : List Byte) : (s.txWrite w).n = s.n := rfl
@[simp] theorem State.txWrite_busy (w : List Byte) : (s.txWrite w).busy = s.busy := rfl
@[simp] theorem State.txWrite_escf (w : List Byte) : (s.txWrite w).escf = s.escf := rfl
@[simp] theorem State.txWrite_rxany (w : List Byte) : (s.txWrite w).rxany = s.rxany := rfl
@[simp] theorem State.txWrite_rxq (w : List Byte) : (s.txWrite w).rxq = s.rxq := rfl
@[simp] theorem State.txWrite_txs (w : List Byte) : (s.txWrite w).txs = s.txs := rfl
@[simp] theorem State.txWrite_cmds (w : List Byte) : (s.txWrite w).cmds = s.cmds := rfl
@[simp] theorem State.txWrite_turns (w : List Byte) : (s.txWrite w).turns = s.turns := rfl
@[simp] theorem State.txWrite_records (w : List Byte) : (s.txWrite w).records = s.records := rfl
@[simp] theorem State.txWrite_writes (w : List Byte) : (s.txWrite w).writes = s.writes ++ [w] := rfl
@[simp] theorem State.txWrite_draws (w : List Byte) : (s.txWrite w).draws = s.draws := rfl

/-! ## `transmit` -/

@[simp] theorem State.transmit_cfg (w : List Byte) : (s.transmit w).cfg = s.cfg := rfl
@[simp] theorem State.transmit_crc (w : List Byte) : (s.transmit w).crc = s.crc := rfl
@[simp] theorem State.transmit_crcSet (w : List Byte) : (s.transmit w).crcSet = s.crcSet := rfl
@[simp] theorem State.transmit_opc (w : List Byte) : (s.transmit w).opc = s.opc := rfl
@[simp] theorem State.transmit_len (w : List Byte) : (s.transmit w).len = s.len := rfl
@[simp] theorem State.transmit_pay (w : List Byte) : (s.transmit w).pay = s.pay := rfl
@[simp] theorem State.transmit_rcrc (w : List Byte) : (s.transmit w).rcrc = s.rcrc := rfl
@[simp] theorem State.transmit_wire (w : List Byte) : (s.transmit w).wire = s.wire := rfl
@[simp] theorem State.transmit_wlen (w : List Byte) : (s.transmit w).wlen = s.wlen := rfl
@[simp] theorem State.transmit_tmr (w : List Byte) : (s.transmit w).tmr = s.tmr := rfl
@[simp] theorem State.transmit_idx (w : List Byte) : (s.transmit w).idx = s.idx := rfl
@[simp] theorem State.transmit_sub (w : List Byte) : (s.transmit w).sub = s.sub := rfl
@[simp] theorem State.transmit_wid (w : List Byte) : (s.transmit w).wid = s.wid := rfl
@[simp] theorem State.transmit_sgn (w : List Byte) : (s.transmit w).sgn = s.sgn := rfl
@[simp] theorem State.transmit_val (w : List Byte) : (s.transmit w).val = s.val := rfl
@[simp] theorem State.transmit_abt (w : List Byte) : (s.transmit w).abt = s.abt := rfl
@[simp] theorem State.transmit_reqop (w : List Byte) : (s.transmit w).reqop = s.reqop := rfl
@[simp] theorem State.transmit_odk (w : List Byte) : (s.transmit w).odk = s.odk := rfl
@[simp] theorem State.transmit_res (w : List Byte) : (s.transmit w).res = s.res := rfl
@[simp] theorem State.transmit_fph (w : List Byte) : (s.transmit w).fph = s.fph := rfl
@[simp] theorem State.transmit_dph (w : List Byte) : (s.transmit w).dph = s.dph := rfl
@[simp] theorem State.transmit_n (w : List Byte) : (s.transmit w).n = s.n := rfl
@[simp] theorem State.transmit_busy (w : List Byte) : (s.transmit w).busy = s.busy := rfl
@[simp] theorem State.transmit_escf (w : List Byte) : (s.transmit w).escf = s.escf := rfl
@[simp] theorem State.transmit_rxany (w : List Byte) : (s.transmit w).rxany = s.rxany := rfl
@[simp] theorem State.transmit_rxq (w : List Byte) : (s.transmit w).rxq = s.rxq := rfl
@[simp] theorem State.transmit_txs (w : List Byte) : (s.transmit w).txs = s.txs ++ w := rfl
@[simp] theorem State.transmit_cmds (w : List Byte) : (s.transmit w).cmds = s.cmds := rfl
@[simp] theorem State.transmit_turns (w : List Byte) : (s.transmit w).turns = s.turns := rfl
@[simp] theorem State.transmit_records (w : List Byte) : (s.transmit w).records = s.records := rfl
@[simp] theorem State.transmit_writes (w : List Byte) : (s.transmit w).writes = s.writes := rfl
@[simp] theorem State.transmit_draws (w : List Byte) : (s.transmit w).draws = s.draws := rfl

/-! ## `enterWait` -/

@[simp] theorem State.enterWait_cfg : s.enterWait.cfg = s.cfg := rfl
@[simp] theorem State.enterWait_crc : s.enterWait.crc = s.crc := rfl
@[simp] theorem State.enterWait_crcSet : s.enterWait.crcSet = s.crcSet := rfl
@[simp] theorem State.enterWait_opc : s.enterWait.opc = s.opc := rfl
@[simp] theorem State.enterWait_len : s.enterWait.len = s.len := rfl
@[simp] theorem State.enterWait_pay : s.enterWait.pay = s.pay := rfl
@[simp] theorem State.enterWait_rcrc : s.enterWait.rcrc = s.rcrc := rfl
@[simp] theorem State.enterWait_wire : s.enterWait.wire = s.wire := rfl
@[simp] theorem State.enterWait_wlen : s.enterWait.wlen = s.wlen := rfl
@[simp] theorem State.enterWait_tmr : s.enterWait.tmr = s.tmr := rfl
@[simp] theorem State.enterWait_idx : s.enterWait.idx = s.idx := rfl
@[simp] theorem State.enterWait_sub : s.enterWait.sub = s.sub := rfl
@[simp] theorem State.enterWait_wid : s.enterWait.wid = s.wid := rfl
@[simp] theorem State.enterWait_sgn : s.enterWait.sgn = s.sgn := rfl
@[simp] theorem State.enterWait_val : s.enterWait.val = s.val := rfl
@[simp] theorem State.enterWait_abt : s.enterWait.abt = s.abt := rfl
@[simp] theorem State.enterWait_reqop : s.enterWait.reqop = s.reqop := rfl
@[simp] theorem State.enterWait_odk : s.enterWait.odk = s.odk := rfl
@[simp] theorem State.enterWait_res : s.enterWait.res = s.res := rfl
@[simp] theorem State.enterWait_fph : s.enterWait.fph = .wait := rfl
@[simp] theorem State.enterWait_dph : s.enterWait.dph = s.dph := rfl
@[simp] theorem State.enterWait_n : s.enterWait.n = s.n := rfl
@[simp] theorem State.enterWait_busy : s.enterWait.busy = s.busy := rfl
@[simp] theorem State.enterWait_escf : s.enterWait.escf = s.escf := rfl
@[simp] theorem State.enterWait_rxany : s.enterWait.rxany = s.rxany := rfl
@[simp] theorem State.enterWait_rxq : s.enterWait.rxq = s.rxq := rfl
@[simp] theorem State.enterWait_txs : s.enterWait.txs = s.txs := rfl
@[simp] theorem State.enterWait_cmds : s.enterWait.cmds = s.cmds := rfl
@[simp] theorem State.enterWait_turns : s.enterWait.turns = s.turns := rfl
@[simp] theorem State.enterWait_records : s.enterWait.records = s.records := rfl
@[simp] theorem State.enterWait_writes : s.enterWait.writes = s.writes := rfl
@[simp] theorem State.enterWait_draws : s.enterWait.draws = s.draws := rfl

/-! ## `setAbt` -/

@[simp] theorem State.setAbt_cfg (v : Word) : (s.setAbt v).cfg = s.cfg := rfl
@[simp] theorem State.setAbt_crc (v : Word) : (s.setAbt v).crc = s.crc := rfl
@[simp] theorem State.setAbt_crcSet (v : Word) : (s.setAbt v).crcSet = s.crcSet := rfl
@[simp] theorem State.setAbt_opc (v : Word) : (s.setAbt v).opc = s.opc := rfl
@[simp] theorem State.setAbt_len (v : Word) : (s.setAbt v).len = s.len := rfl
@[simp] theorem State.setAbt_pay (v : Word) : (s.setAbt v).pay = s.pay := rfl
@[simp] theorem State.setAbt_rcrc (v : Word) : (s.setAbt v).rcrc = s.rcrc := rfl
@[simp] theorem State.setAbt_wire (v : Word) : (s.setAbt v).wire = s.wire := rfl
@[simp] theorem State.setAbt_wlen (v : Word) : (s.setAbt v).wlen = s.wlen := rfl
@[simp] theorem State.setAbt_tmr (v : Word) : (s.setAbt v).tmr = s.tmr := rfl
@[simp] theorem State.setAbt_idx (v : Word) : (s.setAbt v).idx = s.idx := rfl
@[simp] theorem State.setAbt_sub (v : Word) : (s.setAbt v).sub = s.sub := rfl
@[simp] theorem State.setAbt_wid (v : Word) : (s.setAbt v).wid = s.wid := rfl
@[simp] theorem State.setAbt_sgn (v : Word) : (s.setAbt v).sgn = s.sgn := rfl
@[simp] theorem State.setAbt_val (v : Word) : (s.setAbt v).val = s.val := rfl
@[simp] theorem State.setAbt_abt (v : Word) : (s.setAbt v).abt = v := rfl
@[simp] theorem State.setAbt_reqop (v : Word) : (s.setAbt v).reqop = s.reqop := rfl
@[simp] theorem State.setAbt_odk (v : Word) : (s.setAbt v).odk = s.odk := rfl
@[simp] theorem State.setAbt_res (v : Word) : (s.setAbt v).res = s.res := rfl
@[simp] theorem State.setAbt_fph (v : Word) : (s.setAbt v).fph = s.fph := rfl
@[simp] theorem State.setAbt_dph (v : Word) : (s.setAbt v).dph = s.dph := rfl
@[simp] theorem State.setAbt_n (v : Word) : (s.setAbt v).n = s.n := rfl
@[simp] theorem State.setAbt_busy (v : Word) : (s.setAbt v).busy = s.busy := rfl
@[simp] theorem State.setAbt_escf (v : Word) : (s.setAbt v).escf = s.escf := rfl
@[simp] theorem State.setAbt_rxany (v : Word) : (s.setAbt v).rxany = s.rxany := rfl
@[simp] theorem State.setAbt_rxq (v : Word) : (s.setAbt v).rxq = s.rxq := rfl
@[simp] theorem State.setAbt_txs (v : Word) : (s.setAbt v).txs = s.txs := rfl
@[simp] theorem State.setAbt_cmds (v : Word) : (s.setAbt v).cmds = s.cmds := rfl
@[simp] theorem State.setAbt_turns (v : Word) : (s.setAbt v).turns = s.turns := rfl
@[simp] theorem State.setAbt_records (v : Word) : (s.setAbt v).records = s.records := rfl
@[simp] theorem State.setAbt_writes (v : Word) : (s.setAbt v).writes = s.writes := rfl
@[simp] theorem State.setAbt_draws (v : Word) : (s.setAbt v).draws = s.draws := rfl

/-! ## `setVal` -/

@[simp] theorem State.setVal_cfg (v : Word) : (s.setVal v).cfg = s.cfg := rfl
@[simp] theorem State.setVal_crc (v : Word) : (s.setVal v).crc = s.crc := rfl
@[simp] theorem State.setVal_crcSet (v : Word) : (s.setVal v).crcSet = s.crcSet := rfl
@[simp] theorem State.setVal_opc (v : Word) : (s.setVal v).opc = s.opc := rfl
@[simp] theorem State.setVal_len (v : Word) : (s.setVal v).len = s.len := rfl
@[simp] theorem State.setVal_pay (v : Word) : (s.setVal v).pay = s.pay := rfl
@[simp] theorem State.setVal_rcrc (v : Word) : (s.setVal v).rcrc = s.rcrc := rfl
@[simp] theorem State.setVal_wire (v : Word) : (s.setVal v).wire = s.wire := rfl
@[simp] theorem State.setVal_wlen (v : Word) : (s.setVal v).wlen = s.wlen := rfl
@[simp] theorem State.setVal_tmr (v : Word) : (s.setVal v).tmr = s.tmr := rfl
@[simp] theorem State.setVal_idx (v : Word) : (s.setVal v).idx = s.idx := rfl
@[simp] theorem State.setVal_sub (v : Word) : (s.setVal v).sub = s.sub := rfl
@[simp] theorem State.setVal_wid (v : Word) : (s.setVal v).wid = s.wid := rfl
@[simp] theorem State.setVal_sgn (v : Word) : (s.setVal v).sgn = s.sgn := rfl
@[simp] theorem State.setVal_val (v : Word) : (s.setVal v).val = v := rfl
@[simp] theorem State.setVal_abt (v : Word) : (s.setVal v).abt = s.abt := rfl
@[simp] theorem State.setVal_reqop (v : Word) : (s.setVal v).reqop = s.reqop := rfl
@[simp] theorem State.setVal_odk (v : Word) : (s.setVal v).odk = s.odk := rfl
@[simp] theorem State.setVal_res (v : Word) : (s.setVal v).res = s.res := rfl
@[simp] theorem State.setVal_fph (v : Word) : (s.setVal v).fph = s.fph := rfl
@[simp] theorem State.setVal_dph (v : Word) : (s.setVal v).dph = s.dph := rfl
@[simp] theorem State.setVal_n (v : Word) : (s.setVal v).n = s.n := rfl
@[simp] theorem State.setVal_busy (v : Word) : (s.setVal v).busy = s.busy := rfl
@[simp] theorem State.setVal_escf (v : Word) : (s.setVal v).escf = s.escf := rfl
@[simp] theorem State.setVal_rxany (v : Word) : (s.setVal v).rxany = s.rxany := rfl
@[simp] theorem State.setVal_rxq (v : Word) : (s.setVal v).rxq = s.rxq := rfl
@[simp] theorem State.setVal_txs (v : Word) : (s.setVal v).txs = s.txs := rfl
@[simp] theorem State.setVal_cmds (v : Word) : (s.setVal v).cmds = s.cmds := rfl
@[simp] theorem State.setVal_turns (v : Word) : (s.setVal v).turns = s.turns := rfl
@[simp] theorem State.setVal_records (v : Word) : (s.setVal v).records = s.records := rfl
@[simp] theorem State.setVal_writes (v : Word) : (s.setVal v).writes = s.writes := rfl
@[simp] theorem State.setVal_draws (v : Word) : (s.setVal v).draws = s.draws := rfl

/-! ## `setRxq` -/

@[simp] theorem State.setRxq_cfg (q : List Byte) : (s.setRxq q).cfg = s.cfg := rfl
@[simp] theorem State.setRxq_crc (q : List Byte) : (s.setRxq q).crc = s.crc := rfl
@[simp] theorem State.setRxq_crcSet (q : List Byte) : (s.setRxq q).crcSet = s.crcSet := rfl
@[simp] theorem State.setRxq_opc (q : List Byte) : (s.setRxq q).opc = s.opc := rfl
@[simp] theorem State.setRxq_len (q : List Byte) : (s.setRxq q).len = s.len := rfl
@[simp] theorem State.setRxq_pay (q : List Byte) : (s.setRxq q).pay = s.pay := rfl
@[simp] theorem State.setRxq_rcrc (q : List Byte) : (s.setRxq q).rcrc = s.rcrc := rfl
@[simp] theorem State.setRxq_wire (q : List Byte) : (s.setRxq q).wire = s.wire := rfl
@[simp] theorem State.setRxq_wlen (q : List Byte) : (s.setRxq q).wlen = s.wlen := rfl
@[simp] theorem State.setRxq_tmr (q : List Byte) : (s.setRxq q).tmr = s.tmr := rfl
@[simp] theorem State.setRxq_idx (q : List Byte) : (s.setRxq q).idx = s.idx := rfl
@[simp] theorem State.setRxq_sub (q : List Byte) : (s.setRxq q).sub = s.sub := rfl
@[simp] theorem State.setRxq_wid (q : List Byte) : (s.setRxq q).wid = s.wid := rfl
@[simp] theorem State.setRxq_sgn (q : List Byte) : (s.setRxq q).sgn = s.sgn := rfl
@[simp] theorem State.setRxq_val (q : List Byte) : (s.setRxq q).val = s.val := rfl
@[simp] theorem State.setRxq_abt (q : List Byte) : (s.setRxq q).abt = s.abt := rfl
@[simp] theorem State.setRxq_reqop (q : List Byte) : (s.setRxq q).reqop = s.reqop := rfl
@[simp] theorem State.setRxq_odk (q : List Byte) : (s.setRxq q).odk = s.odk := rfl
@[simp] theorem State.setRxq_res (q : List Byte) : (s.setRxq q).res = s.res := rfl
@[simp] theorem State.setRxq_fph (q : List Byte) : (s.setRxq q).fph = s.fph := rfl
@[simp] theorem State.setRxq_dph (q : List Byte) : (s.setRxq q).dph = s.dph := rfl
@[simp] theorem State.setRxq_n (q : List Byte) : (s.setRxq q).n = s.n := rfl
@[simp] theorem State.setRxq_busy (q : List Byte) : (s.setRxq q).busy = s.busy := rfl
@[simp] theorem State.setRxq_escf (q : List Byte) : (s.setRxq q).escf = s.escf := rfl
@[simp] theorem State.setRxq_rxany (q : List Byte) : (s.setRxq q).rxany = s.rxany := rfl
@[simp] theorem State.setRxq_rxq (q : List Byte) : (s.setRxq q).rxq = q := rfl
@[simp] theorem State.setRxq_txs (q : List Byte) : (s.setRxq q).txs = s.txs := rfl
@[simp] theorem State.setRxq_cmds (q : List Byte) : (s.setRxq q).cmds = s.cmds := rfl
@[simp] theorem State.setRxq_turns (q : List Byte) : (s.setRxq q).turns = s.turns := rfl
@[simp] theorem State.setRxq_records (q : List Byte) : (s.setRxq q).records = s.records := rfl
@[simp] theorem State.setRxq_writes (q : List Byte) : (s.setRxq q).writes = s.writes := rfl
@[simp] theorem State.setRxq_draws (q : List Byte) : (s.setRxq q).draws = s.draws := rfl

/-! ## `rxArrive` -/

@[simp] theorem State.rxArrive_cfg (bs : List Byte) : (s.rxArrive bs).cfg = s.cfg := rfl
@[simp] theorem State.rxArrive_crc (bs : List Byte) : (s.rxArrive bs).crc = s.crc := rfl
@[simp] theorem State.rxArrive_crcSet (bs : List Byte) : (s.rxArrive bs).crcSet = s.crcSet := rfl
@[simp] theorem State.rxArrive_opc (bs : List Byte) : (s.rxArrive bs).opc = s.opc := rfl
@[simp] theorem State.rxArrive_len (bs : List Byte) : (s.rxArrive bs).len = s.len := rfl
@[simp] theorem State.rxArrive_pay (bs : List Byte) : (s.rxArrive bs).pay = s.pay := rfl
@[simp] theorem State.rxArrive_rcrc (bs : List Byte) : (s.rxArrive bs).rcrc = s.rcrc := rfl
@[simp] theorem State.rxArrive_wire (bs : List Byte) : (s.rxArrive bs).wire = s.wire := rfl
@[simp] theorem State.rxArrive_wlen (bs : List Byte) : (s.rxArrive bs).wlen = s.wlen := rfl
@[simp] theorem State.rxArrive_tmr (bs : List Byte) : (s.rxArrive bs).tmr = s.tmr := rfl
@[simp] theorem State.rxArrive_idx (bs : List Byte) : (s.rxArrive bs).idx = s.idx := rfl
@[simp] theorem State.rxArrive_sub (bs : List Byte) : (s.rxArrive bs).sub = s.sub := rfl
@[simp] theorem State.rxArrive_wid (bs : List Byte) : (s.rxArrive bs).wid = s.wid := rfl
@[simp] theorem State.rxArrive_sgn (bs : List Byte) : (s.rxArrive bs).sgn = s.sgn := rfl
@[simp] theorem State.rxArrive_val (bs : List Byte) : (s.rxArrive bs).val = s.val := rfl
@[simp] theorem State.rxArrive_abt (bs : List Byte) : (s.rxArrive bs).abt = s.abt := rfl
@[simp] theorem State.rxArrive_reqop (bs : List Byte) : (s.rxArrive bs).reqop = s.reqop := rfl
@[simp] theorem State.rxArrive_odk (bs : List Byte) : (s.rxArrive bs).odk = s.odk := rfl
@[simp] theorem State.rxArrive_res (bs : List Byte) : (s.rxArrive bs).res = s.res := rfl
@[simp] theorem State.rxArrive_fph (bs : List Byte) : (s.rxArrive bs).fph = s.fph := rfl
@[simp] theorem State.rxArrive_dph (bs : List Byte) : (s.rxArrive bs).dph = s.dph := rfl
@[simp] theorem State.rxArrive_n (bs : List Byte) : (s.rxArrive bs).n = s.n := rfl
@[simp] theorem State.rxArrive_busy (bs : List Byte) : (s.rxArrive bs).busy = s.busy := rfl
@[simp] theorem State.rxArrive_escf (bs : List Byte) : (s.rxArrive bs).escf = s.escf := rfl
@[simp] theorem State.rxArrive_rxany (bs : List Byte) : (s.rxArrive bs).rxany = s.rxany := rfl
@[simp] theorem State.rxArrive_rxq (bs : List Byte) : (s.rxArrive bs).rxq = s.rxq ++ bs := rfl
@[simp] theorem State.rxArrive_txs (bs : List Byte) : (s.rxArrive bs).txs = s.txs := rfl
@[simp] theorem State.rxArrive_cmds (bs : List Byte) : (s.rxArrive bs).cmds = s.cmds := rfl
@[simp] theorem State.rxArrive_turns (bs : List Byte) : (s.rxArrive bs).turns = s.turns := rfl
@[simp] theorem State.rxArrive_records (bs : List Byte) : (s.rxArrive bs).records = s.records := rfl
@[simp] theorem State.rxArrive_writes (bs : List Byte) : (s.rxArrive bs).writes = s.writes := rfl
@[simp] theorem State.rxArrive_draws (bs : List Byte) : (s.rxArrive bs).draws = s.draws := rfl

/-! ## `noteCrcRead` and `stepCrc` -/

/-- Once CRC holds a value, reading it draws nothing. -/
@[simp] theorem State.noteCrcRead_of_set (h : s.crcSet = true) : s.noteCrcRead = s := by
  simp [State.noteCrcRead, h]

/-- Once CRC holds a value, a read yields it. -/
@[simp] theorem State.crcValue_of_set (h : s.crcSet = true) : s.crcValue = s.crc := by
  simp [State.crcValue, h]

@[simp] theorem State.noteCrcRead_cfg : s.noteCrcRead.cfg = s.cfg := by
  unfold State.noteCrcRead; split <;> rfl
@[simp] theorem State.noteCrcRead_crc : s.noteCrcRead.crc = s.crc := by
  unfold State.noteCrcRead; split <;> rfl
@[simp] theorem State.noteCrcRead_crcSet : s.noteCrcRead.crcSet = s.crcSet := by
  unfold State.noteCrcRead; split <;> rfl
@[simp] theorem State.noteCrcRead_opc : s.noteCrcRead.opc = s.opc := by
  unfold State.noteCrcRead; split <;> rfl
@[simp] theorem State.noteCrcRead_len : s.noteCrcRead.len = s.len := by
  unfold State.noteCrcRead; split <;> rfl
@[simp] theorem State.noteCrcRead_pay : s.noteCrcRead.pay = s.pay := by
  unfold State.noteCrcRead; split <;> rfl
@[simp] theorem State.noteCrcRead_rcrc : s.noteCrcRead.rcrc = s.rcrc := by
  unfold State.noteCrcRead; split <;> rfl
@[simp] theorem State.noteCrcRead_wire : s.noteCrcRead.wire = s.wire := by
  unfold State.noteCrcRead; split <;> rfl
@[simp] theorem State.noteCrcRead_wlen : s.noteCrcRead.wlen = s.wlen := by
  unfold State.noteCrcRead; split <;> rfl
@[simp] theorem State.noteCrcRead_tmr : s.noteCrcRead.tmr = s.tmr := by
  unfold State.noteCrcRead; split <;> rfl
@[simp] theorem State.noteCrcRead_idx : s.noteCrcRead.idx = s.idx := by
  unfold State.noteCrcRead; split <;> rfl
@[simp] theorem State.noteCrcRead_sub : s.noteCrcRead.sub = s.sub := by
  unfold State.noteCrcRead; split <;> rfl
@[simp] theorem State.noteCrcRead_wid : s.noteCrcRead.wid = s.wid := by
  unfold State.noteCrcRead; split <;> rfl
@[simp] theorem State.noteCrcRead_sgn : s.noteCrcRead.sgn = s.sgn := by
  unfold State.noteCrcRead; split <;> rfl
@[simp] theorem State.noteCrcRead_val : s.noteCrcRead.val = s.val := by
  unfold State.noteCrcRead; split <;> rfl
@[simp] theorem State.noteCrcRead_abt : s.noteCrcRead.abt = s.abt := by
  unfold State.noteCrcRead; split <;> rfl
@[simp] theorem State.noteCrcRead_reqop : s.noteCrcRead.reqop = s.reqop := by
  unfold State.noteCrcRead; split <;> rfl
@[simp] theorem State.noteCrcRead_odk : s.noteCrcRead.odk = s.odk := by
  unfold State.noteCrcRead; split <;> rfl
@[simp] theorem State.noteCrcRead_res : s.noteCrcRead.res = s.res := by
  unfold State.noteCrcRead; split <;> rfl
@[simp] theorem State.noteCrcRead_fph : s.noteCrcRead.fph = s.fph := by
  unfold State.noteCrcRead; split <;> rfl
@[simp] theorem State.noteCrcRead_dph : s.noteCrcRead.dph = s.dph := by
  unfold State.noteCrcRead; split <;> rfl
@[simp] theorem State.noteCrcRead_n : s.noteCrcRead.n = s.n := by
  unfold State.noteCrcRead; split <;> rfl
@[simp] theorem State.noteCrcRead_busy : s.noteCrcRead.busy = s.busy := by
  unfold State.noteCrcRead; split <;> rfl
@[simp] theorem State.noteCrcRead_escf : s.noteCrcRead.escf = s.escf := by
  unfold State.noteCrcRead; split <;> rfl
@[simp] theorem State.noteCrcRead_rxany : s.noteCrcRead.rxany = s.rxany := by
  unfold State.noteCrcRead; split <;> rfl
@[simp] theorem State.noteCrcRead_rxq : s.noteCrcRead.rxq = s.rxq := by
  unfold State.noteCrcRead; split <;> rfl
@[simp] theorem State.noteCrcRead_txs : s.noteCrcRead.txs = s.txs := by
  unfold State.noteCrcRead; split <;> rfl
@[simp] theorem State.noteCrcRead_cmds : s.noteCrcRead.cmds = s.cmds := by
  unfold State.noteCrcRead; split <;> rfl
@[simp] theorem State.noteCrcRead_turns : s.noteCrcRead.turns = s.turns := by
  unfold State.noteCrcRead; split <;> rfl
@[simp] theorem State.noteCrcRead_records : s.noteCrcRead.records = s.records := by
  unfold State.noteCrcRead; split <;> rfl
@[simp] theorem State.noteCrcRead_writes : s.noteCrcRead.writes = s.writes := by
  unfold State.noteCrcRead; split <;> rfl

@[simp] theorem State.stepCrc_cfg (b : Byte) : (s.stepCrc b).cfg = s.cfg := by
  simp [State.stepCrc]
@[simp] theorem State.stepCrc_crc (b : Byte) : (s.stepCrc b).crc = crcByte s.cfg s.crcValue b := by
  simp [State.stepCrc]
@[simp] theorem State.stepCrc_crcSet (b : Byte) : (s.stepCrc b).crcSet = true := by
  simp [State.stepCrc]
@[simp] theorem State.stepCrc_opc (b : Byte) : (s.stepCrc b).opc = s.opc := by
  simp [State.stepCrc]
@[simp] theorem State.stepCrc_len (b : Byte) : (s.stepCrc b).len = s.len := by
  simp [State.stepCrc]
@[simp] theorem State.stepCrc_pay (b : Byte) : (s.stepCrc b).pay = s.pay := by
  simp [State.stepCrc]
@[simp] theorem State.stepCrc_rcrc (b : Byte) : (s.stepCrc b).rcrc = s.rcrc := by
  simp [State.stepCrc]
@[simp] theorem State.stepCrc_wire (b : Byte) : (s.stepCrc b).wire = s.wire := by
  simp [State.stepCrc]
@[simp] theorem State.stepCrc_wlen (b : Byte) : (s.stepCrc b).wlen = s.wlen := by
  simp [State.stepCrc]
@[simp] theorem State.stepCrc_tmr (b : Byte) : (s.stepCrc b).tmr = s.tmr := by
  simp [State.stepCrc]
@[simp] theorem State.stepCrc_idx (b : Byte) : (s.stepCrc b).idx = s.idx := by
  simp [State.stepCrc]
@[simp] theorem State.stepCrc_sub (b : Byte) : (s.stepCrc b).sub = s.sub := by
  simp [State.stepCrc]
@[simp] theorem State.stepCrc_wid (b : Byte) : (s.stepCrc b).wid = s.wid := by
  simp [State.stepCrc]
@[simp] theorem State.stepCrc_sgn (b : Byte) : (s.stepCrc b).sgn = s.sgn := by
  simp [State.stepCrc]
@[simp] theorem State.stepCrc_val (b : Byte) : (s.stepCrc b).val = s.val := by
  simp [State.stepCrc]
@[simp] theorem State.stepCrc_abt (b : Byte) : (s.stepCrc b).abt = s.abt := by
  simp [State.stepCrc]
@[simp] theorem State.stepCrc_reqop (b : Byte) : (s.stepCrc b).reqop = s.reqop := by
  simp [State.stepCrc]
@[simp] theorem State.stepCrc_odk (b : Byte) : (s.stepCrc b).odk = s.odk := by
  simp [State.stepCrc]
@[simp] theorem State.stepCrc_res (b : Byte) : (s.stepCrc b).res = s.res := by
  simp [State.stepCrc]
@[simp] theorem State.stepCrc_fph (b : Byte) : (s.stepCrc b).fph = s.fph := by
  simp [State.stepCrc]
@[simp] theorem State.stepCrc_dph (b : Byte) : (s.stepCrc b).dph = s.dph := by
  simp [State.stepCrc]
@[simp] theorem State.stepCrc_n (b : Byte) : (s.stepCrc b).n = s.n := by
  simp [State.stepCrc]
@[simp] theorem State.stepCrc_busy (b : Byte) : (s.stepCrc b).busy = s.busy := by
  simp [State.stepCrc]
@[simp] theorem State.stepCrc_escf (b : Byte) : (s.stepCrc b).escf = s.escf := by
  simp [State.stepCrc]
@[simp] theorem State.stepCrc_rxany (b : Byte) : (s.stepCrc b).rxany = s.rxany := by
  simp [State.stepCrc]
@[simp] theorem State.stepCrc_rxq (b : Byte) : (s.stepCrc b).rxq = s.rxq := by
  simp [State.stepCrc]
@[simp] theorem State.stepCrc_txs (b : Byte) : (s.stepCrc b).txs = s.txs := by
  simp [State.stepCrc]
@[simp] theorem State.stepCrc_cmds (b : Byte) : (s.stepCrc b).cmds = s.cmds := by
  simp [State.stepCrc]
@[simp] theorem State.stepCrc_turns (b : Byte) : (s.stepCrc b).turns = s.turns := by
  simp [State.stepCrc]
@[simp] theorem State.stepCrc_records (b : Byte) : (s.stepCrc b).records = s.records := by
  simp [State.stepCrc]
@[simp] theorem State.stepCrc_writes (b : Byte) : (s.stepCrc b).writes = s.writes := by
  simp [State.stepCrc]

/-- Once CRC holds a value, `stepCrc` changes CRC alone. -/
theorem State.stepCrc_of_set (h : s.crcSet = true) (b : Byte) :
    s.stepCrc b = s.setCrc (crcByte s.cfg s.crc b) := by
  simp [State.stepCrc, h]

/-- Writing CRC back its own value changes nothing once it holds one. -/
theorem State.setCrc_self (h : s.crcSet = true) : s.setCrc s.crc = s := by
  cases s; simp only [State.setCrc] at h ⊢; rw [h]

end Sys2Proof.Machine
end

