-- ==== Sys2Proof/Laws/Encoder.lean ====
section
/-! SUPPORT. What the encoder's machine (41_frame_encode.md R176) does: `buildFrame` as one equation. -/

namespace Sys2Proof.Machine

/-! ## Stuffing and CRC over concatenations -/

/-- Stuffing works byte by byte. -/
@[simp] theorem stuff_append (c : Cfg) (x y : List Byte) : stuff c (x ++ y) = stuff c x ++ stuff c y := by
  induction x with
  | nil => rfl
  | cons b x ih => simp only [List.cons_append, stuff, ih]; split <;> simp

/-- A stuffed sequence is at most twice as long (R171). -/
theorem stuff_length_le (c : Cfg) (x : List Byte) : (stuff c x).length ≤ 2 * x.length := by
  induction x with
  | nil => simp [stuff]
  | cons b x ih => simp only [stuff]; split <;> simp <;> omega

@[simp] theorem crcFrom_nil (c : Cfg) (r : Half) : crcFrom c r [] = r := rfl

@[simp] theorem crcFrom_cons (c : Cfg) (r : Half) (b : Byte) (s : List Byte) :
    crcFrom c r (b :: s) = crcFrom c (crcByte c r b) s := rfl

@[simp] theorem crcField_length (c : Cfg) (crc : Half) : (crcField c crc).length = 2 := by
  unfold crcField; split <;> rfl

/-- No wire frame is longer than 520 bytes (00_scope.md R7). -/
theorem wireFrame_length_le (c : Cfg) (op : Byte) (pay : List Byte) (crc : Half) (h : pay.length ≤ 255) :
    (wireFrame c op pay crc).length ≤ 520 := by
  have h1 := stuff_length_le c (frameContent c op pay crc)
  have h2 : (endPart c).length ≤ 1 := by unfold endPart; split <;> simp
  simp only [frameContent, frameBody, List.length_append, List.length_cons, crcField_length] at h1
  simp only [wireFrame, frameContent, frameBody, List.length_cons, List.length_append] at h1 ⊢
  omega

/-! ## Putting bytes into WIRE -/

/-- The state after `put` of every byte of `x`. -/
def State.putAll (s : State) (x : List Byte) : State :=
  { s with wire := Memory.writeBytes s.wire s.wlen.toNat x, wlen := s.wlen + BitVec.ofNat 10 x.length }

theorem State.put_eq_putAll (s : State) (b : Byte) : s.put b = s.putAll [b] := rfl

theorem State.putAll_nil (s : State) : s.putAll [] = s := by
  simp [State.putAll, Memory.writeBytes]

/-- Two sequences put one after the other. -/
theorem State.putAll_putAll (s : State) (x y : List Byte) (h : s.wlen.toNat + x.length < 1024) :
    (s.putAll x).putAll y = s.putAll (x ++ y) := by
  have h1 : (s.wlen + BitVec.ofNat 10 x.length).toNat = s.wlen.toNat + x.length := by
    simp only [BitVec.toNat_add, BitVec.toNat_ofNat]; omega
  have h2 : s.wlen + BitVec.ofNat 10 x.length + BitVec.ofNat 10 y.length =
      s.wlen + BitVec.ofNat 10 (x ++ y).length := by
    rw [List.length_append, BitVec.ofNat_add, BitVec.add_assoc]
  simp only [State.putAll, h1, h2, Memory.writeBytes_append]

/-- One content byte is its stuffed form put (R105, R176). -/
theorem State.putc_eq_putAll (s : State) (b : Byte) (h : s.wlen.toNat + 1 < 1024) :
    s.putc b = s.putAll (stuff s.cfg [b]) := by
  unfold State.putc stuff
  split
  · rw [State.put_eq_putAll, State.put_eq_putAll, State.putAll_putAll _ _ _ (by simpa using h)]
    rfl
  · rfl

/-- Several content bytes are their stuffed form put. -/
theorem State.foldl_putc (s : State) (x : List Byte) (h : s.wlen.toNat + 2 * x.length < 1023) :
    x.foldl State.putc s = s.putAll (stuff s.cfg x) := by
  induction x generalizing s with
  | nil => exact (State.putAll_nil s).symm
  | cons b x ih =>
    have hl := stuff_length_le s.cfg [b]
    simp only [List.length_cons, List.length_nil] at h hl
    have hw : (s.putAll (stuff s.cfg [b])).wlen.toNat ≤ s.wlen.toNat + 2 := by
      simp only [State.putAll, BitVec.toNat_add, BitVec.toNat_ofNat]; omega
    rw [List.foldl_cons, State.putc_eq_putAll s b (by omega), ih _ (by omega)]
    rw [show (s.putAll (stuff s.cfg [b])).cfg = s.cfg from rfl, State.putAll_putAll _ _ _ (by omega),
      ← stuff_append]
    rfl

/-- Several body bytes: their stuffed form put, and the CRC register stepped over them (R176). -/
theorem State.foldl_putBody (s : State) (x : List Byte) (hc : s.crcSet = true)
    (h : s.wlen.toNat + 2 * x.length < 1023) :
    x.foldl State.putBody s = (s.putAll (stuff s.cfg x)).setCrc (crcFrom s.cfg s.crc x) := by
  induction x generalizing s with
  | nil => simp only [List.foldl_nil, stuff, State.putAll_nil, crcFrom_nil, State.setCrc_self s hc]
  | cons b x ih =>
    have hl := stuff_length_le s.cfg [b]
    simp only [List.length_cons, List.length_nil] at h hl
    have hw : (s.putAll (stuff s.cfg [b])).wlen.toNat ≤ s.wlen.toNat + 2 := by
      simp only [State.putAll, BitVec.toNat_add, BitVec.toNat_ofNat]; omega
    have hb : s.putBody b = (s.putAll (stuff s.cfg [b])).setCrc (crcByte s.cfg s.crc b) := by
      unfold State.putBody
      rw [State.putc_eq_putAll s b (by omega)]
      exact State.stepCrc_of_set (s.putAll (stuff s.cfg [b])) hc b
    have happ := State.putAll_putAll s (stuff s.cfg [b]) (stuff s.cfg x) (by omega)
    rw [← stuff_append] at happ
    rw [List.foldl_cons, hb, ih _ rfl (by rw [State.setCrc_wlen]; omega), show b :: x = [b] ++ x from rfl, ← happ]
    rfl

/-! ## The payload buffer -/

/-- The payload just loaded is read back. -/
theorem State.payBytes_of_writeBytes (s : State) (m : Memory) (pay : List Byte)
    (hp : s.pay = Memory.writeBytes m 0 pay) (hl : s.len.toNat = pay.length) : s.payBytes = pay := by
  apply List.ext_getElem
  · simp [State.payBytes, hl]
  · intro k h1 h2
    simp only [State.payBytes, List.getElem_map, List.getElem_range, State.payByte, hp,
      Memory.read_writeBytes]
    simp [h2]

/-- The frame just put is read back. -/
theorem State.wireBytes_of_writeBytes (s : State) (m : Memory) (w : List Byte)
    (hp : s.wire = Memory.writeBytes m 0 w) (hl : s.wlen.toNat = w.length) : s.wireBytes = w := by
  apply List.ext_getElem
  · simp [State.wireBytes, hl]
  · intro k h1 h2
    simp only [State.wireBytes, List.getElem_map, List.getElem_range, State.wireByte, hp,
      Memory.read_writeBytes]
    simp [h2]

/-! ## The whole frame -/

/-- R176 between the length check and the completion, as one equation. -/
theorem State.buildFrame_eq (s : State) (op : Byte) (pay : List Byte) (h : pay.length ≤ 255) :
    s.buildFrame op pay = s.built op pay := by
  have hlen : (BitVec.ofNat 8 pay.length).toNat = pay.length := by
    simp only [BitVec.toNat_ofNat]; omega
  -- the start marker and the seed
  let s1 : State := ((s.loadPayload op pay).clearWire.put s.cfg.start).setCrc s.cfg.crcInit
  have hw1 : s1.wlen.toNat = 1 := rfl
  have hc1 : s1.crcSet = true := rfl
  have hcfg1 : s1.cfg = s.cfg := rfl
  -- the body
  let body := frameBody op pay
  have hbl : body.length = pay.length + 2 := by simp [body, frameBody]
  have hbody := State.foldl_putBody s1 body hc1 (by omega)
  let s2 : State := (s1.putAll (stuff s.cfg body)).setCrc (crcFrom s.cfg s.cfg.crcInit body)
  have hs2 : body.foldl State.putBody s1 = s2 := hbody
  have hpb : ∀ t : State, t.pay = Memory.writeBytes s.pay 0 pay → t.len = BitVec.ofNat 8 pay.length →
      t.payBytes = pay := fun t h1 h2 =>
    State.payBytes_of_writeBytes t s.pay pay h1 (by rw [h2]; exact hlen)
  have hput : ∀ (t : State) (b : Byte), (t.putBody b).pay = t.pay ∧ (t.putBody b).len = t.len ∧
      (t.putBody b).opc = t.opc := by
    intro t b
    unfold State.putBody State.putc
    split <;> simp
  have hs2' : State.payBytes ((s1.putBody s1.opc).putBody s1.len) = pay := by
    apply hpb
    · rw [(hput _ _).1, (hput _ _).1]; rfl
    · rw [(hput _ _).2.1, (hput _ _).2.1]; rfl
  have hfold : (State.payBytes ((s1.putBody s1.opc).putBody s1.len)).foldl State.putBody
      ((s1.putBody s1.opc).putBody s1.len) = s2 := by
    rw [hs2', ← hs2]; rfl
  -- the CRC field and the end marker
  have hsl := stuff_length_le s.cfg body
  have hw2 : s2.wlen.toNat ≤ 1 + 2 * body.length := by
    show (s1.wlen + BitVec.ofNat 10 (stuff s.cfg body).length).toNat ≤ _
    simp only [BitVec.toNat_add, BitVec.toNat_ofNat, hw1]; omega
  let field := crcField s.cfg (crcOf s.cfg body)
  have hfl : field.length = 2 := crcField_length _ _
  have hcrc : s2.putCrcField = s2.putAll (stuff s.cfg field) := by
    unfold State.putCrcField
    rw [State.crcValue_of_set s2 rfl]
    exact State.foldl_putc s2 field (by omega)
  have hfs := stuff_length_le s.cfg field
  have hend : ∀ t : State, t.cfg = s.cfg → t.putEnd = t.putAll (endPart s.cfg) := by
    intro t ht
    unfold State.putEnd endPart
    rw [ht]
    split
    · rfl
    · exact (State.putAll_nil t).symm
  let x := stuff s.cfg field ++ endPart s.cfg
  have hall : s.buildFrame op pay = s2.putAll x := by
    rw [← State.putAll_putAll _ _ _ (by omega), ← hend (s2.putAll (stuff s.cfg field)) rfl, ← hcrc,
      ← hfold]
    rfl
  have hx : (s1.putAll (stuff s.cfg body)).putAll x = s1.putAll (stuff s.cfg body ++ x) :=
    State.putAll_putAll _ _ _ (by omega)
  have hs : (s.loadPayload op pay).clearWire.putAll ([s.cfg.start] ++ (stuff s.cfg body ++ x)) =
      ((s.loadPayload op pay).clearWire.putAll [s.cfg.start]).putAll (stuff s.cfg body ++ x) :=
    (State.putAll_putAll _ _ _ (by simp)).symm
  have henc : [s.cfg.start] ++ (stuff s.cfg body ++ x) = encodeFrame s.cfg op pay := by
    simp [x, field, body, encodeFrame, wireFrame, frameContent]
  calc s.buildFrame op pay
      = ((s1.putAll (stuff s.cfg body)).putAll x).setCrc (crcFrom s.cfg s.cfg.crcInit body) := hall
    _ = ((s.loadPayload op pay).clearWire.putAll (encodeFrame s.cfg op pay)).setCrc
          (crcFrom s.cfg s.cfg.crcInit body) := by rw [hx, ← henc, hs]; rfl
    _ = s.built op pay := by
      simp [State.putAll, State.built, State.loadPayload, State.clearWire, State.setCrc, body]

/-- WIRE[0..WLEN) after `buildFrame` is `encode(op, pay)` of R174. -/
theorem State.wireBytes_built (s : State) (op : Byte) (pay : List Byte) (h : pay.length ≤ 255) :
    (s.built op pay).wireBytes = encodeFrame s.cfg op pay := by
  have hl := wireFrame_length_le s.cfg op pay (crcOf s.cfg (frameBody op pay)) h
  refine State.wireBytes_of_writeBytes _ s.wire _ rfl ?_
  show (BitVec.ofNat 10 (encodeFrame s.cfg op pay).length).toNat = _
  simp only [BitVec.toNat_ofNat, encodeFrame] at hl ⊢
  omega

/-- The acceptance of a transaction (R222), as one equation. -/
theorem State.startTransaction_eq (s : State) (op : Byte) (pay : List Byte) (tmo : Word)
    (h : pay.length ≤ 255) : s.startTransaction op pay tmo = s.accepted op pay tmo := by
  have hw : ((s.built op pay).loadTimer tmo).enterSend.wireBytes = encodeFrame s.cfg op pay :=
    State.wireBytes_built s op pay h
  simp only [State.startTransaction, State.buildFrame_eq s op pay h, hw]
  rfl

end Sys2Proof.Machine
end

