-- ==== Sys2Proof/Laws/Decoder.lean ====
section
/-! SUPPORT. What the decoder's machine (42_frame_decode.md R190 to R197) does with a whole frame, under DECODE and
under the framer. -/

namespace Sys2Proof.Machine

/-! ## The CRC field -/

@[simp] theorem lo8_append (h l : Byte) : lo8 (h ++ l) = l := by
  ext i hi
  simp only [lo8, BitVec.getElem_extractLsb', BitVec.getLsbD_append]
  simp [hi]

@[simp] theorem hi8_append (h l : Byte) : hi8 (h ++ l) = h := by
  ext i hi
  simp only [hi8, BitVec.getElem_extractLsb', BitVec.getLsbD_append]
  simp [hi]

@[simp] theorem hi8_append_lo8 (w : Half) : hi8 w ++ lo8 w = w := by
  ext i hi
  simp only [hi8, lo8, BitVec.getElem_append, BitVec.getElem_extractLsb']
  by_cases h : i < 8
  · simp only [h, dite_true, Nat.zero_add]; exact BitVec.getLsbD_eq_getElem (by omega)
  · simp only [h, dite_false]
    rw [show 8 + (i - 8) = i by omega, BitVec.getLsbD_eq_getElem]

/-- RCRC assembled low byte first (R194). -/
@[simp] theorem setHi8_setLo8 (w : Half) (lo hi : Byte) : setHi8 (setLo8 w lo) hi = hi ++ lo := by
  simp [setHi8, setLo8]

/-- RCRC assembled high byte first (R194). -/
@[simp] theorem setLo8_setHi8 (w : Half) (lo hi : Byte) : setLo8 (setHi8 w hi) lo = hi ++ lo := by
  simp [setHi8, setLo8]

/-- The CRC register over a concatenation (R149). -/
theorem crcFrom_append (c : Cfg) (r : Half) (x y : List Byte) :
    crcFrom c r (x ++ y) = crcFrom c (crcFrom c r x) y := List.foldl_append

/-! ## The decoder inside a frame -/

/-- `s` with the decoder in D_BODY, OPC received. -/
def State.inOpc (s : State) (op : Byte) : State :=
  { s with
    dph := .body, escf := false, opc := op, crc := crcByte s.cfg s.cfg.crcInit op, crcSet := true, n := 1 }

/-- `s` with the decoder in D_BODY, OPC, LEN and the payload bytes `p` received. -/
def State.inBody (s : State) (op len : Byte) (p : List Byte) : State :=
  { s with
    dph := .body, escf := false, opc := op, len := len, pay := Memory.writeBytes s.pay 0 p
    crc := crcFrom s.cfg s.cfg.crcInit (op :: len :: p), crcSet := true, n := BitVec.ofNat 9 (p.length + 2) }

/-- `s` with the decoder in D_BODY, the body and the first CRC byte received. -/
def State.inCrc (s : State) (op len : Byte) (p : List Byte) (b : Byte) : State :=
  { s with
    dph := .body, escf := false, opc := op, len := len, pay := Memory.writeBytes s.pay 0 p
    crc := crcFrom s.cfg s.cfg.crcInit (op :: len :: p), crcSet := true, n := BitVec.ofNat 9 (p.length + 3)
    rcrc := if s.cfg.crcLofirst then setLo8 s.rcrc b else setHi8 s.rcrc b }

/-- `s` with the whole content received, the CRC field being `v`, and the decoder in phase `d`. -/
def State.afterContent (s : State) (op len : Byte) (p : List Byte) (v : Half) (d : DPhase) : State :=
  { s with
    dph := d, escf := false, opc := op, len := len, pay := Memory.writeBytes s.pay 0 p
    crc := crcFrom s.cfg s.cfg.crcInit (op :: len :: p), crcSet := true, n := BitVec.ofNat 9 (p.length + 4)
    rcrc := v }

theorem State.setRxq_setRxq (s : State) (q r : List Byte) : (s.setRxq q).setRxq r = s.setRxq r := rfl

theorem State.startBody_setRxq (s : State) (q : List Byte) : s.startBody.setRxq q = (s.setRxq q).startBody := rfl

theorem State.inOpc_setRxq (s : State) (op : Byte) (q : List Byte) :
    (s.inOpc op).setRxq q = (s.setRxq q).inOpc op := rfl

theorem State.inBody_setRxq (s : State) (op len : Byte) (p q : List Byte) :
    (s.inBody op len p).setRxq q = (s.setRxq q).inBody op len p := rfl

theorem State.inCrc_setRxq (s : State) (op len : Byte) (p : List Byte) (b : Byte) (q : List Byte) :
    (s.inCrc op len p b).setRxq q = (s.setRxq q).inCrc op len p b := rfl

theorem State.startBody_accept (s : State) (op : Byte) : s.startBody.accept op = s.inOpc op := by
  simp only [State.accept, State.acceptByte, State.startBody_n, if_true]
  rw [State.stepCrc_of_set _ rfl]
  rfl

theorem State.inOpc_accept (s : State) (op len : Byte) : (s.inOpc op).accept len = s.inBody op len [] := by
  have h0 : ¬ (s.inOpc op).n = 0 := by simp [State.inOpc]
  have h1 : (s.inOpc op).n = 1 := rfl
  rw [State.accept, State.acceptByte, if_neg h0, if_pos h1, State.stepCrc_of_set _ rfl]
  rfl

theorem ofNat9_toNat (k : Nat) (h : k ≤ 259) : (BitVec.ofNat 9 k).toNat = k := by
  simp only [BitVec.toNat_ofNat]; omega

theorem ofNat9_ne_zero (k : Nat) (h : k ≤ 257) : ¬ BitVec.ofNat 9 (k + 2) = 0 := by
  intro e
  have := congrArg BitVec.toNat e
  rw [ofNat9_toNat _ (by omega)] at this
  simp at this

theorem ofNat9_ne_one (k : Nat) (h : k ≤ 257) : ¬ BitVec.ofNat 9 (k + 2) = 1 := by
  intro e
  have := congrArg BitVec.toNat e
  rw [ofNat9_toNat _ (by omega)] at this
  simp at this

/-- A payload byte (R193). -/
theorem State.inBody_accept (s : State) (op len : Byte) (p : List Byte) (b : Byte)
    (h : p.length < len.toNat) : (s.inBody op len p).accept b = s.inBody op len (p ++ [b]) := by
  have hl := len.isLt
  have hn : (s.inBody op len p).n = BitVec.ofNat 9 (p.length + 2) := rfl
  have h0 := ofNat9_ne_zero p.length (by omega)
  have h1 := ofNat9_ne_one p.length (by omega)
  have h2 : (s.inBody op len p).n.toNat = p.length + 2 := ofNat9_toNat _ (by omega)
  have h3 : p.length + 2 < 2 + (s.inBody op len p).len.toNat := by
    show p.length + 2 < 2 + len.toNat; omega
  simp only [State.accept, State.acceptByte, hn, h0, h1, if_false]
  rw [← hn, h2, if_pos h3, State.stepCrc_of_set _ rfl, Nat.add_sub_cancel]
  simp only [State.inBody, State.setPay, State.setCrc, State.countByte]
  simp [crcFrom_append, Memory.writeBytes_append, Memory.writeBytes, BitVec.ofNat_add]
  rw [BitVec.add_assoc, BitVec.add_assoc]
  rfl

/-- The first CRC byte (R194). -/
theorem State.inBody_accept_crc (s : State) (op len : Byte) (p : List Byte) (b : Byte)
    (h : p.length = len.toNat) : (s.inBody op len p).accept b = s.inCrc op len p b := by
  have hl := len.isLt
  have hn : (s.inBody op len p).n = BitVec.ofNat 9 (p.length + 2) := rfl
  have h0 := ofNat9_ne_zero p.length (by omega)
  have h1 := ofNat9_ne_one p.length (by omega)
  have h2 : (s.inBody op len p).n.toNat = p.length + 2 := ofNat9_toNat _ (by omega)
  have h3 : ¬ p.length + 2 < 2 + (s.inBody op len p).len.toNat := by
    show ¬ p.length + 2 < 2 + len.toNat; omega
  have h4 : p.length + 2 = 2 + (s.inBody op len p).len.toNat := by
    show p.length + 2 = 2 + len.toNat; omega
  simp only [State.accept, State.acceptByte, hn, h0, h1, if_false]
  rw [← hn, h2, if_neg h3, State.crcFieldByte, h2, if_pos h4]
  simp only [State.inBody, State.inCrc, State.setRcrc, State.countByte]
  rw [show p.length + 3 = (p.length + 2) + 1 from rfl, BitVec.ofNat_add (p.length + 2) 1]
  rfl

/-- The phase after the second CRC byte (R194). -/
def phaseAfterCrc (c : Cfg) (op len : Byte) (p : List Byte) (v : Half) : DPhase :=
  if crcOf c (op :: len :: p) = v then (if c.endPresent then .endMark else .done) else .err .crc

/-- The second CRC byte and the comparison (R194). -/
theorem State.inCrc_accept (s : State) (op len : Byte) (p : List Byte) (b0 b1 : Byte)
    (h : p.length = len.toNat) :
    (s.inCrc op len p b0).accept b1 =
      s.afterContent op len p (crcOfField s.cfg b0 b1)
        (phaseAfterCrc s.cfg op len p (crcOfField s.cfg b0 b1)) := by
  have hl := len.isLt
  have hn : (s.inCrc op len p b0).n = BitVec.ofNat 9 (p.length + 1 + 2) := rfl
  have h0 := ofNat9_ne_zero (p.length + 1) (by omega)
  have h1 := ofNat9_ne_one (p.length + 1) (by omega)
  have h2 : (s.inCrc op len p b0).n.toNat = p.length + 1 + 2 := ofNat9_toNat _ (by omega)
  have h3 : ¬ p.length + 1 + 2 < 2 + (s.inCrc op len p b0).len.toNat := by
    show ¬ p.length + 1 + 2 < 2 + len.toNat; omega
  have h4 : ¬ p.length + 1 + 2 = 2 + (s.inCrc op len p b0).len.toNat := by
    show ¬ p.length + 1 + 2 = 2 + len.toNat; omega
  have hr : (if (s.inCrc op len p b0).cfg.crcLofirst then setHi8 (s.inCrc op len p b0).rcrc b1
      else setLo8 (s.inCrc op len p b0).rcrc b1) = crcOfField s.cfg b0 b1 := by
    simp only [State.inCrc, crcOfField]
    split <;> simp
  simp only [State.accept, State.acceptByte, hn, h0, h1, if_false]
  rw [← hn, h2, if_neg h3, State.crcFieldByte, h2, if_neg h4, hr, State.checkCrc,
    State.crcValue_of_set _ rfl, State.noteCrcRead_of_set _ rfl]
  have hn4 : BitVec.ofNat 9 (p.length + 3) + 1 = BitVec.ofNat 9 (p.length + 4) := by
    rw [show p.length + 4 = (p.length + 3) + 1 by omega, BitVec.ofNat_add (p.length + 3) 1]
    rfl
  have hcrc : crcFinal ((s.inCrc op len p b0).setRcrc (crcOfField s.cfg b0 b1)).cfg
      ((s.inCrc op len p b0).setRcrc (crcOfField s.cfg b0 b1)).crc = crcOf s.cfg (op :: len :: p) := rfl
  rw [hcrc]
  unfold phaseAfterCrc
  by_cases hm : crcOf s.cfg (op :: len :: p) =
      ((s.inCrc op len p b0).setRcrc (crcOfField s.cfg b0 b1)).rcrc
  · have hm' : crcOf s.cfg (op :: len :: p) = crcOfField s.cfg b0 b1 := hm
    rw [if_pos hm, if_pos hm']
    simp only [State.inCrc, State.afterContent, State.setRcrc, State.setPhase, State.countByte, ← hn4]
    rfl
  · have hm' : ¬ crcOf s.cfg (op :: len :: p) = crcOfField s.cfg b0 b1 := hm
    rw [if_neg hm, if_neg hm']
    simp only [State.inCrc, State.afterContent, State.setRcrc, State.setPhase, State.decFail, State.countByte,
      ← hn4]

/-! ## Feeding whole frames: DECODE -/

/-- Going on with DECODE unless the decoder is in D_ERR (R198). -/
def State.feedOn (s : State) (w : List Byte) : State :=
  match s.dph with
  | .err _ => s
  | .start => s.decFeed w
  | .body => s.decFeed w
  | .endMark => s.decFeed w
  | .done => s.decFeed w

theorem State.decFeed_cons (s : State) (b : Byte) (w : List Byte) :
    s.decFeed (b :: w) = (s.decStep b).feedOn w := by
  cases h : (s.decStep b).dph <;> simp [State.decFeed, State.feedOn, h]

/-- Outside D_ERR, `feedOn` is `decFeed`. -/
theorem State.feedOn_eq (s : State) (w : List Byte) (h : ∀ c, s.dph ≠ .err c) : s.feedOn w = s.decFeed w := by
  unfold State.feedOn
  cases hd : s.dph <;> simp_all

/-- One content byte on the wire, escaped or not, is accepted (R105, R191). -/
theorem State.decFeed_token (s : State) (b : Byte) (w : List Byte) (hd : s.dph = .body)
    (he : s.escf = false) (hesc : s.cfg.esc ∈ s.cfg.reserved) :
    s.decFeed (stuff s.cfg [b] ++ w) = (s.accept b).feedOn w := by
  have hset : (s.setEsc true).setEsc false = s := by
    cases s; simp only at he; subst he; rfl
  unfold stuff
  split
  · simp only [List.cons_append, stuff, List.nil_append]
    rw [State.decFeed_cons]
    have h1 : s.decStep s.cfg.esc = s.setEsc true := by simp [State.decStep, hd, he]
    rw [h1, State.feedOn_eq _ _ (by simp [hd]), State.decFeed_cons]
    have h2 : (s.setEsc true).decStep b = s.accept b := by
      simp only [State.decStep, State.setEsc_dph, hd, State.setEsc_escf, if_true, hset]
    rw [h2]
  · rename_i hb
    have hne : b ≠ s.cfg.esc := fun e => hb (e ▸ hesc)
    simp only [List.cons_append, stuff, List.nil_append]
    rw [State.decFeed_cons]
    have h1 : s.decStep b = s.accept b := by simp [State.decStep, hd, he, hne]
    rw [h1]

/-- Stuffed payload bytes are taken one after the other (R193). -/
theorem State.decFeed_payload (s : State) (op len : Byte) (p q w : List Byte)
    (hesc : s.cfg.esc ∈ s.cfg.reserved) (h : p.length + q.length ≤ len.toNat) :
    (s.inBody op len p).decFeed (stuff s.cfg q ++ w) = (s.inBody op len (p ++ q)).decFeed w := by
  induction q generalizing p with
  | nil => simp [stuff]
  | cons b q ih =>
    simp only [List.length_cons] at h
    rw [show stuff s.cfg (b :: q) = stuff s.cfg [b] ++ stuff s.cfg q from stuff_append s.cfg [b] q,
      List.append_assoc]
    have ht := State.decFeed_token (s.inBody op len p) b (stuff s.cfg q ++ w) rfl rfl hesc
    rw [show (s.inBody op len p).cfg = s.cfg from rfl] at ht
    rw [ht, State.inBody_accept s op len p b (by omega), State.feedOn_eq _ _ (by simp [State.inBody]),
      ih (p ++ [b]) (by simp; omega)]
    simp

/-- START and the stuffed content of a frame whose CRC field is `v`, given to the decoder in D_START. -/
theorem State.decFeed_content (s : State) (op : Byte) (pay : List Byte) (v : Half) (w : List Byte)
    (hd : s.dph = .start) (hesc : s.cfg.esc ∈ s.cfg.reserved) (h : pay.length ≤ 255) :
    s.decFeed (s.cfg.start :: (stuff s.cfg (frameContent s.cfg op pay v) ++ w)) =
      (s.afterContent op (BitVec.ofNat 8 pay.length) pay v
        (phaseAfterCrc s.cfg op (BitVec.ofNat 8 pay.length) pay v)).feedOn w := by
  have hlen : (BitVec.ofNat 8 pay.length).toNat = pay.length := by simp only [BitVec.toNat_ofNat]; omega
  obtain ⟨b0, b1, hf, hv⟩ : ∃ b0 b1, crcField s.cfg v = [b0, b1] ∧ crcOfField s.cfg b0 b1 = v := by
    unfold crcField crcOfField
    split
    · exact ⟨_, _, rfl, by simp⟩
    · exact ⟨_, _, rfl, by simp⟩
  have hc : frameContent s.cfg op pay v = [op] ++ ([BitVec.ofNat 8 pay.length] ++ (pay ++ ([b0] ++ [b1]))) := by
    simp [frameContent, frameBody, hf]
  rw [hc]
  simp only [stuff_append, List.append_assoc]
  rw [State.decFeed_cons]
  have h1 : s.decStep s.cfg.start = s.startBody := by simp [State.decStep, hd]
  rw [h1, State.feedOn_eq _ _ (by simp)]
  have t0 := State.decFeed_token s.startBody op
    (stuff s.cfg [BitVec.ofNat 8 pay.length] ++ (stuff s.cfg pay ++ (stuff s.cfg [b0] ++ (stuff s.cfg [b1] ++ w))))
    rfl rfl hesc
  rw [State.startBody_cfg] at t0
  rw [t0, State.startBody_accept, State.feedOn_eq _ _ (by simp [State.inOpc])]
  have t1 := State.decFeed_token (s.inOpc op) (BitVec.ofNat 8 pay.length)
    (stuff s.cfg pay ++ (stuff s.cfg [b0] ++ (stuff s.cfg [b1] ++ w))) rfl rfl hesc
  rw [show (s.inOpc op).cfg = s.cfg from rfl] at t1
  rw [t1, State.inOpc_accept, State.feedOn_eq _ _ (by simp [State.inBody])]
  rw [State.decFeed_payload s op _ [] pay _ hesc (by simp [hlen])]
  have t2 := State.decFeed_token (s.inBody op (BitVec.ofNat 8 pay.length) ([] ++ pay)) b0
    (stuff s.cfg [b1] ++ w) rfl rfl hesc
  rw [show (s.inBody op (BitVec.ofNat 8 pay.length) ([] ++ pay)).cfg = s.cfg from rfl] at t2
  rw [t2, List.nil_append, State.inBody_accept_crc _ _ _ _ _ hlen.symm,
    State.feedOn_eq _ _ (by simp [State.inCrc])]
  have t3 := State.decFeed_token (s.inCrc op (BitVec.ofNat 8 pay.length) pay b0) b1 w rfl rfl hesc
  rw [show (s.inCrc op (BitVec.ofNat 8 pay.length) pay b0).cfg = s.cfg from rfl] at t3
  rw [t3, State.inCrc_accept _ _ _ _ _ _ hlen.symm, hv]

/-- A whole valid frame given to the decoder in D_START (R190 to R195): the decoder is in D_DONE, whatever follows. -/
theorem State.decFeed_frame (s : State) (op : Byte) (pay : List Byte) (w : List Byte)
    (hd : s.dph = .start) (hesc : s.cfg.esc ∈ s.cfg.reserved) (h : pay.length ≤ 255) :
    s.decFeed (encodeFrame s.cfg op pay ++ w) = (s.decoded op pay).decFeed w := by
  have hc := State.decFeed_content s op pay (crcOf s.cfg (frameBody op pay)) (endPart s.cfg ++ w) hd hesc h
  have he : encodeFrame s.cfg op pay ++ w = s.cfg.start ::
      (stuff s.cfg (frameContent s.cfg op pay (crcOf s.cfg (frameBody op pay))) ++ (endPart s.cfg ++ w)) := by
    simp [encodeFrame, wireFrame]
  rw [he, hc]
  have hp : phaseAfterCrc s.cfg op (BitVec.ofNat 8 pay.length) pay (crcOf s.cfg (frameBody op pay)) =
      if s.cfg.endPresent then .endMark else .done := by
    simp [phaseAfterCrc, frameBody]
  rw [hp]
  unfold endPart
  cases hend : s.cfg.endPresent
  · simp only [Bool.false_eq_true, if_false, List.nil_append]
    rw [State.feedOn_eq _ _ (by simp [State.afterContent])]
    rfl
  · simp only [if_true, List.cons_append, List.nil_append]
    rw [State.feedOn_eq _ _ (by simp [State.afterContent]), State.decFeed_cons]
    have hs : (s.afterContent op (BitVec.ofNat 8 pay.length) pay (crcOf s.cfg (frameBody op pay)) .endMark).decStep
        s.cfg.endByte = s.decoded op pay := by
      simp only [State.decStep, State.afterContent, if_true]
      rfl
    rw [hs, State.feedOn_eq _ _ (by simp [State.decoded])]

/-! ## Feeding whole frames: the framer -/

/-- RXBYTEs over the bytes `p` at the head of RXQ, `r` behind them, for as long as F_WAIT lasts (43_framer.md R229). -/
def State.drainFrom (s : State) : List Byte → List Byte → State
  | [], _ => s
  | b :: p, r => if s.fph = .wait then (s.takeByte b (p ++ r)).drainFrom p r else s

theorem State.drainFrom_of_not_wait (s : State) (q r : List Byte) (h : s.fph ≠ .wait) : s.drainFrom q r = s := by
  cases q with
  | nil => rfl
  | cons b q => simp [State.drainFrom, h]

theorem State.drainFrom_cons (s : State) (b : Byte) (q r : List Byte) (h : s.fph = .wait) :
    s.drainFrom (b :: q) r = (s.takeByte b (q ++ r)).drainFrom q r := by
  simp [State.drainFrom, h]

/-- In a phase that awaits more bytes, nothing follows a byte. -/
theorem State.afterByte_of_going (s : State) (h : s.dph = .start ∨ s.dph = .body ∨ s.dph = .endMark) :
    s.afterByte = s := by
  rcases h with h | h | h <;> simp [State.afterByte, h]

/-- One content byte on the wire, escaped or not, is accepted (R105, R191, R227). -/
theorem State.drainFrom_token (s : State) (b : Byte) (q r : List Byte) (hf : s.fph = .wait) (hd : s.dph = .body)
    (he : s.escf = false) (hr : s.rxany = true) (hesc : s.cfg.esc ∈ s.cfg.reserved) :
    s.drainFrom (stuff s.cfg [b] ++ q) r = (((s.setRxq (q ++ r)).accept b).afterByte).drainFrom q r := by
  have hset : ((((s.setRxq (b :: q ++ r)).setRxAny true).setEsc true).setRxq (q ++ r)).setRxAny true =
      (s.setRxq (q ++ r)).setEsc true := by
    cases s; simp only at hr; subst hr; rfl
  have hset2 : ((s.setRxq (q ++ r)).setEsc true).setEsc false = s.setRxq (q ++ r) := by
    cases s; simp only at he; subst he; rfl
  have hset3 : (s.setRxq (q ++ r)).setRxAny true = s.setRxq (q ++ r) := by
    cases s; simp only at hr; subst hr; rfl
  unfold stuff
  split
  · simp only [List.cons_append, stuff, List.nil_append]
    rw [State.drainFrom_cons _ _ _ _ hf]
    have h1 : s.takeByte s.cfg.esc (b :: q ++ r) = ((s.setRxq (b :: q ++ r)).setRxAny true).setEsc true := by
      unfold State.takeByte
      have : ((s.setRxq (b :: q ++ r)).setRxAny true).decStep s.cfg.esc =
          ((s.setRxq (b :: q ++ r)).setRxAny true).setEsc true := by
        simp [State.decStep, hd, he]
      rw [this, State.afterByte_of_going _ (Or.inr (Or.inl (by simpa using hd)))]
    rw [h1, State.drainFrom_cons _ _ _ _ (by simpa using hf)]
    unfold State.takeByte
    rw [hset]
    have h2 : ((s.setRxq (q ++ r)).setEsc true).decStep b = (s.setRxq (q ++ r)).accept b := by
      simp only [State.decStep, State.setEsc_dph, State.setRxq_dph, hd, State.setEsc_escf, if_true, hset2]
    rw [h2]
  · rename_i hb
    have hne : b ≠ s.cfg.esc := fun e => hb (e ▸ hesc)
    simp only [List.cons_append, stuff, List.nil_append]
    rw [State.drainFrom_cons _ _ _ _ hf]
    unfold State.takeByte
    rw [hset3]
    have h1 : (s.setRxq (q ++ r)).decStep b = (s.setRxq (q ++ r)).accept b := by
      simp [State.decStep, hd, he, hne]
    rw [h1]

/-- Stuffed payload bytes are taken one after the other (R193, R227). -/
theorem State.drainFrom_payload (s : State) (op len : Byte) (p x q r : List Byte) (hf : s.fph = .wait)
    (hr : s.rxany = true) (hesc : s.cfg.esc ∈ s.cfg.reserved) (h : p.length + x.length ≤ len.toNat) :
    (s.inBody op len p).drainFrom (stuff s.cfg x ++ q) r =
      (if x = [] then s.inBody op len p else (s.setRxq (q ++ r)).inBody op len (p ++ x)).drainFrom q r := by
  induction x generalizing p s with
  | nil => simp [stuff]
  | cons b x ih =>
    simp only [List.length_cons] at h
    rw [show stuff s.cfg (b :: x) = stuff s.cfg [b] ++ stuff s.cfg x from stuff_append s.cfg [b] x,
      List.append_assoc]
    have ht := State.drainFrom_token (s.inBody op len p) b (stuff s.cfg x ++ q) r hf rfl rfl hr hesc
    rw [show (s.inBody op len p).cfg = s.cfg from rfl] at ht
    have ha : ((s.inBody op len p).setRxq (stuff s.cfg x ++ q ++ r)).accept b =
        (s.setRxq (stuff s.cfg x ++ q ++ r)).inBody op len (p ++ [b]) :=
      State.inBody_accept (s.setRxq (stuff s.cfg x ++ q ++ r)) op len p b (by omega)
    rw [ht, ha, State.afterByte_of_going _ (Or.inr (Or.inl rfl))]
    have hi := ih (s.setRxq (stuff s.cfg x ++ q ++ r)) (p ++ [b]) hf hr hesc (by simp; omega)
    rw [State.setRxq_cfg] at hi
    rw [hi]
    by_cases hx : x = []
    · subst hx; simp [stuff]
    · simp only [hx, if_false]
      simp only [List.append_assoc, List.cons_append, List.nil_append]
      rfl

/-- START and the stuffed content of a frame whose CRC field is `v`, at the head of RXQ when a response is awaited
and no byte of it has been taken. -/
theorem State.drainFrom_content (s : State) (op : Byte) (pay : List Byte) (v : Half) (q r : List Byte)
    (hf : s.fph = .wait) (hd : s.dph = .start) (hesc : s.cfg.esc ∈ s.cfg.reserved) (h : pay.length ≤ 255) :
    s.drainFrom (s.cfg.start :: (stuff s.cfg (frameContent s.cfg op pay v) ++ q)) r =
      ((((s.setRxAny true).setRxq (q ++ r)).afterContent op (BitVec.ofNat 8 pay.length) pay v
        (phaseAfterCrc s.cfg op (BitVec.ofNat 8 pay.length) pay v)).afterByte).drainFrom q r := by
  have hlen : (BitVec.ofNat 8 pay.length).toNat = pay.length := by simp only [BitVec.toNat_ofNat]; omega
  obtain ⟨b0, b1, hfld, hv⟩ : ∃ b0 b1, crcField s.cfg v = [b0, b1] ∧ crcOfField s.cfg b0 b1 = v := by
    unfold crcField crcOfField
    split
    · exact ⟨_, _, rfl, by simp⟩
    · exact ⟨_, _, rfl, by simp⟩
  have hc : frameContent s.cfg op pay v = [op] ++ ([BitVec.ofNat 8 pay.length] ++ (pay ++ ([b0] ++ [b1]))) := by
    simp [frameContent, frameBody, hfld]
  rw [hc]
  simp only [stuff_append, List.append_assoc]
  generalize hq3 : stuff s.cfg [b1] ++ q = q3
  generalize hq2 : stuff s.cfg [b0] ++ q3 = q2
  generalize hq1 : stuff s.cfg pay ++ q2 = q1
  generalize hq0 : stuff s.cfg [BitVec.ofNat 8 pay.length] ++ q1 = q0
  rw [State.drainFrom_cons _ _ _ _ hf]
  let s1 := s.setRxAny true
  have h1 : s.takeByte s.cfg.start (stuff s.cfg [op] ++ q0 ++ r) = (s1.setRxq (stuff s.cfg [op] ++ q0 ++ r)).startBody := by
    unfold State.takeByte
    have : ((s.setRxq (stuff s.cfg [op] ++ q0 ++ r)).setRxAny true).decStep s.cfg.start =
        (s1.setRxq (stuff s.cfg [op] ++ q0 ++ r)).startBody := by
      simp only [State.decStep, State.setRxAny_dph, State.setRxq_dph, hd, State.setRxAny_cfg, State.setRxq_cfg,
        if_true]
      rfl
    rw [this, State.afterByte_of_going _ (Or.inr (Or.inl rfl))]
  rw [h1]
  -- OPC
  have t0 := State.drainFrom_token (s1.setRxq (stuff s.cfg [op] ++ q0 ++ r)).startBody op q0 r hf rfl rfl rfl hesc
  rw [show (s1.setRxq (stuff s.cfg [op] ++ q0 ++ r)).startBody.cfg = s.cfg from rfl] at t0
  have a0 : ((s1.setRxq (stuff s.cfg [op] ++ q0 ++ r)).startBody.setRxq (q0 ++ r)).accept op = (s1.setRxq (q0 ++ r)).inOpc op := by
    rw [State.startBody_setRxq, State.setRxq_setRxq, State.startBody_accept]
  rw [t0, a0, State.afterByte_of_going _ (Or.inr (Or.inl rfl))]
  -- LEN
  have t1 := State.drainFrom_token ((s1.setRxq (q0 ++ r)).inOpc op) (BitVec.ofNat 8 pay.length) q1 r hf rfl rfl rfl hesc
  rw [show ((s1.setRxq (q0 ++ r)).inOpc op).cfg = s.cfg from rfl, hq0] at t1
  have a1 : (((s1.setRxq (q0 ++ r)).inOpc op).setRxq (q1 ++ r)).accept (BitVec.ofNat 8 pay.length) =
      (s1.setRxq (q1 ++ r)).inBody op (BitVec.ofNat 8 pay.length) [] := by
    rw [State.inOpc_setRxq, State.setRxq_setRxq, State.inOpc_accept]
  rw [t1, a1, State.afterByte_of_going _ (Or.inr (Or.inl rfl))]
  -- the payload
  have hpay : ((s1.setRxq (q1 ++ r)).inBody op (BitVec.ofNat 8 pay.length) []).drainFrom q1 r =
      ((s1.setRxq (q2 ++ r)).inBody op (BitVec.ofNat 8 pay.length) pay).drainFrom q2 r := by
    have t2 := State.drainFrom_payload (s1.setRxq (q1 ++ r)) op (BitVec.ofNat 8 pay.length) [] pay q2 r hf rfl hesc
      (by simp [hlen])
    rw [show (s1.setRxq (q1 ++ r)).cfg = s.cfg from rfl, hq1] at t2
    rw [t2]
    by_cases hx : pay = []
    · subst hx
      have : q1 = q2 := by rw [← hq1]; rfl
      simp [this]
    · simp only [hx, if_false, List.nil_append]; rfl
  rw [hpay]
  -- the first CRC byte
  have t3 := State.drainFrom_token ((s1.setRxq (q2 ++ r)).inBody op (BitVec.ofNat 8 pay.length) pay) b0 q3
    r hf rfl rfl rfl hesc
  rw [show ((s1.setRxq (q2 ++ r)).inBody op (BitVec.ofNat 8 pay.length) pay).cfg = s.cfg from rfl, hq2] at t3
  have a3 : (((s1.setRxq (q2 ++ r)).inBody op (BitVec.ofNat 8 pay.length) pay).setRxq (q3 ++ r)).accept b0 =
      (s1.setRxq (q3 ++ r)).inCrc op (BitVec.ofNat 8 pay.length) pay b0 := by
    rw [State.inBody_setRxq, State.setRxq_setRxq, State.inBody_accept_crc _ _ _ _ _ hlen.symm]
  rw [t3, a3, State.afterByte_of_going _ (Or.inr (Or.inl rfl))]
  -- the second CRC byte
  have t4 := State.drainFrom_token ((s1.setRxq (q3 ++ r)).inCrc op (BitVec.ofNat 8 pay.length) pay b0) b1 q
    r hf rfl rfl rfl hesc
  rw [show ((s1.setRxq (q3 ++ r)).inCrc op (BitVec.ofNat 8 pay.length) pay b0).cfg = s.cfg from rfl, hq3] at t4
  have a4 : (((s1.setRxq (q3 ++ r)).inCrc op (BitVec.ofNat 8 pay.length) pay b0).setRxq (q ++ r)).accept b1 =
      (s1.setRxq (q ++ r)).afterContent op (BitVec.ofNat 8 pay.length) pay (crcOfField s.cfg b0 b1)
        (phaseAfterCrc s.cfg op (BitVec.ofNat 8 pay.length) pay (crcOfField s.cfg b0 b1)) := by
    rw [State.inCrc_setRxq, State.setRxq_setRxq, State.inCrc_accept _ _ _ _ _ _ hlen.symm]
    rfl
  rw [t4, a4, hv]

/-- A whole valid frame at the head of RXQ when a response is awaited and no byte of it has been taken (R227): the
verdict on the frame follows, and the bytes behind it stay queued (R229). -/
theorem State.drainFrom_frame (s : State) (op : Byte) (pay : List Byte) (q r : List Byte)
    (hf : s.fph = .wait) (hd : s.dph = .start) (hesc : s.cfg.esc ∈ s.cfg.reserved) (h : pay.length ≤ 255) :
    s.drainFrom (encodeFrame s.cfg op pay ++ q) r =
      ((((s.setRxAny true).setRxq (q ++ r)).decoded op pay).afterByte).drainFrom q r := by
  have hc := State.drainFrom_content s op pay (crcOf s.cfg (frameBody op pay)) (endPart s.cfg ++ q) r hf hd hesc h
  have he : encodeFrame s.cfg op pay ++ q = s.cfg.start ::
      (stuff s.cfg (frameContent s.cfg op pay (crcOf s.cfg (frameBody op pay))) ++ (endPart s.cfg ++ q)) := by
    simp [encodeFrame, wireFrame]
  rw [he, hc]
  have hp : phaseAfterCrc s.cfg op (BitVec.ofNat 8 pay.length) pay (crcOf s.cfg (frameBody op pay)) =
      if s.cfg.endPresent then .endMark else .done := by
    simp [phaseAfterCrc, frameBody]
  rw [hp]
  unfold endPart
  cases hend : s.cfg.endPresent
  · simp only [Bool.false_eq_true, if_false, List.nil_append]
    rfl
  · simp only [if_true, List.cons_append, List.nil_append]
    rw [State.afterByte_of_going _ (Or.inr (Or.inr rfl)), State.drainFrom_cons
      (((s.setRxAny true).setRxq (s.cfg.endByte :: (q ++ r))).afterContent op (BitVec.ofNat 8 pay.length) pay
        (crcOf s.cfg (frameBody op pay)) .endMark) _ _ _ hf]
    unfold State.takeByte
    have hs : (((((s.setRxAny true).setRxq (s.cfg.endByte :: (q ++ r))).afterContent op (BitVec.ofNat 8 pay.length) pay
        (crcOf s.cfg (frameBody op pay)) .endMark).setRxq (q ++ r)).setRxAny true).decStep s.cfg.endByte =
        ((s.setRxAny true).setRxq (q ++ r)).decoded op pay := by
      simp only [State.decStep, State.afterContent, State.setRxAny_dph, State.setRxq_dph, State.setRxAny_cfg,
        State.setRxq_cfg, if_true]
      rfl
    rw [hs]

/-! ## The payload of a decoded frame -/

/-- PAY[0..LEN) after a whole valid frame is its payload. -/
theorem State.payBytes_decoded (s : State) (op : Byte) (pay : List Byte) (h : pay.length ≤ 255) :
    (s.decoded op pay).payBytes = pay := by
  refine State.payBytes_of_writeBytes _ s.pay pay rfl ?_
  show (BitVec.ofNat 8 pay.length).toNat = _
  simp only [BitVec.toNat_ofNat]; omega

/-- LEN after a whole valid frame is the payload's length. -/
theorem State.len_decoded (s : State) (op : Byte) (pay : List Byte) (h : pay.length ≤ 255) :
    (s.decoded op pay).len.toNat = pay.length := by
  show (BitVec.ofNat 8 pay.length).toNat = _
  simp only [BitVec.toNat_ofNat]; omega

end Sys2Proof.Machine
end

