-- ==== Sys2Proof/Laws/Frames.lean ====
section
/-! SUPPORT. Byte orders (00_scope.md R9), what each frame row's meaning is (the two operations of log 8 and log 9),
and the canonical form after reset. -/

namespace Sys2Proof.Machine

/-! ## Byte orders -/

/-- `le_1` of a byte (R9). -/
@[simp] theorem le_one_setWidth (b : Byte) : le 1 (b.setWidth 32) = [b] := by
  simp only [le, List.cons.injEq, and_true]
  apply BitVec.eq_of_getLsbD_eq; intro i hi
  simp [hi]; omega

/-- `le_2` of a 16-bit word is the operand's two bytes (R9). -/
@[simp] theorem le_two_setWidth (h : Half) : le 2 (h.setWidth 32) = halfBytes h := by
  simp only [le, halfBytes, lo8, hi8, List.cons.injEq, and_true]
  constructor
  all_goals
    apply BitVec.eq_of_getLsbD_eq; intro i hi
    simp [hi]; omega

/-- `le_4` of a 32-bit word is the operand's four bytes (R9). -/
theorem le_four (w : Word) : le 4 w = wordBytes w := by
  simp only [le, wordBytes, List.cons.injEq, and_true]
  refine ⟨trivial, ?_, ?_, ?_⟩
  all_goals
    apply BitVec.eq_of_getLsbD_eq; intro i hi
    simp [hi]

@[simp] theorem le_length (k : Nat) (v : Word) : (le k v).length = k := by
  induction k generalizing v with
  | zero => rfl
  | succ k ih => simp [le, ih]

/-! ## The frame rows -/

/-- A row to the drive is `sendFrame` of its wire form (log 9). -/
theorem exec_toDrive (s : State) (i : Instr) (w : List Byte) (hp : i.port = .link .toDrive)
    (hw : wireOf s.cfg i = some w) : exec i s = .next (s.sendFrame w) := by
  cases i <;> simp only [Instr.port, Port.link.injEq, reduceCtorEq] at hp
  all_goals
    simp only [wireOf, Instr.frameParts, Option.map_some, Option.some.injEq] at hw
    subst hw
  · subst hp; rfl
  · rfl
  · simp only [exec, execWrReq1, writePayload, Width.bytes, le_one_setWidth]; rfl
  · simp only [exec, execWrReq2, writePayload, Width.bytes, le_two_setWidth]; rfl
  · simp only [exec, execWrReq4, writePayload, Width.bytes, le_four]; rfl

/-- A row from the drive is `rxArrive` of its wire form (R63; log 8). -/
theorem exec_fromDrive (s : State) (i : Instr) (w : List Byte) (hp : i.port = .link .fromDrive)
    (hw : wireOf s.cfg i = some w) : exec i s = .next (s.rxArrive w) := by
  cases i <;> simp only [Instr.port, Port.link.injEq, reduceCtorEq] at hp
  all_goals
    simp only [wireOf, Instr.frameParts, Option.map_some, Option.some.injEq] at hw
    subst hw
  · subst hp; rfl
  · simp only [exec, execRdRsp1, readResponse, le_four, le_one_setWidth]
  · simp only [exec, execRdRsp2, readResponse, le_four, le_two_setWidth]
  · simp only [exec, execRdRsp4, readResponse, le_four]
  · simp only [exec, execRdRsp0, readResponse, le_four, List.append_nil]
  · simp only [exec, execWrRsp, le_four]

/-! ## Reset -/

/-- The buffers right after reset are in canonical form, with nothing listed. -/
theorem reset_memories_wf : Memory.wf State.reset.pay = true ∧ Memory.wf State.reset.wire = true :=
  ⟨rfl, rfl⟩

end Sys2Proof.Machine
end

