-- ==== Sys2Proof/Laws/PerInstr.lean ====
section
/-! SUPPORT. The per-instruction family `TableRow`: in the default configuration, the bytes the encoder writes begin
with the bytes that the instruction's row of spec/opcode_table.json fixes. -/

namespace Sys2Proof.Laws

/-- The bytes the instruction's row fixes: the command code, or START and, where the mask covers them, OPC and LEN
(opcode_table.json). -/
def TableRow.fixed : Instr → List Byte
  | .crcInit => [0x01]
  | .crcByte _ => [0x02]
  | .crcGet => [0x03]
  | .crcBlk _ => [0x04]
  | .encode _ _ => [0x10]
  | .decode _ => [0x11]
  | .xfer _ _ _ => [0x20]
  | .odRead _ _ _ _ _ => [0x30]
  | .odWrite _ _ _ _ _ => [0x31]
  | .frame _ _ _ _ => [0x7E]
  | .rdReq _ _ _ => [0x7E, 0x01, 0x03]
  | .wrReq1 _ _ _ _ => [0x7E, 0x02, 0x04]
  | .wrReq2 _ _ _ _ => [0x7E, 0x02, 0x05]
  | .wrReq4 _ _ _ _ => [0x7E, 0x02, 0x07]
  | .rdRsp1 _ _ _ => [0x7E, 0x01, 0x05]
  | .rdRsp2 _ _ _ => [0x7E, 0x01, 0x06]
  | .rdRsp4 _ _ _ => [0x7E, 0x01, 0x08]
  | .rdRsp0 _ _ => [0x7E, 0x01, 0x04]
  | .wrRsp _ _ => [0x7E, 0x02, 0x04]

/-- The encoding begins with the row's fixed bytes. -/
def TableRow.Statement (i : Instr) : Prop := TableRow.fixed i <+: encode Cfg.default i

theorem TableRow.crcInit : TableRow.Statement .crcInit := ⟨_, rfl⟩
theorem TableRow.crcByte (b : Byte) : TableRow.Statement (.crcByte b) := ⟨_, rfl⟩
theorem TableRow.crcGet : TableRow.Statement .crcGet := ⟨_, rfl⟩
theorem TableRow.crcBlk (s : List Byte) : TableRow.Statement (.crcBlk s) := ⟨_, rfl⟩
theorem TableRow.encode (op : Byte) (pay : List Byte) : TableRow.Statement (.encode op pay) := ⟨_, rfl⟩
theorem TableRow.decode (w : List Byte) : TableRow.Statement (.decode w) := ⟨_, rfl⟩
theorem TableRow.xfer (op : Byte) (pay : List Byte) (tmo : Word) :
    TableRow.Statement (.xfer op pay tmo) := ⟨_, rfl⟩
theorem TableRow.odRead (idx : Half) (sub wid : Byte) (sgn : Bool) (tmo : Word) :
    TableRow.Statement (.odRead idx sub wid sgn tmo) := ⟨_, rfl⟩
theorem TableRow.odWrite (idx : Half) (sub : Byte) (val : Word) (wid : Byte) (tmo : Word) :
    TableRow.Statement (.odWrite idx sub val wid tmo) := ⟨_, rfl⟩
theorem TableRow.frame (dir : Dir) (opc : Byte) (pay : List Byte) (crc : Half) :
    TableRow.Statement (.frame dir opc pay crc) := ⟨_, rfl⟩
theorem TableRow.rdReq (idx : Half) (sub : Byte) (crc : Half) :
    TableRow.Statement (.rdReq idx sub crc) := ⟨_, rfl⟩
theorem TableRow.wrReq1 (idx : Half) (sub val : Byte) (crc : Half) :
    TableRow.Statement (.wrReq1 idx sub val crc) := ⟨_, rfl⟩
theorem TableRow.wrReq2 (idx : Half) (sub : Byte) (val : Half) (crc : Half) :
    TableRow.Statement (.wrReq2 idx sub val crc) := ⟨_, rfl⟩
theorem TableRow.wrReq4 (idx : Half) (sub : Byte) (val : Word) (crc : Half) :
    TableRow.Statement (.wrReq4 idx sub val crc) := ⟨_, rfl⟩
theorem TableRow.rdRsp1 (abt : Word) (val : Byte) (crc : Half) :
    TableRow.Statement (.rdRsp1 abt val crc) := ⟨_, rfl⟩
theorem TableRow.rdRsp2 (abt : Word) (val : Half) (crc : Half) :
    TableRow.Statement (.rdRsp2 abt val crc) := ⟨_, rfl⟩
theorem TableRow.rdRsp4 (abt : Word) (val : Word) (crc : Half) :
    TableRow.Statement (.rdRsp4 abt val crc) := ⟨_, rfl⟩
theorem TableRow.rdRsp0 (abt : Word) (crc : Half) : TableRow.Statement (.rdRsp0 abt crc) := ⟨_, rfl⟩
theorem TableRow.wrRsp (abt : Word) (crc : Half) : TableRow.Statement (.wrRsp abt crc) := ⟨_, rfl⟩

end Sys2Proof.Laws
end

