-- ==== Sys2Proof/Laws/Step.lean ====
section
/-! SUPPORT. What a step is: the next turn taken (00_scope.md R6, R8). -/

namespace Sys2Proof.Machine

/-- A step of a well-formed configuration takes the next turn. -/
theorem step_of_turn (s : State) (t : Turn) (ts : List Turn) (hc : s.cfg.WellFormed) (ht : s.turns = t :: ts) :
    step s = runTurn t { s with turns := ts } := by
  unfold step
  rw [if_pos hc, ht]

/-- With no turn left the block waits (log 18). -/
theorem step_of_no_turn (s : State) (hc : s.cfg.WellFormed) (ht : s.turns = []) : step s = .next s := by
  unfold step
  rw [if_pos hc, ht]

/-- A configuration that is not well formed is refused (R6). -/
theorem step_of_illFormed (s : State) (hc : ¬ s.cfg.WellFormed) : step s = .refused .illFormedConfig := by
  unfold step
  rw [if_neg hc]

/-- What a step that answers a next state was. -/
theorem step_next_cases (s t : State) (h : step s = .next t) :
    s.cfg.WellFormed ∧
      ((s.turns = [] ∧ t = s) ∨ ∃ u ts, s.turns = u :: ts ∧ runTurn u { s with turns := ts } = .next t) := by
  by_cases hc : s.cfg.WellFormed
  · refine ⟨hc, ?_⟩
    cases ht : s.turns with
    | nil =>
      rw [step_of_no_turn s hc ht] at h
      exact .inl ⟨rfl, (Host.Outcome.next.inj h).symm⟩
    | cons u ts =>
      rw [step_of_turn s u ts hc ht] at h
      exact .inr ⟨u, ts, rfl, h⟩
  · rw [step_of_illFormed s hc] at h; cases h

end Sys2Proof.Machine
end

