-- ==== Sys2Proof/Laws/Receive.lean ====
section
/-! SUPPORT. A response coming in and being taken, one RXBYTE a step (20_memory.md R63, R69, 43_framer.md R227, R229):
what a run of such turns does, said once. -/

namespace Sys2Proof.Machine

/-! ## What the block does with a byte does not depend on what stands behind it -/

/-- The fields of the run that DEC, FRM and ODC neither read nor write when they take a byte: the turns left and what
stays in RXQ. -/
def State.setEnv (s : State) (ts : List Turn) (q : List Byte) : State := { s with turns := ts, rxq := q }

@[simp] theorem State.setEnv_turns (s : State) (ts q) : (s.setEnv ts q).turns = ts := rfl
@[simp] theorem State.setEnv_rxq (s : State) (ts q) : (s.setEnv ts q).rxq = q := rfl
@[simp] theorem State.setEnv_cfg (s : State) (ts q) : (s.setEnv ts q).cfg = s.cfg := rfl
@[simp] theorem State.setEnv_fph (s : State) (ts q) : (s.setEnv ts q).fph = s.fph := rfl
@[simp] theorem State.setEnv_self (s : State) : s.setEnv s.turns s.rxq = s := rfl
@[simp] theorem State.setEnv_setEnv (s : State) (ts us q p) : (s.setEnv ts q).setEnv us p = s.setEnv us p := rfl

theorem State.noteCrcRead_setEnv (s : State) (ts q) : (s.setEnv ts q).noteCrcRead = s.noteCrcRead.setEnv ts q := by
  have hs : (s.setEnv ts q).crcSet = s.crcSet := rfl
  unfold State.noteCrcRead
  rw [hs]
  split <;> rfl

theorem State.stepCrc_setEnv (s : State) (b : Byte) (ts q) :
    (s.setEnv ts q).stepCrc b = (s.stepCrc b).setEnv ts q := by
  have hv : (s.setEnv ts q).crcValue = s.crcValue := rfl
  unfold State.stepCrc
  rw [State.noteCrcRead_setEnv, hv]
  rfl

theorem State.checkCrc_setEnv (s : State) (ts q) : (s.setEnv ts q).checkCrc = s.checkCrc.setEnv ts q := by
  have hv : (s.setEnv ts q).crcValue = s.crcValue := rfl
  have hr : (s.setEnv ts q).rcrc = s.rcrc := rfl
  have hc : (s.setEnv ts q).cfg = s.cfg := rfl
  unfold State.checkCrc
  rw [State.noteCrcRead_setEnv, hv, hr, hc]
  split <;> rfl

theorem State.accept_setEnv (s : State) (b : Byte) (ts q) :
    (s.setEnv ts q).accept b = (s.accept b).setEnv ts q := by
  have hn : (s.setEnv ts q).n = s.n := rfl
  have hl : (s.setEnv ts q).len = s.len := rfl
  simp only [State.accept, State.acceptByte, State.crcFieldByte, hn, hl]
  split
  · exact congrArg State.countByte (State.stepCrc_setEnv (s.setOpc b) b ts q)
  split
  · exact congrArg State.countByte (State.stepCrc_setEnv (s.setLen b) b ts q)
  split
  · exact congrArg State.countByte (State.stepCrc_setEnv (s.setPay (s.n.toNat - 2) b) b ts q)
  split
  · rfl
  · exact congrArg State.countByte (State.checkCrc_setEnv (s.setRcrc _) ts q)

theorem State.decStep_setEnv (s : State) (b : Byte) (ts q) :
    (s.setEnv ts q).decStep b = (s.decStep b).setEnv ts q := by
  have hd : (s.setEnv ts q).dph = s.dph := rfl
  have he : (s.setEnv ts q).escf = s.escf := rfl
  have hc : (s.setEnv ts q).cfg = s.cfg := rfl
  unfold State.decStep
  rw [hd, he, hc]
  cases s.dph <;> dsimp only
  · split <;> rfl
  · split
    · exact State.accept_setEnv (s.setEsc false) b ts q
    · split
      · rfl
      · exact State.accept_setEnv s b ts q
  · split <;> rfl
  · rfl

theorem State.afterByte_setEnv (s : State) (ts q) : (s.setEnv ts q).afterByte = s.afterByte.setEnv ts q := by
  have hd : (s.setEnv ts q).dph = s.dph := rfl
  have ho : (s.setEnv ts q).odk = s.odk := rfl
  have hp : (s.setEnv ts q).payBytes = s.payBytes := rfl
  have h1 : (s.setEnv ts q).opc = s.opc := rfl
  have h2 : (s.setEnv ts q).reqop = s.reqop := rfl
  have h3 : (s.setEnv ts q).len = s.len := rfl
  have h4 : (s.setEnv ts q).wid = s.wid := rfl
  have h5 : (s.setEnv ts q).sgn = s.sgn := rfl
  simp only [State.afterByte, hd, ho, hp, h1, State.checkRead, State.checkWrite, h2, h3, h4, h5]
  cases s.dph <;> try rfl
  cases s.odk
  · rfl
  all_goals
    dsimp only
    repeat' split
    all_goals rfl

/-- Taking a byte, with other turns left and other bytes behind it. -/
theorem State.takeByte_setEnv (s : State) (b : Byte) (ts p q) :
    (s.setEnv ts p).takeByte b q = (s.takeByte b []).setEnv ts q := by
  have h : ((s.setEnv ts p).setRxq q).setRxAny true = ((s.setRxq []).setRxAny true).setEnv ts q := rfl
  unfold State.takeByte
  rw [← State.afterByte_setEnv, ← State.decStep_setEnv, h]

@[simp] theorem State.takeByte_rxq (s : State) (b : Byte) (q) : (s.takeByte b q).rxq = q :=
  congrArg State.rxq (State.takeByte_setEnv s b s.turns s.rxq q)

@[simp] theorem State.takeByte_turns (s : State) (b : Byte) (q) : (s.takeByte b q).turns = s.turns := by
  have h : (s.takeByte b q).turns = ((s.takeByte b []).setEnv s.turns q).turns :=
    congrArg State.turns (State.takeByte_setEnv s b s.turns s.rxq q)
  rw [h, State.setEnv_turns]

@[simp] theorem State.checkCrc_cfg (s : State) : s.checkCrc.cfg = s.cfg := by
  unfold State.checkCrc; split <;> simp

@[simp] theorem State.accept_cfg (s : State) (b : Byte) : (s.accept b).cfg = s.cfg := by
  simp only [State.accept, State.acceptByte, State.crcFieldByte, State.countByte_cfg]
  repeat' split
  all_goals simp only [State.stepCrc_cfg, State.setOpc_cfg, State.setLen_cfg, State.setPay_cfg, State.setRcrc_cfg,
    State.checkCrc_cfg]

@[simp] theorem State.decStep_cfg (s : State) (b : Byte) : (s.decStep b).cfg = s.cfg := by
  unfold State.decStep
  repeat' split
  all_goals simp

@[simp] theorem State.afterByte_cfg (s : State) : s.afterByte.cfg = s.cfg := by
  simp only [State.afterByte, State.checkRead, State.checkWrite]
  repeat' split
  all_goals simp

/-- The configuration never changes (00_scope.md R5). -/
@[simp] theorem State.takeByte_cfg (s : State) (b : Byte) (q) : (s.takeByte b q).cfg = s.cfg := by
  simp [State.takeByte]

/-! ## RXBYTEs one after the other -/

/-- `k` RXBYTE events (R69). -/
def State.takeBytes : Nat → State → State
  | 0, s => s
  | k + 1, s => State.takeBytes k s.rxByte

theorem State.rxByte_of_not_wait (s : State) (h : s.fph ≠ .wait) : s.rxByte = s := by simp [State.rxByte, h]

theorem State.rxByte_cons (s : State) (b : Byte) (q : List Byte) (h : s.fph = .wait) (hq : s.rxq = b :: q) :
    s.rxByte = s.takeByte b q := by simp [State.rxByte, h, hq]

@[simp] theorem State.rxByte_cfg (s : State) : s.rxByte.cfg = s.cfg := by
  unfold State.rxByte; split
  · split <;> simp
  · rfl

@[simp] theorem State.rxByte_turns (s : State) : s.rxByte.turns = s.turns := by
  unfold State.rxByte; split
  · split <;> simp
  · rfl

/-- RXBYTE does not depend on the turns left. -/
theorem State.rxByte_setEnv (s : State) (ts : List Turn) :
    (s.setEnv ts s.rxq).rxByte = s.rxByte.setEnv ts s.rxByte.rxq := by
  by_cases hf : s.fph = .wait
  · cases hq : s.rxq with
    | nil =>
      have h1 : s.rxByte = s := by simp [State.rxByte, hf, hq]
      have h2 : (s.setEnv ts []).rxByte = s.setEnv ts [] := by simp [State.rxByte, hf]
      rw [h1, h2, hq]
    | cons b q =>
      rw [State.rxByte_cons _ b q (by simpa using hf) (by simp), State.rxByte_cons s b q hf hq,
        State.takeByte_setEnv, State.takeByte_rxq]
      exact (congrArg (State.setEnv · ts q) (State.takeByte_setEnv s b s.turns s.rxq q)).symm
  · rw [State.rxByte_of_not_wait _ (by simpa using hf), State.rxByte_of_not_wait s hf]

theorem State.takeBytes_of_not_wait (s : State) (h : s.fph ≠ .wait) (k : Nat) : s.takeBytes k = s := by
  induction k with
  | zero => rfl
  | succ k ih => rw [State.takeBytes, State.rxByte_of_not_wait s h, ih]

/-- RXBYTEs for the bytes at the head of RXQ are `drainFrom`. -/
theorem State.takeBytes_eq_drainFrom (s : State) (p r : List Byte) (h : s.rxq = p ++ r) :
    s.takeBytes p.length = s.drainFrom p r := by
  induction p generalizing s with
  | nil => rfl
  | cons b p ih =>
    by_cases hf : s.fph = .wait
    · rw [State.drainFrom_cons _ _ _ _ hf, ← ih (s.takeByte b (p ++ r)) (by simp), List.length_cons, State.takeBytes,
        State.rxByte_cons s b (p ++ r) hf h]
    · rw [State.takeBytes_of_not_wait s hf, State.drainFrom_of_not_wait s _ _ hf]

/-! ## Steps -/

theorem classifyFrame_port (c : Cfg) (d : Dir) (opc : Byte) (pay : List Byte) (crc : Half) :
    (classifyFrame c d opc pay crc).port = .link d := by
  unfold classifyFrame
  repeat' split
  all_goals rfl

theorem decodeFrame_port (c : Cfg) (d : Dir) (bs : List Byte) (i : Instr) (h : decodeFrame c d bs = .ok i) :
    i.port = .link d := by
  unfold decodeFrame at h
  repeat' split at h
  all_goals first
    | (cases h; done)
    | (cases h; exact classifyFrame_port _ _ _ _ _)

/-- A frame row that is read from a wire frame crosses in the direction it was read in, and is that wire frame. -/
theorem readWire_some (c : Cfg) (d : Dir) (w : List Byte) (i : Instr) (h : readWire c d w = some i) :
    i.port = .link d ∧ wireOf c i = some w := by
  unfold readWire at h
  split at h
  · cases h
  · split at h
    · rename_i j hd
      split at h
      · rename_i hw
        cases h
        exact ⟨decodeFrame_port c d _ _ hd, hw⟩
      · cases h
    · cases h

/-- Bytes that come in are added to RXQ, whether they are the wire form of a row or not (R63; log 8). -/
theorem frameArrives_eq (s : State) (w : List Byte) : frameArrives w s = .next (s.rxArrive w) := by
  unfold frameArrives
  split
  · rename_i i h
    obtain ⟨hp, hw⟩ := readWire_some _ _ _ _ h
    exact exec_fromDrive s i w hp hw
  · rfl

/-- A run whose first turn is known. -/
theorem run_cons (s u : State) (t : Turn) (ts : List Turn) (k : Nat) (hc : s.cfg.WellFormed)
    (h : runTurn t (s.setEnv ts s.rxq) = .next u) :
    Host.Core.run Sys2Proof.core (k + 1) (s.setEnv (t :: ts) s.rxq) = Host.Core.run Sys2Proof.core k u := by
  have hs : Sys2Proof.core.step (s.setEnv (t :: ts) s.rxq) = .next u :=
    (step_of_turn (s.setEnv (t :: ts) s.rxq) t ts hc rfl).trans h
  simp only [Host.Core.run, hs]

/-- A run of RXBYTE turns. -/
theorem run_rxBytes (s : State) (k : Nat) (hc : s.cfg.WellFormed) :
    Host.Core.run Sys2Proof.core k { s with turns := List.replicate k .rxByte ++ s.turns } = .next (s.takeBytes k) := by
  induction k generalizing s with
  | zero => rfl
  | succ k ih =>
    have h := run_cons s (s.rxByte.setEnv (List.replicate k .rxByte ++ s.turns) s.rxByte.rxq) .rxByte
      (List.replicate k .rxByte ++ s.turns) k hc
      (congrArg Host.Outcome.next (State.rxByte_setEnv s (List.replicate k .rxByte ++ s.turns)))
    have hi := ih s.rxByte (by simpa using hc)
    rw [State.rxByte_turns] at hi
    rw [State.takeBytes, ← hi]
    exact h

/-- A frame row from the drive and the RXBYTEs after it (R63, R69). -/
theorem frameThenBytes_eq (s : State) (i : Instr) (w : List Byte) (k : Nat) (hc : s.cfg.WellFormed)
    (hp : i.port = .link .fromDrive) (hw : wireOf s.cfg i = some w) :
    frameThenBytes i k s = .next ((s.rxArrive w).takeBytes k) := by
  unfold frameThenBytes
  rw [exec_fromDrive { s with turns := List.replicate k .rxByte ++ s.turns } i w hp hw]
  exact run_rxBytes (s.rxArrive w) k hc

/-- A frame that is taken whole from the head of RXQ, with `r` behind it, by the verdict it brings (R227, R229). -/
theorem frameThenBytes_of_frame (s : State) (i : Instr) (w : List Byte) (op : Byte) (pay r : List Byte)
    (hc : s.cfg.WellFormed) (hp : i.port = .link .fromDrive) (hw : wireOf s.cfg i = some w) (hf : s.fph = .wait)
    (hd : s.dph = .start) (hl : pay.length ≤ 255) (hq : s.rxq ++ w = encodeFrame s.cfg op pay ++ r) :
    frameThenBytes i (encodeFrame s.cfg op pay).length s =
      .next ((((s.setRxAny true).setRxq r).decoded op pay).afterByte) := by
  rw [frameThenBytes_eq s i w _ hc hp hw, State.takeBytes_eq_drainFrom _ _ r hq]
  have h := State.drainFrom_frame (s.rxArrive w) op pay [] r hf hd hc.2.1 hl
  rw [List.append_nil] at h
  exact congrArg Host.Outcome.next h

end Sys2Proof.Machine
end

