-- ==== Sys2Proof/Tests/Slice0.lean ====
section
/-! SUPPORT. The model's own tests: the checks of WellFormed with terms they refuse, one encoding written out for
every constructor, small steps with the results of spec/95_test_vectors.md, and for every statement with hypotheses a
state and operands that meet them. -/

namespace Sys2Proof.Tests

open Sys2Proof.Machine

-- one thread: each kernel evaluation waits in a thread of its own otherwise
set_option Elab.async false

/-! ## States -/

/-- Just after reset. -/
def idle : State := State.reset

/-- The default configuration with an end marker (R104). -/
def endCfg : Cfg := { Cfg.default with endPresent := true }

/-- CRC-16/CCITT-FALSE (40_crc.md R151). -/
def ffffCfg : Cfg := { Cfg.default with crcInit := 0xFFFF }

/-- The frame of XFER `01` `[34 12 00]` has been handed to the transport, under a timeout of 3. -/
def sending : State := idle.startTransaction 0x01 [0x34, 0x12, 0x00] 3

/-- A response is awaited under XFER, with a timeout of 3. -/
def waiting : State := sending.txDone

/-- A response to OD.READ is awaited. -/
def reading (wid : Width) (sgn : Bool) : State := { waiting with odk := .rd, reqop := 0x01, wid := wid, sgn := sgn }

/-- A response to OD.WRITE is awaited. -/
def writing : State := { waiting with odk := .wr, reqop := 0x02, wid := .w2 }

/-- The response `w` has come in and all of it but the last byte has been taken; the RXBYTE of that byte is next. -/
def beforeLast (s : State) (w : List Byte) : State :=
  { (s.rxArrive w).takeBytes (w.length - 1) with turns := [.rxByte] }

/-- The last completion record after an instruction. -/
def resOf (o : Host.Outcome State Fault Refusal) : Option Completion :=
  match o with
  | .next t => t.res
  | .fault _ => none
  | .refused _ => none

/-- A register or stream after an instruction. -/
def get {α : Type} (f : State → α) (o : Host.Outcome State Fault Refusal) : Option α :=
  match o with
  | .next t => some (f t)
  | .fault _ => none
  | .refused _ => none

/-! ## WellFormed: for each check a term it refuses -/

theorem test_frame_payload_too_long : ¬ (Instr.frame .toDrive 0x10 (List.replicate 256 0) 0).WellFormed Cfg.default :=
  fun h => absurd h.1 (by decide +kernel)

theorem test_frame_of_dictionary_shape :
    ¬ (Instr.frame .toDrive 0x01 [0, 0, 0] 0).WellFormed Cfg.default ∧
    ¬ (Instr.frame .fromDrive 0x02 [0, 0, 0, 0] 0).WellFormed Cfg.default :=
  ⟨fun h => h.2 (by decide), fun h => h.2 (by decide)⟩

theorem test_frame_wellFormed : (Instr.frame .toDrive 0x02 [0, 0, 0] 0).WellFormed Cfg.default :=
  ⟨by decide, by decide⟩

theorem test_encode_payload_too_long : ¬ (Instr.encode 0 (List.replicate 256 0)).OperandsLegal :=
  fun h => absurd (show (List.replicate 256 (0 : Byte)).length ≤ 255 from h) (by decide +kernel)

theorem test_xfer_operands :
    ¬ (Instr.xfer 0 (List.replicate 256 0) 1).OperandsLegal ∧ ¬ (Instr.xfer 0 [] 0).OperandsLegal :=
  ⟨fun h => absurd h.1 (by decide +kernel), fun h => h.2 rfl⟩

theorem test_odRead_operands :
    ¬ (Instr.odRead 0 0 3 false 1).OperandsLegal ∧ ¬ (Instr.odRead 0 0 1 false 0).OperandsLegal :=
  ⟨fun h => absurd h.1 (by decide), fun h => h.2 rfl⟩

theorem test_odWrite_operands :
    ¬ (Instr.odWrite 0 0 0 0 1).OperandsLegal ∧ ¬ (Instr.odWrite 0 0 0 4 0).OperandsLegal :=
  ⟨fun h => absurd h.1 (by decide), fun h => h.2 rfl⟩

theorem test_cfg_default : Cfg.default.WellFormed ∧ endCfg.WellFormed := by decide

theorem test_cfg_checks :
    ¬ Cfg.WellFormed { Cfg.default with reserved := [0x7D] } ∧
    ¬ Cfg.WellFormed { Cfg.default with reserved := [0x7E] } ∧
    ¬ Cfg.WellFormed { Cfg.default with endPresent := true, endByte := 0x55 } ∧
    ¬ Cfg.WellFormed { Cfg.default with crcPoly := 0 } ∧
    ¬ Cfg.WellFormed { Cfg.default with opWrite := 0x01 } :=
  ⟨fun h => absurd h.1 (by decide), fun h => absurd h.2.1 (by decide), fun h => absurd (h.2.2.1 rfl) (by decide),
    fun h => h.2.2.2.1 rfl, fun h => h.2.2.2.2 rfl⟩

/-! ## Encodings written out from 30_encoding.md R120, R101, R112 to R115 (command layout: log 3) -/

/-- The bytes decode to the instruction, and the instruction encodes to the bytes. -/
abbrev Encodes (c : Cfg) (bs : List Byte) (i : Instr) : Prop := decode c i.port bs = .ok i ∧ encode c i = bs

theorem test_code_crcInit : Encodes Cfg.default [0x01] .crcInit := ⟨rfl, rfl⟩
theorem test_code_crcByte : Encodes Cfg.default [0x02, 0xA5] (.crcByte 0xA5) := ⟨rfl, rfl⟩
theorem test_code_crcGet : Encodes Cfg.default [0x03] .crcGet := ⟨rfl, rfl⟩
theorem test_code_crcBlk : Encodes Cfg.default [0x04, 0x31, 0x32] (.crcBlk [0x31, 0x32]) := ⟨rfl, rfl⟩
theorem test_code_encode : Encodes Cfg.default [0x10, 0x01, 0x34, 0x12] (.encode 0x01 [0x34, 0x12]) := ⟨rfl, rfl⟩
theorem test_code_decode : Encodes Cfg.default [0x11, 0x7E, 0x01] (.decode [0x7E, 0x01]) := ⟨rfl, rfl⟩
theorem test_code_xfer : Encodes Cfg.default [0x20, 0x01, 0x03, 0x02, 0x01, 0x00, 0x34] (.xfer 0x01 [0x34] 0x00010203) :=
  ⟨rfl, rfl⟩
theorem test_code_odRead :
    Encodes Cfg.default [0x30, 0x34, 0x12, 0x05, 0x02, 0x01, 0x0A, 0x00, 0x00, 0x00] (.odRead 0x1234 0x05 2 true 10) :=
  ⟨rfl, rfl⟩
theorem test_code_odWrite :
    Encodes Cfg.default
      [0x31, 0x34, 0x12, 0x05, 0x18, 0xFC, 0xFF, 0xFF, 0x02, 0x0A, 0x00, 0x00, 0x00]
      (.odWrite 0x1234 0x05 0xFFFFFC18 2 10) := ⟨rfl, rfl⟩
theorem test_code_frame : Encodes Cfg.default [0x7E, 0x01, 0x00, 0x31, 0x33] (.frame .fromDrive 0x01 [] 0x3331) :=
  ⟨rfl, rfl⟩
theorem test_code_frame_end :
    Encodes endCfg [0x7E, 0x10, 0x01, 0x7E, 0xAD, 0x76, 0x7E] (.frame .toDrive 0x10 [0x7E] 0x76AD) := ⟨rfl, rfl⟩
theorem test_code_rdReq :
    Encodes Cfg.default [0x7E, 0x01, 0x03, 0x34, 0x12, 0x05, 0x5C, 0x1D] (.rdReq 0x1234 0x05 0x1D5C) := ⟨rfl, rfl⟩
theorem test_code_wrReq1 :
    Encodes Cfg.default [0x7E, 0x02, 0x04, 0x34, 0x12, 0x05, 0x80, 0x20, 0xA7] (.wrReq1 0x1234 0x05 0x80 0xA720) :=
  ⟨rfl, rfl⟩
theorem test_code_wrReq2 :
    Encodes Cfg.default [0x7E, 0x02, 0x05, 0x34, 0x12, 0x05, 0xDC, 0x05, 0xDA, 0xBB]
      (.wrReq2 0x1234 0x05 0x05DC 0xBBDA) := ⟨rfl, rfl⟩
theorem test_code_wrReq4 :
    Encodes Cfg.default [0x7E, 0x02, 0x07, 0x34, 0x12, 0x05, 0xA0, 0x86, 0x01, 0x00, 0x1A, 0x7B]
      (.wrReq4 0x1234 0x05 0x000186A0 0x7B1A) := ⟨rfl, rfl⟩
theorem test_code_rdRsp1 :
    Encodes Cfg.default [0x7E, 0x01, 0x05, 0, 0, 0, 0, 0x80, 0xE8, 0x6A] (.rdRsp1 0 0x80 0x6AE8) := ⟨rfl, rfl⟩
theorem test_code_rdRsp2 :
    Encodes Cfg.default [0x7E, 0x01, 0x06, 0, 0, 0, 0, 0x18, 0xFC, 0xBF, 0x42] (.rdRsp2 0 0xFC18 0x42BF) := ⟨rfl, rfl⟩
theorem test_code_rdRsp4 :
    Encodes Cfg.default [0x7E, 0x01, 0x08, 0, 0, 0, 0, 0x60, 0x79, 0xFE, 0xFF, 0xCF, 0x77]
      (.rdRsp4 0 0xFFFE7960 0x77CF) := ⟨rfl, rfl⟩
theorem test_code_rdRsp0 :
    Encodes Cfg.default [0x7E, 0x01, 0x04, 0x11, 0x00, 0x09, 0x06, 0xEB, 0x7B] (.rdRsp0 0x06090011 0x7BEB) := ⟨rfl, rfl⟩
theorem test_code_wrRsp :
    Encodes Cfg.default [0x7E, 0x02, 0x04, 0x20, 0x00, 0x01, 0x06, 0xFF, 0x66] (.wrRsp 0x06010020 0x66FF) := ⟨rfl, rfl⟩

/-- What the decoder rejects, by name. -/
theorem test_rejected :
    decode Cfg.default .command [] = .error .emptyRecord ∧
    decode Cfg.default .command [0x05] = .error (.illegalCode 0x05) ∧
    decode Cfg.default .command [0x02] = .error (.recordLength 0x02) ∧
    decode Cfg.default .command [0x30, 0, 0, 0, 1, 2, 0, 0, 0, 0] = .error (.notABit 2) ∧
    decode Cfg.default (.link .toDrive) [0x00, 0x01, 0x00, 0x31, 0x33] = .error (.notStart 0x00) ∧
    decode Cfg.default (.link .toDrive) [0x7E, 0x01, 0x01, 0x31, 0x33] = .error .shortFrame ∧
    decode Cfg.default (.link .toDrive) [0x7E, 0x01, 0x00, 0x31, 0x33, 0x00] = .error .badEnd :=
  ⟨rfl, rfl, rfl, rfl, rfl, rfl, rfl⟩

/-! ## One step each; results from spec/95_test_vectors.md -/

/-- 2.6, and the seed of 2.4. -/
theorem test_crcInit :
    get (·.crc) (exec .crcInit { idle with crc := 0x31C3 }) = some 0x0000 ∧
    get (·.crc) (exec .crcInit { idle with cfg := ffffCfg }) = some 0xFFFF := by decide +kernel

/-- 2.2. -/
theorem test_crcByte :
    get (·.crc) (exec (.crcByte 0xA5) { idle with crc := 0x1234, crcSet := true }) = some 0xE33C ∧
    get (·.crc) (exec (.crcByte 0x01) { idle with cfg := { Cfg.default with crcRefin := true }, crcSet := true }) =
      some 0x9188 := by decide +kernel

/-- 2.4: `crc_final` with CRC_REFOUT. -/
theorem test_crcGet :
    resOf (exec .crcGet { idle with crc := 0x20B5, crcSet := true }) = some (.ok (.crc 0x20B5)) ∧
    resOf (exec .crcGet { idle with cfg := { Cfg.default with crcRefout := true }, crc := 0x9188, crcSet := true }) =
      some (.ok (.crc 0x1189)) := by decide +kernel

/-- 2.3 and 2.4. -/
theorem test_crcBlk :
    resOf (exec (.crcBlk [0x31, 0x32, 0x33, 0x34, 0x35, 0x36, 0x37, 0x38, 0x39]) idle) = some (.ok (.crc 0x31C3)) ∧
    resOf (exec (.crcBlk [0x01, 0x03, 0x34, 0x12, 0x00]) { idle with cfg := ffffCfg }) = some (.ok (.crc 0x5CF5)) := by
  decide +kernel

/-- 3.1 row 4. -/
theorem test_encode_stuffs :
    resOf (exec (.encode 0x10 [0x7E, 0x7D, 0x00, 0x7E]) idle) =
      some (.ok (.wire [0x7E, 0x10, 0x04, 0x7D, 0x7E, 0x7D, 0x7D, 0x00, 0x7D, 0x7E, 0xAD, 0x76])) := by
  decide +kernel

/-- 3.2, an end marker, and 3.1 row 10, both CRC bytes escaped. -/
theorem test_encode_end :
    resOf (exec (.encode 0x01 []) { idle with cfg := endCfg }) = some (.ok (.wire [0x7E, 0x01, 0x00, 0x31, 0x33, 0x7E])) ∧
    resOf (exec (.encode 0x01 [0x07, 0xF1]) idle) =
      some (.ok (.wire [0x7E, 0x01, 0x02, 0x07, 0xF1, 0x7D, 0x7D, 0x7D, 0x7E])) := by decide +kernel

/-- 4.1: a reserved byte sent without escape, a needless escape. -/
theorem test_decode_accepts :
    resOf (exec (.decode [0x7E, 0x10, 0x04, 0x7E, 0x7D, 0x7D, 0x00, 0x7E, 0xAD, 0x76]) idle) =
      some (.ok (.frame 0x10 [0x7E, 0x7D, 0x00, 0x7E])) ∧
    resOf (exec (.decode [0x7E, 0x7D, 0x01, 0x00, 0x31, 0x33]) idle) = some (.ok (.frame 0x01 [])) := by decide +kernel

/-- 4.1: the four causes. -/
theorem test_decode_rejects :
    resOf (exec (.decode [0x7D]) idle) = some (.err 1 1 0) ∧
    resOf (exec (.decode [0x7E, 0x01, 0x00, 0x31, 0x7D]) idle) = some (.err 1 2 0) ∧
    resOf (exec (.decode [0x7E, 0x01, 0x00, 0x31, 0x33, 0x00]) idle) = some (.err 1 3 0) ∧
    resOf (exec (.decode [0x7E, 0x7E, 0x01, 0x00, 0x31, 0x33]) idle) = some (.err 1 4 0) := by decide +kernel

/-- 43_framer.md R240, acceptance. -/
theorem test_xfer :
    get (fun t => (t.writes, t.tmr, t.busy, t.fph)) (exec (.xfer 0x01 [0x34, 0x12, 0x00] 3) idle) =
      some ([[0x7E, 0x01, 0x03, 0x34, 0x12, 0x00, 0xF9, 0x4D]], 3, true, .send) := by decide +kernel

/-- 44_dictionary.md R250, and 6.2: a width of 3. -/
theorem test_odRead :
    get (·.writes) (exec (.odRead 0x1234 0x05 2 true 10) idle) =
      some [[0x7E, 0x01, 0x03, 0x34, 0x12, 0x05, 0x5C, 0x1D]] ∧
    resOf (exec (.odRead 0x1234 0x05 3 true 10) idle) = some (.err 10 3 0) := by decide +kernel

/-- 6.1: value bytes that are escaped, and a bit above the width dropped. -/
theorem test_odWrite :
    get (·.writes) (exec (.odWrite 0x1234 0x05 0x7D7E7D7E 4 10) idle) =
      some [[0x7E, 0x02, 0x07, 0x34, 0x12, 0x05, 0x7D, 0x7E, 0x7D, 0x7D, 0x7D, 0x7E, 0x7D, 0x7D, 0xBD, 0xD5]] ∧
    get (·.writes) (exec (.odWrite 0x1234 0x05 0x0000017E 1 10) idle) =
      some [[0x7E, 0x02, 0x04, 0x34, 0x12, 0x05, 0x7D, 0x7E, 0xF1, 0xA9]] := by decide +kernel

/-- R63: a frame is queued, under XFER as with no command, and the block takes none of it in that step. -/
theorem test_frame :
    get (fun t => (t.rxq, t.fph, t.dph)) (exec (.frame .fromDrive 0x01 [] 0x3331) waiting) =
      some ([0x7E, 0x01, 0x00, 0x31, 0x33], .wait, .start) ∧
    get (·.rxq) (exec (.frame .fromDrive 0x01 [] 0x3331) { idle with rxq := [0xAA] }) =
      some [0xAA, 0x7E, 0x01, 0x00, 0x31, 0x33] := by decide +kernel

/-- R240, R223: the last byte of a frame under XFER. -/
theorem test_frame_taken :
    resOf (step (beforeLast waiting [0x7E, 0x01, 0x00, 0x31, 0x33])) = some (.ok (.frame 0x01 [])) := by decide +kernel

/-- R224, R68: the request crosses; R67: a request the block has not handed over does not. -/
theorem test_rdReq :
    get (fun t => (t.fph, t.txs)) (exec (.rdReq 0x1234 0x00 0x4DF9) sending) =
      some (.wait, [0x7E, 0x01, 0x03, 0x34, 0x12, 0x00, 0xF9, 0x4D]) ∧
    get (fun t => (t.fph, t.txs)) (exec (.rdReq 0x1234 0x05 0x1D5C) sending) = some (.send, []) := by decide +kernel

/-- 6.1 second row of each width: the request OD.WRITE has handed over crosses. -/
theorem test_wrReq1 :
    get (·.txs) (exec (.wrReq1 0x1234 0x05 0x80 0xA720)
      (idle.startTransaction 0x02 [0x34, 0x12, 0x05, 0x80] 10)) =
      some [0x7E, 0x02, 0x04, 0x34, 0x12, 0x05, 0x80, 0x20, 0xA7] := by decide +kernel

theorem test_wrReq2 :
    get (·.txs) (exec (.wrReq2 0x1234 0x05 0x05DC 0xBBDA)
      (idle.startTransaction 0x02 [0x34, 0x12, 0x05, 0xDC, 0x05] 10)) =
      some [0x7E, 0x02, 0x05, 0x34, 0x12, 0x05, 0xDC, 0x05, 0xDA, 0xBB] := by decide +kernel

theorem test_wrReq4 :
    get (·.txs) (exec (.wrReq4 0x1234 0x05 0x000186A0 0x7B1A)
      (idle.startTransaction 0x02 [0x34, 0x12, 0x05, 0xA0, 0x86, 0x01, 0x00] 10)) =
      some [0x7E, 0x02, 0x07, 0x34, 0x12, 0x05, 0xA0, 0x86, 0x01, 0x00, 0x1A, 0x7B] := by decide +kernel

/-- The row is queued; 6.2, signed and unsigned: its last byte completes OD.READ. -/
theorem test_rdRsp1 :
    get (·.rxq) (exec (.rdRsp1 0 0x80 0x6AE8) idle) = some [0x7E, 0x01, 0x05, 0, 0, 0, 0, 0x80, 0xE8, 0x6A] := by
  decide +kernel

theorem test_rdRsp1_taken :
    resOf (step (beforeLast (reading .w1 true) [0x7E, 0x01, 0x05, 0, 0, 0, 0, 0x80, 0xE8, 0x6A])) =
      some (.ok (.value 0xFFFFFF80)) ∧
    resOf (step (beforeLast (reading .w1 false) [0x7E, 0x01, 0x05, 0, 0, 0, 0, 0x80, 0xE8, 0x6A])) =
      some (.ok (.value 0x00000080)) := by decide +kernel

/-- The row is queued; 6.2, and a width mismatch. -/
theorem test_rdRsp2 :
    get (·.rxq) (exec (.rdRsp2 0 0xFC18 0x42BF) idle) =
      some [0x7E, 0x01, 0x06, 0, 0, 0, 0, 0x18, 0xFC, 0xBF, 0x42] := by decide +kernel

theorem test_rdRsp2_taken :
    resOf (step (beforeLast (reading .w2 true) [0x7E, 0x01, 0x06, 0, 0, 0, 0, 0x18, 0xFC, 0xBF, 0x42])) =
      some (.ok (.value 0xFFFFFC18)) ∧
    resOf (step (beforeLast (reading .w4 false) [0x7E, 0x01, 0x06, 0, 0, 0, 0, 0x18, 0xFC, 0xBF, 0x42])) =
      some (.err 3 3 0) := by decide +kernel

theorem test_rdRsp4 :
    get (·.rxq) (exec (.rdRsp4 0 0xFFFE7960 0x77CF) idle) =
      some [0x7E, 0x01, 0x08, 0, 0, 0, 0, 0x60, 0x79, 0xFE, 0xFF, 0xCF, 0x77] := by decide +kernel

theorem test_rdRsp4_taken :
    get (·.val) (step (beforeLast (reading .w4 false)
      [0x7E, 0x01, 0x08, 0, 0, 0, 0, 0x60, 0x79, 0xFE, 0xFF, 0xCF, 0x77])) = some 0xFFFE7960 := by decide +kernel

/-- The row is queued; 6.2: a device error. -/
theorem test_rdRsp0 :
    get (·.rxq) (exec (.rdRsp0 0x06090011 0x7BEB) idle) = some [0x7E, 0x01, 0x04, 0x11, 0x00, 0x09, 0x06, 0xEB, 0x7B] := by
  decide +kernel

theorem test_rdRsp0_taken :
    resOf (step (beforeLast (reading .w2 false) [0x7E, 0x01, 0x04, 0x11, 0x00, 0x09, 0x06, 0xEB, 0x7B])) =
      some (.err 4 0 0x06090011) := by decide +kernel

/-- The row is queued; 6.3: acknowledged, rejected. -/
theorem test_wrRsp :
    get (·.rxq) (exec (.wrRsp 0x06010020 0x66FF) idle) = some [0x7E, 0x02, 0x04, 0x20, 0x00, 0x01, 0x06, 0xFF, 0x66] := by
  decide +kernel

theorem test_wrRsp_taken :
    resOf (step (beforeLast writing [0x7E, 0x02, 0x04, 0, 0, 0, 0, 0x46, 0x02])) = some (.ok .none) ∧
    resOf (step (beforeLast writing [0x7E, 0x02, 0x04, 0x20, 0x00, 0x01, 0x06, 0xFF, 0x66])) =
      some (.err 4 0 0x06010020) := by decide +kernel

/-- R240: the timer, with no byte and with one. -/
theorem test_tick :
    ({ waiting with tmr := 1 } : State).tick.res = some (.err 2 0 0) ∧
    ({ waiting with tmr := 1, rxany := true } : State).tick.res = some (.err 1 2 0) := by decide +kernel

/-- Words of the opcode table run as the first instruction after reset. -/
theorem test_table_word_runs :
    resOf (step (State.reset.withFetchWord 8 0x01)) = some (.ok .none) ∧
    get (·.fph) (step (State.reset.withFetchWord 24 0x7E0103)) = some .wait ∧
    get (·.rxq) (step (State.reset.withFetchWord 24 0x7E0104)) = some [0x7E, 0x01, 0x04, 0, 0, 0, 0, 0, 0] := by
  decide +kernel

/-! ## States and operands that meet the hypotheses of the statements -/

/-- Port idle: CrcInitCompletes, CrcByteCompletes, CrcGetCompletes, CrcBlkCompletes, CrcIsIncremental, DecodeIsTotal,
DecodeAcceptsExactly, IllegalOperandsAreAnswered, and the two values of `crcSet` in the CRC statements. -/
theorem witness_idle :
    idle.busy = false ∧ idle.crcSet = false ∧ ({ idle with crcSet := true } : State).busy = false := by decide

/-- CrcIsLinear, CrcSeesEverySingleBit: bits 0 and 7. -/
theorem witness_crc :
    ([0x01, 0x02] : List Byte).length = ([0x03, 0x04] : List Byte).length ∧ Cfg.default.crcPoly ≠ 0 ∧ 0 < 8 ∧ 7 < 8 := by
  decide

/-- CrcResidueIsZero: the configuration of its second clause. -/
theorem witness_residue :
    let c : Cfg := { Cfg.default with crcLofirst := false }
    c.crcRefin = false ∧ c.crcRefout = false ∧ c.crcXorout = 0 ∧ c.crcLofirst = false := by decide

/-- EncodeCompletes, EncodedFrameLength, EncodeDecodeRoundTrip, DecodeTakesEncodedFrame, BytesAfterFrameAreRejected,
UnstuffingUndoesStuffing: the shortest and the longest payload. -/
theorem witness_payloads :
    idle.busy = false ∧ idle.cfg.WellFormed ∧ idle.cfg.esc ∈ idle.cfg.reserved ∧ ([] : List Byte).length ≤ 255 ∧
      (List.replicate 255 (0 : Byte)).length ≤ 255 := by decide +kernel

/-- EncoderStoresOnlyItsFrame: each of the four commands builds a frame and answers a next state. -/
theorem witness_builds :
    Instr.builds idle.cfg (.encode 0x01 []) = some (0x01, []) ∧ (get id (exec (.encode 0x01 []) idle)).isSome = true ∧
    Instr.builds idle.cfg (.xfer 0x01 [] 1) = some (0x01, []) ∧ (get id (exec (.xfer 0x01 [] 1) idle)).isSome = true ∧
    Instr.builds idle.cfg (.odRead 0 0 4 true 1) = some (0x01, [0, 0, 0]) ∧
    (get id (exec (.odRead 0 0 4 true 1) idle)).isSome = true ∧
    Instr.builds idle.cfg (.odWrite 0 0 7 1 1) = some (0x02, [0, 0, 0, 7]) ∧
    (get id (exec (.odWrite 0 0 7 1 1) idle)).isSome = true := by decide +kernel

/-- IllegalOperandsAreAnswered: 256 bytes, 255 bytes with `tmo` 0, widths 0 and 3, `tmo` 0. -/
theorem witness_illegal_operands :
    255 < (List.replicate 256 (0 : Byte)).length ∧ (List.replicate 255 (0 : Byte)).length ≤ 255 ∧
      ((0 : Byte) ≠ 1 ∧ (0 : Byte) ≠ 2 ∧ (0 : Byte) ≠ 4) ∧ ((3 : Byte) ≠ 1 ∧ (3 : Byte) ≠ 2 ∧ (3 : Byte) ≠ 4) := by
  decide +kernel

/-- DecodeForgetsHistory: two different states of one configuration. -/
theorem witness_two_states :
    idle.busy = false ∧ ({ idle with rcrc := 5, n := 7 } : State).busy = false ∧
      idle.cfg = ({ idle with rcrc := 5, n := 7 } : State).cfg := by decide

/-- CutFrameIsTruncated: nothing and all but the last byte of a frame. -/
theorem witness_cut :
    0 < (encodeFrame idle.cfg 0x01 []).length ∧ 4 < (encodeFrame idle.cfg 0x01 []).length := by decide +kernel

/-- WrongCrcIsRejected and DamagedResponseEndsCommand: a wrong CRC value. -/
theorem witness_wrong_crc :
    (0x3332 : Half) ≠ crcOf waiting.cfg (frameBody 0x01 []) ∧ waiting.cfg.WellFormed ∧ waiting.Awaiting ∧
      (Instr.frame .fromDrive 0x01 [] 0x3332).port = .link .fromDrive ∧
      (Instr.frame .fromDrive 0x01 [] 0x3332).frameParts waiting.cfg = some (0x01, [], 0x3332) := by
  refine ⟨by decide +kernel, by decide +kernel, ⟨by decide +kernel, by decide +kernel, by decide +kernel⟩, rfl, rfl⟩

/-- BadMarkersAreRejected: a first byte that is not START, and with an end marker a last byte that is not END. -/
theorem witness_bad_markers :
    ({ idle with cfg := endCfg } : State).busy = false ∧ (0x00 : Byte) ≠ endCfg.start ∧ endCfg.WellFormed ∧
      endCfg.endPresent = true ∧ (0x00 : Byte) ≠ endCfg.endByte := by decide

/-- SingleBitFlipIsDetected: the opcode, the length, the last CRC byte; bits 0 and 7. -/
theorem witness_bit_flip :
    0 < ([0x34] : List Byte).length + 4 ∧ 1 < ([0x34] : List Byte).length + 4 ∧ 4 < ([0x34] : List Byte).length + 4 ∧
      0 < 8 ∧ 7 < 8 := by decide

/-- XferIsAccepted, OdReadIsAccepted, OdWriteIsAccepted: the widths and the least timeout. -/
theorem witness_accepted :
    idle.busy = false ∧ Width.ofByte 1 = some .w1 ∧ Width.ofByte 2 = some .w2 ∧ Width.ofByte 4 = some .w4 ∧
      (1 : Word) ≠ 0 := by decide

/-- RequestFrameCrosses: the frame handed over, and one that was not. -/
theorem witness_request :
    (Instr.rdReq 0x1234 0x00 0x4DF9).port = .link .toDrive ∧
    wireOf sending.cfg (.rdReq 0x1234 0x00 0x4DF9) = some sending.wireBytes ∧ sending.fph = .send ∧
    wireOf sending.cfg (.wrReq1 0 0 0 0) = some [0x7E, 0x02, 0x04, 0, 0, 0, 0, 0, 0] ∧
    sending.wireBytes ≠ [0x7E, 0x02, 0x04, 0, 0, 0, 0, 0, 0] ∧ idle.fph ≠ .send := by decide +kernel

/-- AcceptedRequestReachesDrive: an accepted XFER and the frame row of its request. -/
theorem witness_accepted_request :
    Instr.builds idle.cfg (.xfer 0x01 [0x34, 0x12, 0x00] 3) = some (0x01, [0x34, 0x12, 0x00]) ∧ idle.busy = false ∧
    exec (.xfer 0x01 [0x34, 0x12, 0x00] 3) idle = .next sending ∧ sending.fph = .send ∧
    wireOf idle.cfg (.rdReq 0x1234 0x00 0x4DF9) = some (encodeFrame idle.cfg 0x01 [0x34, 0x12, 0x00]) :=
  ⟨by decide, by decide, rfl, rfl, by decide +kernel⟩

/-- TransmitSuccessEntersWait, TransmitFailureEndsCommand, ResetEventClearsBlock in F_SEND. -/
theorem witness_transmit :
    sending.cfg.WellFormed ∧ sending.fph = .send ∧ sending.wlen.toNat ≤ 520 ∧
      ({ sending with turns := [.txResult .ok] } : State).turns = .txResult .ok :: [] ∧
      ({ sending with turns := [.txResult (.fail 3)] } : State).turns = .txResult (.fail 3) :: [] ∧
      ({ sending with turns := [.reset 8] } : State).turns = .reset 8 :: [] := by decide +kernel

/-- EventsOutOfPhaseDoNothing: each of its three cases. -/
theorem witness_out_of_phase :
    idle.cfg.WellFormed ∧ idle.fph ≠ .send ∧ sending.fph ≠ .wait ∧ waiting.fph = .wait ∧ waiting.rxq = [] ∧
      ({ idle with turns := [.tick] } : State).turns = .tick :: [] := by decide +kernel

/-- TickCountsDown: the last TICK and one before it. -/
theorem witness_tick :
    waiting.cfg.WellFormed ∧ waiting.fph = .wait ∧ waiting.tmr ≠ 1 ∧ ({ waiting with tmr := 1 } : State).tmr = 1 := by
  decide +kernel

/-- XferReturnsAnyFrame. -/
theorem witness_xfer_response :
    waiting.cfg.WellFormed ∧ waiting.Awaiting ∧ waiting.odk = .none ∧
      wireOf waiting.cfg (.frame .fromDrive 0x01 [] 0x3331) = some (encodeFrame waiting.cfg 0x01 []) := by
  refine ⟨by decide +kernel, ⟨by decide +kernel, by decide +kernel, by decide +kernel⟩, by decide +kernel,
    by decide +kernel⟩

/-- ReadResponseCompletes, ShortResponsesComplete: OD.READ of each width. -/
theorem witness_read_response :
    (reading .w1 true).cfg.WellFormed ∧ (reading .w1 true).Awaiting ∧ (reading .w1 true).odk = .rd ∧
      (reading .w1 true).reqop = (reading .w1 true).cfg.opRead ∧ (reading .w1 true).wid = .w1 ∧
      (reading .w2 true).wid = .w2 ∧ (reading .w4 true).wid = .w4 ∧ (0x06090011 : Word) ≠ 0 := by
  refine ⟨by decide +kernel, ⟨by decide +kernel, by decide +kernel, by decide +kernel⟩, rfl, by decide +kernel, rfl, rfl,
    rfl, by decide⟩

/-- ShortResponsesComplete, WriteVerdictOrder: OD.WRITE. -/
theorem witness_write_response :
    writing.cfg.WellFormed ∧ writing.Awaiting ∧ writing.odk = .wr ∧ writing.reqop = writing.cfg.opWrite ∧
      wireOf writing.cfg (.wrRsp 0 0x0246) = some (encodeFrame writing.cfg 0x02 [0, 0, 0, 0]) := by
  refine ⟨by decide +kernel, ⟨by decide +kernel, by decide +kernel, by decide +kernel⟩, rfl, by decide +kernel,
    by decide +kernel⟩

/-- ReadVerdictOrder: a valid frame for each branch: another opcode, three payload bytes, a non-zero code, no value
byte, the value. -/
theorem witness_read_verdicts :
    wireOf (reading .w2 false).cfg (.wrRsp 0 0x0246) = some (encodeFrame (reading .w2 false).cfg 0x02 [0, 0, 0, 0]) ∧
    wireOf (reading .w2 false).cfg (.frame .fromDrive 0x01 [0, 0, 0] 0x318D) =
      some (encodeFrame (reading .w2 false).cfg 0x01 [0, 0, 0]) ∧
    wireOf (reading .w2 false).cfg (.rdRsp0 0x06090011 0x7BEB) =
      some (encodeFrame (reading .w2 false).cfg 0x01 [0x11, 0x00, 0x09, 0x06]) ∧
    wireOf (reading .w2 false).cfg (.rdRsp0 0 0xCCA6) = some (encodeFrame (reading .w2 false).cfg 0x01 [0, 0, 0, 0]) ∧
    wireOf (reading .w2 false).cfg (.rdRsp2 0 0xFC18 0x42BF) =
      some (encodeFrame (reading .w2 false).cfg 0x01 [0, 0, 0, 0, 0x18, 0xFC]) := by decide +kernel

/-- UnsolicitedFrameIsQueued, FrameIsItsBytes: a frame, a state that awaits none and one that does. -/
theorem witness_unsolicited :
    wireOf idle.cfg (.frame .fromDrive 0x01 [] 0x3331) = some [0x7E, 0x01, 0x00, 0x31, 0x33] ∧ idle.fph ≠ .wait ∧
      waiting.fph = .wait ∧ waiting.cfg = idle.cfg ∧ idle.cfg.WellFormed := by decide +kernel

/-- StaleResponseIsTakenFirst: program P4, step 5. -/
theorem witness_stale :
    let s : State := { reading .w2 false with rxq := [0x7E, 0x01, 0x06, 0, 0, 0, 0, 0x11, 0x11, 0xA4, 0xD4] }
    s.cfg.WellFormed ∧ s.fph = .wait ∧ s.dph = .start ∧ s.odk = .rd ∧ s.reqop = s.cfg.opRead ∧
      s.rxq = encodeFrame s.cfg s.cfg.opRead (le 4 0 ++ le s.wid.bytes 0x1111) ∧
      wireOf s.cfg (.rdRsp2 0 0x2222 0x8252) = some [0x7E, 0x01, 0x06, 0, 0, 0, 0, 0x22, 0x22, 0x52, 0x82] := by
  decide +kernel

/-- WrittenValueReadsBack: program P3, and a value that is not representable. -/
theorem witness_read_back :
    wireOf (reading .w4 true).cfg (.rdRsp4 0 0xFFFE7960 0x77CF) =
      some (encodeFrame (reading .w4 true).cfg (reading .w4 true).cfg.opRead
        (le 4 0 ++ (writePayload 0x2000 0x01 0xFFFE7960 .w4).drop 3)) ∧
    Representable true .w4 0xFFFE7960 ∧ Representable true .w1 0xFFFFFF80 ∧ ¬ Representable true .w1 0x00000080 := by
  refine ⟨by decide +kernel, rfl, by unfold Representable; decide, by unfold Representable; decide⟩

/-- TransactionEndsWithinTimeout: three TICKs, a byte arriving and taken between them. -/
theorem witness_timeout :
    let s : State := { waiting with turns := [.tick, .rxArrive [0x7E], .rxByte, .tick, .tick] }
    s.cfg.WellFormed ∧ s.fph = .wait ∧ s.tmr ≠ 0 ∧ (∀ t, t ∈ s.turns → t.isReceive = true) ∧
      s.tmr.toNat ≤ s.turns.countP (fun t => decide (t = .tick)) := by decide +kernel

/-- BusyHoldsCommands. -/
theorem witness_busy :
    waiting.busy = true ∧ Instr.crcInit.port = .command ∧ waiting.cfg.WellFormed ∧
      ({ waiting with turns := [.host] } : State).turns = .host :: [] := by decide +kernel

/-- StepRunsDecodedInstruction: a record, a frame coming in, the frame in WIRE. -/
theorem witness_step :
    idle.cfg.WellFormed ∧ idle.busy = false ∧ decode idle.cfg .command [0x02, 0xA5] = .ok (.crcByte 0xA5) ∧
    readWire idle.cfg .fromDrive [0x7E, 0x01, 0x00, 0x31, 0x33] = some (.frame .fromDrive 0x01 [] 0x3331) ∧
    sending.fph = .send ∧ sending.wlen.toNat ≤ 520 ∧
    readWire sending.cfg .toDrive sending.wireBytes = some (.rdReq 0x1234 0x00 0x4DF9) := by
  refine ⟨by decide, by decide, rfl, by decide +kernel, by decide +kernel, by decide +kernel, by decide +kernel⟩

/-- IllegalCodeIsAnswered: the codes 0x00, 0x05 and 0xFF. -/
theorem witness_illegal_code :
    (0x00 : Byte).toNat ∉ [0x01, 0x02, 0x03, 0x04, 0x10, 0x11, 0x20, 0x30, 0x31] ∧
    (0x05 : Byte).toNat ∉ [0x01, 0x02, 0x03, 0x04, 0x10, 0x11, 0x20, 0x30, 0x31] ∧
    (0xFF : Byte).toNat ∉ [0x01, 0x02, 0x03, 0x04, 0x10, 0x11, 0x20, 0x30, 0x31] := by decide

/-- DecodeOfEncode, WireFormReadsBack, EncodeOfDecode. -/
theorem witness_encoding :
    Cfg.default.WellFormed ∧ (Instr.rdReq 0x1234 0x05 0x1D5C).WellFormed Cfg.default ∧
    wireOf Cfg.default (.rdReq 0x1234 0x05 0x1D5C) = some [0x7E, 0x01, 0x03, 0x34, 0x12, 0x05, 0x5C, 0x1D] ∧
    decode Cfg.default (.link .toDrive) [0x7E, 0x01, 0x03, 0x34, 0x12, 0x05, 0x5C, 0x1D] =
      .ok (.rdReq 0x1234 0x05 0x1D5C) := ⟨by decide, trivial, by decide +kernel, rfl⟩

/-- StepKeepsInvariant, StepKeepsRecordsLegal, InvariantExcludesFaults, RequestsAreNeverRepeated, StreamsAreAppendOnly: a
step from reset that accepts a command. -/
theorem witness_invariant :
    Inv idle ∧ RecordsOk idle ∧ (get id (step (State.reset.withFetchWord 8 0x10))).isSome = true := by
  refine ⟨⟨⟨rfl, rfl, rfl, rfl, by decide⟩, by decide, by decide, fun h => absurd rfl h, fun h => absurd rfl h,
    fun h => absurd rfl h, fun h => absurd h (by decide)⟩, ⟨fun r h => absurd h (by simp [idle, State.reset]), .inl rfl⟩,
    by decide +kernel⟩

/-- A response is awaited, the last TICK is next. -/
def lastTick : State := { waiting with tmr := 1, turns := [.tick] }

/-- FramerNeverReportsLength, StepKeepsInvariant: a state of F_WAIT with the invariant, and a step from it. -/
theorem witness_framer : Inv lastTick ∧ lastTick.fph = .wait ∧ (get id (step lastTick)).isSome = true := by
  refine ⟨⟨⟨by decide +kernel, by decide +kernel, by decide +kernel, by decide +kernel, by decide +kernel⟩,
    by decide +kernel, by decide +kernel, fun _ => by decide +kernel, fun _ => ⟨?_, 0x01, [0x34, 0x12, 0x00],
    by decide, by decide +kernel⟩, fun _ => ⟨fun h => absurd h (by decide +kernel), fun h => absurd h (by decide +kernel)⟩,
    fun _ => ⟨?_, by decide +kernel⟩⟩, by decide +kernel, by decide +kernel⟩
  · unfold Memory.Filled; decide +kernel
  · show lastTick.n = 0 ∧ lastTick.escf = false
    decide +kernel

end Sys2Proof.Tests
end

section
/-! What the block answers to a command it cannot run: operands outside their range (30_encoding.md R122, R291) and
codes that are none of the nine (R121). Every such answer is one `State.raise`. -/

namespace Sys2Proof.Machine

/-! ## Acceptance and error entry -/

/-- A ready port takes the command (10_state.md R32). -/
theorem State.whenReady_of_idle (s : State) (f : State → State) (hb : s.busy = false) : s.whenReady f = f s := by
  simp [State.whenReady, State.ready, hb]

/-- Error entry, register by register: the record is delivered, the block is idle, nothing else changes
(60_exceptions.md R294). -/
theorem State.raise_eq (s : State) (e : BlockError) :
    s.raise e =
      { s with res := some e.record, records := s.records ++ [e.record], busy := false, fph := .idle } := rfl

/-- `Err(CommandError, CE_ILLEGAL, 0)` in numbers (R281, R284, R285). -/
theorem BlockError.record_illegal : (BlockError.command .illegal).record = .err 10 1 0 := rfl

/-- `Err(CommandError, CE_LENGTH, 0)` in numbers. -/
theorem BlockError.record_length : (BlockError.command .length).record = .err 10 2 0 := rfl

/-- `Err(CommandError, CE_OPERAND, 0)` in numbers. -/
theorem BlockError.record_operand : (BlockError.command .operand).record = .err 10 3 0 := rfl

/-! ## Illegal operands (R122) -/

/-- The operand `wid` has no other values than 1, 2 and 4. -/
theorem Width.ofByte_eq_none_iff (b : Byte) : Width.ofByte b = none ↔ b ≠ 1 ∧ b ≠ 2 ∧ b ≠ 4 := by
  unfold Width.ofByte
  split_ifs <;> simp_all

/-- An idle block refuses to encode a payload that LEN cannot count. -/
theorem exec_encode_of_long (s : State) (op : Byte) (pay : List Byte) (hb : s.busy = false)
    (hl : 255 < pay.length) : exec (.encode op pay) s = .next (s.raise (.command .length)) := by
  show execEncode op pay s = _
  rw [execEncode, State.whenReady_of_idle s _ hb, if_pos hl]

/-- The length of XFER's payload is looked at before its timeout (R291), so `tmo` does not matter here. -/
theorem exec_xfer_of_long (s : State) (op : Byte) (pay : List Byte) (tmo : Word) (hb : s.busy = false)
    (hl : 255 < pay.length) : exec (.xfer op pay tmo) s = .next (s.raise (.command .length)) := by
  show execXfer op pay tmo s = _
  rw [execXfer, State.whenReady_of_idle s _ hb, if_pos hl]

/-- A transaction with a legal payload and no time to wait is refused. -/
theorem exec_xfer_of_zero_timeout (s : State) (op : Byte) (pay : List Byte) (hb : s.busy = false)
    (hl : pay.length ≤ 255) : exec (.xfer op pay 0) s = .next (s.raise (.command .operand)) := by
  show execXfer op pay 0 s = _
  rw [execXfer, State.whenReady_of_idle s _ hb, if_neg (Nat.not_lt.2 hl), if_pos rfl]

/-- OD.READ refuses a bad width and a zero timeout alike (R251), whichever is found first. -/
theorem exec_odRead_of_illegal (s : State) (idx : Half) (sub wid : Byte) (sgn : Bool) (tmo : Word)
    (hb : s.busy = false) (h : Width.ofByte wid = none ∨ tmo = 0) :
    exec (.odRead idx sub wid sgn tmo) s = .next (s.raise (.command .operand)) := by
  show execOdRead idx sub wid sgn tmo s = _
  rw [execOdRead, State.whenReady_of_idle s _ hb]
  cases hw : Width.ofByte wid with
  | none => rfl
  | some w => simp [h.resolve_left (by simp [hw])]

/-- OD.WRITE refuses a bad width and a zero timeout alike (R257), whichever is found first. -/
theorem exec_odWrite_of_illegal (s : State) (idx : Half) (sub : Byte) (val : Word) (wid : Byte) (tmo : Word)
    (hb : s.busy = false) (h : Width.ofByte wid = none ∨ tmo = 0) :
    exec (.odWrite idx sub val wid tmo) s = .next (s.raise (.command .operand)) := by
  show execOdWrite idx sub val wid tmo s = _
  rw [execOdWrite, State.whenReady_of_idle s _ hb]
  cases hw : Width.ofByte wid with
  | none => rfl
  | some w => simp [h.resolve_left (by simp [hw])]

/-- Settles O15: each refusal is one error entry, whose effect is `State.raise_eq`. -/
theorem illegalOperandsAreAnswered : Obligations.IllegalOperandsAreAnswered := by
  intro s hb failed
  have hlength : .next (s.raise (.command .length)) = failed (.err 10 2 0) := by
    rw [State.raise_eq, BlockError.record_length]
  have hoperand : .next (s.raise (.command .operand)) = failed (.err 10 3 0) := by
    rw [State.raise_eq, BlockError.record_operand]
  refine ⟨fun op pay hl => ?encode, fun op pay tmo hl => ?xferLong, fun op pay hl => ?xferTimeout,
    fun idx sub wid sgn tmo h => ?odRead, fun idx sub val wid tmo h => ?odWrite⟩
  case encode => rw [exec_encode_of_long s op pay hb hl, hlength]
  case xferLong => rw [exec_xfer_of_long s op pay tmo hb hl, hlength]
  case xferTimeout => rw [exec_xfer_of_zero_timeout s op pay hb hl, hoperand]
  case odRead =>
    rw [← Width.ofByte_eq_none_iff] at h
    rw [exec_odRead_of_illegal s idx sub wid sgn tmo hb h, hoperand]
  case odWrite =>
    rw [← Width.ofByte_eq_none_iff] at h
    rw [exec_odWrite_of_illegal s idx sub val wid tmo hb h, hoperand]

/-! ## Illegal codes (R121) -/

/-- A record's code alone decides that it is illegal: the bytes behind it are not looked at. -/
theorem decodeCommand_of_illegalCode (code : Byte) (ops : List Byte)
    (h : code.toNat ∉ [0x01, 0x02, 0x03, 0x04, 0x10, 0x11, 0x20, 0x30, 0x31]) :
    decodeCommand (code :: ops) = .error (.illegalCode code) := by
  simp only [List.mem_cons, List.not_mem_nil, or_false, not_or] at h
  obtain ⟨_, _, _, _, _, _, _, _, _⟩ := h
  -- none of the nine arms matches, and the last one names the code
  simp only [decodeCommand]

/-- The host's turn with an illegal code on offer: the record is taken and answered. -/
theorem offerCommand_of_illegalCode (s : State) (r : List Byte) (rs : List (List Byte)) (code : Byte)
    (hb : s.busy = false) (hc : s.cmds = r :: rs) (hd : decode s.cfg .command r = .error (.illegalCode code)) :
    offerCommand s = .next ({ s with cmds := rs }.raise (.command .illegal)) := by
  simp [offerCommand, hc, State.ready, hb, hd]

/-- Settles O48: the step takes the host's turn, the decoder names the code, and the answer is one error entry. -/
theorem illegalCodeIsAnswered : Obligations.IllegalCodeIsAnswered := by
  intro s ts code ops rs hwf hb ht hc hcode
  have hd : decode s.cfg .command (code :: ops) = .error (.illegalCode code) :=
    decodeCommand_of_illegalCode code ops hcode
  calc step s
      = offerCommand { s with turns := ts } := step_of_turn s .host ts hwf ht
    _ = .next ({ s with turns := ts, cmds := rs }.raise (.command .illegal)) :=
        offerCommand_of_illegalCode { s with turns := ts } (code :: ops) rs code hb hc hd
    _ = _ := by rw [State.raise_eq, BlockError.record_illegal]

end Sys2Proof.Machine
end

section
/-! The framer from outside a transaction (43_framer.md R222 to R232): a busy block holds commands off, the timer, and
when the block hands a frame to the transport. -/

namespace Sys2Proof.Machine

/-! ## A busy block holds commands off (R232) -/

/-- A port that is not ready leaves the command on offer (10_state.md R32, 60_exceptions.md R301). -/
theorem State.whenReady_of_busy (s : State) (f : State → State) (hb : s.busy = true) : s.whenReady f = s := by
  simp [State.whenReady, State.ready, hb]

/-- No command of the nine acts on a busy block. -/
theorem exec_command_of_busy (s : State) (i : Instr) (hp : i.port = .command) (hb : s.busy = true) :
    exec i s = .next s := by
  have hheld : ∀ f : State → State, Host.Outcome.next (φ := Fault) (ρ := Refusal) (s.whenReady f) = .next s :=
    fun f => congrArg _ (State.whenReady_of_busy s f hb)
  cases i with
  | crcInit => exact hheld _
  | crcByte b => exact hheld _
  | crcGet => exact hheld _
  | crcBlk x => exact hheld _
  | encode op pay => exact hheld _
  | decode w => exact hheld _
  | xfer op pay tmo => exact hheld _
  | odRead idx sub wid sgn tmo => exact hheld _
  | odWrite idx sub val wid tmo => exact hheld _
  | _ => simp [Instr.port] at hp

/-- The host's turn does not take a record from the port of a busy block. -/
theorem offerCommand_of_busy (s : State) (hb : s.busy = true) : offerCommand s = .next s := by
  unfold offerCommand
  cases s.cmds <;> simp [State.ready, hb]

/-- Settles O46: held off at the command itself and at the host's turn. -/
theorem busyHoldsCommands : Obligations.BusyHoldsCommands := by
  intro s hb
  refine ⟨fun i hp => exec_command_of_busy s i hp hb, fun ts hwf ht => ?turn⟩
  case turn =>
    calc step s
        = offerCommand { s with turns := ts } := step_of_turn s .host ts hwf ht
      _ = .next { s with turns := ts } := offerCommand_of_busy { s with turns := ts } hb

/-! ## The timer (R228) -/

/-- The error of a transaction whose time has run out (R228): a truncated frame when a byte of the response has come,
an absent one when none has. -/
def State.timeoutError (s : State) : BlockError := if s.rxany then .frame .trunc else .transportTimeout

/-- That error as a record, in numbers (R281, R282, R285). -/
theorem State.timeoutError_record (s : State) :
    s.timeoutError.record = if s.rxany then .err 1 2 0 else .err 2 0 0 := by
  unfold State.timeoutError
  cases s.rxany <;> rfl

/-- The TICK that takes TMR from 1 to 0 is the last of the transaction. -/
theorem State.tick_of_last (s : State) (hf : s.fph = .wait) (ht : s.tmr = 1) :
    s.tick = (s.loadTimer 0).raise s.timeoutError := by
  simp [State.tick, State.timeoutError, hf, ht]

/-- Every other TICK in F_WAIT only counts. -/
theorem State.tick_of_not_last (s : State) (hf : s.fph = .wait) (ht : s.tmr ≠ 1) :
    s.tick = s.loadTimer (s.tmr - 1) := by
  have hleft : s.tmr - 1 ≠ 0 := fun h => ht (sub_eq_zero.1 h)
  simp only [State.tick, if_pos hf, if_neg hleft]

/-- No time is counted in F_IDLE and F_SEND. -/
theorem State.tick_of_not_wait (s : State) (hf : s.fph ≠ .wait) : s.tick = s := if_neg hf

/-- Settles O34: the step takes the TICK, and TMR = 1 tells the last one from the others. -/
theorem tickCountsDown : Obligations.TickCountsDown := by
  intro s ts hwf ht r
  have hstep : step s = .next (State.tick { s with turns := ts }) := step_of_turn s .tick ts hwf ht
  refine ⟨fun hf => ?wait, fun hf => ?other⟩
  case wait =>
    split
    case isTrue hlast =>
      rw [hstep, State.tick_of_last { s with turns := ts } hf hlast, State.raise_eq, State.timeoutError_record]
      rfl
    case isFalse hgoing =>
      rw [hstep, State.tick_of_not_last { s with turns := ts } hf hgoing]
      rfl
  case other => rw [hstep, State.tick_of_not_wait { s with turns := ts } hf]

/-! ## What issues no TXWRITE: encoding and taking bytes -/

/-- Building a frame hands nothing to the transport yet (R176). -/
theorem State.buildFrame_writes (s : State) (op : Byte) (pay : List Byte) (h : pay.length ≤ 255) :
    (s.buildFrame op pay).writes = s.writes := by
  rw [State.buildFrame_eq s op pay h]; rfl

@[simp] theorem State.foldl_stepCrc_writes (x : List Byte) (s : State) :
    (x.foldl State.stepCrc s).writes = s.writes := by
  induction x generalizing s with
  | nil => rfl
  | cons b x ih => rw [List.foldl_cons, ih, State.stepCrc_writes]

@[simp] theorem State.checkCrc_writes (s : State) : s.checkCrc.writes = s.writes := by
  unfold State.checkCrc; split <;> simp

@[simp] theorem State.crcFieldByte_writes (s : State) (b : Byte) : (s.crcFieldByte b).writes = s.writes := by
  unfold State.crcFieldByte; split <;> simp

@[simp] theorem State.accept_writes (s : State) (b : Byte) : (s.accept b).writes = s.writes := by
  unfold State.accept State.acceptByte
  split_ifs <;> simp

@[simp] theorem State.decStep_writes (s : State) (b : Byte) : (s.decStep b).writes = s.writes := by
  unfold State.decStep
  cases s.dph with
  | start => dsimp only; split <;> simp
  | body => dsimp only; split_ifs <;> simp
  | endMark => dsimp only; split <;> simp
  | done => simp
  | err cause => rfl

@[simp] theorem State.decFeed_writes (w : List Byte) (s : State) : (s.decFeed w).writes = s.writes := by
  induction w generalizing s with
  | nil => rfl
  | cons b w ih =>
    rw [State.decFeed_cons, State.feedOn]
    split <;> simp [ih]

@[simp] theorem State.decVerdict_writes (s : State) : s.decVerdict.writes = s.writes := by
  unfold State.decVerdict; split <;> simp

@[simp] theorem State.checkRead_writes (s : State) : s.checkRead.writes = s.writes := by
  simp only [State.checkRead]; split_ifs <;> simp

@[simp] theorem State.checkWrite_writes (s : State) : s.checkWrite.writes = s.writes := by
  simp only [State.checkWrite]; split_ifs <;> simp

/-- The verdict on a response sends nothing, a FrameError included (R231). -/
@[simp] theorem State.afterByte_writes (s : State) : s.afterByte.writes = s.writes := by
  unfold State.afterByte
  cases s.dph with
  | done => dsimp only; cases s.odk <;> simp
  | err cause => simp
  | start => rfl
  | body => rfl
  | endMark => rfl

@[simp] theorem State.takeByte_writes (s : State) (b : Byte) (q : List Byte) :
    (s.takeByte b q).writes = s.writes := by
  simp [State.takeByte]

@[simp] theorem State.rxByte_writes (s : State) : s.rxByte.writes = s.writes := by
  by_cases hf : s.fph = .wait
  · cases hq : s.rxq with
    | nil => simp [State.rxByte, hf, hq]
    | cons b q => rw [State.rxByte_cons s b q hf hq, State.takeByte_writes]
  · rw [State.rxByte_of_not_wait s hf]

/-- A timeout sends nothing (R231). -/
@[simp] theorem State.tick_writes (s : State) : s.tick.writes = s.writes := by
  unfold State.tick; split_ifs <;> simp

/-- A completed write sends nothing more. -/
@[simp] theorem State.txDone_writes (s : State) : s.txDone.writes = s.writes := rfl

/-- A failed write is not repeated (R225, R231). -/
@[simp] theorem State.txFail_writes (s : State) (k : Nat) : (s.txFail k).writes = s.writes := rfl

@[simp] theorem State.doReset_writes (s : State) (k : Nat) : (s.doReset k).writes = s.writes := rfl

/-- The frame in WIRE crosses in F_SEND as TXRESULT(ok) says, whether it is a frame row or not (R224; log 9). -/
theorem transmitResult_ok (s : State) (hf : s.fph = .send) (hw : s.wlen.toNat ≤ 520) :
    transmitResult .ok s = .next s.txDone := by
  simp only [transmitResult, if_pos hf, if_pos hw]
  split
  · next i hi =>
    obtain ⟨hp, hwire⟩ := readWire_some _ _ _ _ hi
    rw [exec_toDrive s i _ hp hwire, State.sendFrame, if_pos ⟨hf, rfl⟩]
  · rfl

/-! ## What issues a TXWRITE: the acceptance of a transaction -/

/-- From `s` to `t` the block has handed nothing to the transport, or, by accepting a command while idle, the frame
that stands in WIRE (R222, R231). -/
def IssuesOnlyByAccepting (s t : State) : Prop :=
  t.writes = s.writes ∨
    (s.busy = false ∧ t.busy = true ∧ t.fph = .send ∧ t.writes = s.writes ++ [t.wireBytes])

/-- The acceptance of a transaction, its operands already stored (`u`), issues its frame once. -/
theorem issues_startTransaction (s u : State) (op : Byte) (pay : List Byte) (tmo : Word) (hb : s.busy = false)
    (hu : u.writes = s.writes) (hl : pay.length ≤ 255) :
    IssuesOnlyByAccepting s (u.startTransaction op pay tmo) := by
  have hwire : (u.accepted op pay tmo).wireBytes = encodeFrame u.cfg op pay := State.wireBytes_built u op pay hl
  rw [State.startTransaction_eq u op pay tmo hl]
  refine .inr ⟨hb, rfl, rfl, ?_⟩
  rw [hwire, ← hu]
  rfl

/-- What a command does to a ready port decides what it issues; held off, it issues nothing. -/
theorem issues_whenReady (s : State) (f : State → State) (h : s.busy = false → IssuesOnlyByAccepting s (f s)) :
    IssuesOnlyByAccepting s (s.whenReady f) := by
  cases hb : s.busy with
  | true => exact .inl (by rw [State.whenReady_of_busy s f hb])
  | false => rw [State.whenReady_of_idle s f hb]; exact h hb

theorem readPayload_length_le (idx : Half) (sub : Byte) : (readPayload idx sub).length ≤ 255 := by
  simp [readPayload]

theorem writePayload_length_le (idx : Half) (sub : Byte) (val : Word) (wid : Width) :
    (writePayload idx sub val wid).length ≤ 255 := by
  cases wid <;> simp [writePayload, Width.bytes, le]

/-- Every command answers a next state; the three that start a transaction issue its frame, the others nothing. -/
theorem exec_command_issues (s : State) (i : Instr) (hp : i.port = .command) :
    ∃ t, exec i s = .next t ∧ IssuesOnlyByAccepting s t := by
  cases i with
  | crcInit => exact ⟨_, rfl, issues_whenReady s _ fun _ => .inl (by simp)⟩
  | crcByte b => exact ⟨_, rfl, issues_whenReady s _ fun _ => .inl (by simp)⟩
  | crcGet => exact ⟨_, rfl, issues_whenReady s _ fun _ => .inl (by simp)⟩
  | crcBlk x => exact ⟨_, rfl, issues_whenReady s _ fun _ => .inl (by simp)⟩
  | decode w => exact ⟨_, rfl, issues_whenReady s _ fun _ => .inl (by simp)⟩
  | encode op pay =>
    refine ⟨_, rfl, issues_whenReady s _ fun _ => .inl ?_⟩
    split
    · rfl
    · next hl => rw [State.complete_writes, State.buildFrame_writes s op pay (Nat.not_lt.1 hl)]
  | xfer op pay tmo =>
    refine ⟨_, rfl, issues_whenReady s _ fun hb => ?_⟩
    split_ifs with hl
    · exact .inl rfl
    · exact .inl rfl
    · exact issues_startTransaction s _ op pay tmo hb rfl (Nat.not_lt.1 hl)
  | odRead idx sub wid sgn tmo =>
    refine ⟨_, rfl, issues_whenReady s _ fun hb => ?_⟩
    cases Width.ofByte wid with
    | none => exact .inl rfl
    | some width =>
      dsimp only
      split
      · exact .inl rfl
      · exact issues_startTransaction s _ _ _ tmo hb rfl (readPayload_length_le _ _)
  | odWrite idx sub val wid tmo =>
    refine ⟨_, rfl, issues_whenReady s _ fun hb => ?_⟩
    cases Width.ofByte wid with
    | none => exact .inl rfl
    | some width =>
      dsimp only
      split
      · exact .inl rfl
      · exact issues_startTransaction s _ _ _ tmo hb rfl (writePayload_length_le _ _ _ _)
  | _ => simp [Instr.port] at hp

/-! ## A step issues at most one request (R231) -/

/-- The records of the command port are commands. -/
theorem decodeCommand_port (bs : List Byte) (i : Instr) (h : decodeCommand bs = .ok i) : i.port = .command := by
  unfold decodeCommand at h
  repeat' split at h
  all_goals cases h <;> rfl

/-- The host's turn: a command runs, an illegal code is answered, or the record stays on offer. -/
theorem offerCommand_issues (s t : State) (h : offerCommand s = .next t) : IssuesOnlyByAccepting s t := by
  unfold offerCommand at h
  split at h
  · cases h; exact .inl rfl
  · next r rs _ =>
    split at h
    · split at h
      · next i hd =>
        obtain ⟨u, hu, hissues⟩ := exec_command_issues { s with cmds := rs } i (decodeCommand_port r i hd)
        cases hu.symm.trans h
        exact hissues
      · cases h; exact .inl rfl
      -- every other decoding error is a refusal, which is no next state
      all_goals cases h
    · cases h; exact .inl rfl

/-- TXRESULT issues nothing: what it reports has been issued before (R224, R225). -/
theorem transmitResult_writes (s t : State) (r : TxResult) (h : transmitResult r s = .next t) :
    t.writes = s.writes := by
  by_cases hf : s.fph = .send
  · by_cases hw : s.wlen.toNat ≤ 520
    · cases r with
      | ok => rw [transmitResult_ok s hf hw] at h; cases h; exact State.txDone_writes s
      | fail k =>
        simp only [transmitResult, if_pos hf, if_pos hw] at h
        cases h; exact State.txFail_writes s k
    · simp only [transmitResult, if_pos hf, if_neg hw] at h; cases h
  · simp only [transmitResult, if_neg hf] at h; cases h; rfl

/-- RESET abandons a request and issues none (R321). -/
theorem resetEvent_writes (s t : State) (k : Nat) (h : resetEvent k s = .next t) : t.writes = s.writes := by
  unfold resetEvent at h
  split at h
  · cases h
  · cases h; exact State.doReset_writes s k

/-- Of all turns only the host's can issue a request. -/
theorem runTurn_issues (s t : State) (u : Turn) (h : runTurn u s = .next t) : IssuesOnlyByAccepting s t := by
  cases u with
  | host => exact offerCommand_issues s t h
  | txResult r => exact .inl (transmitResult_writes s t r h)
  | rxArrive bs =>
    cases (frameArrives_eq s bs).symm.trans h
    exact .inl (State.rxArrive_writes s bs)
  | rxByte => cases h; exact .inl (State.rxByte_writes s)
  | tick => cases h; exact .inl (State.tick_writes s)
  | reset k => exact .inl (resetEvent_writes s t k h)

/-- Settles O58: a step is one turn, and `runTurn_issues` says what each turn issues. -/
theorem requestsAreNeverRepeated : Obligations.RequestsAreNeverRepeated := by
  intro s t h
  obtain ⟨_, ⟨_, rfl⟩ | ⟨u, ts, _, hturn⟩⟩ := step_next_cases s t h
  · exact .inl rfl
  · exact runTurn_issues { s with turns := ts } t u hturn

end Sys2Proof.Machine
end

section
/-! What reaches the completion port (10_state.md R29, R32; 60_exceptions.md R281 to R288): no step delivers a record
outside the tables of kinds and causes, and RES follows the stream. Only `State.finish` delivers; every other operation
leaves RES and the stream alone, so it keeps `RecordsOk` by computation. -/

namespace Sys2Proof.Machine

/-! ## What the block raises is in the tables -/

/-- The causes of FrameError have the numbers 1 to 4 (R282). -/
theorem FrameCause.code_range (c : FrameCause) : c.code = 1 ∨ c.code = 2 ∨ c.code = 3 ∨ c.code = 4 := by
  cases c <;> decide

/-- The causes of ProtocolError have the numbers 1 to 3 (R283). -/
theorem ProtoCause.code_range (c : ProtoCause) : c.code = 1 ∨ c.code = 2 ∨ c.code = 3 := by
  cases c <;> decide

/-- The causes of CommandError have the numbers 1 to 3 (R284). -/
theorem CmdCause.code_range (c : CmdCause) : c.code = 1 ∨ c.code = 2 ∨ c.code = 3 := by
  cases c <;> decide

/-- The one error whose record no table allows is a DeviceError without a code (R285); the kinds 5 to 8 belong to no
error of the block (R288). -/
theorem BlockError.record_legal (e : BlockError) (he : e ≠ .device 0) : e.record.Legal := by
  cases e with
  | frame c => exact .inl ⟨rfl, c.code_range, rfl⟩
  | transportTimeout => exact .inr (.inl ⟨rfl, rfl, rfl⟩)
  | protocol c => exact .inr (.inr (.inl ⟨rfl, c.code_range, rfl⟩))
  | device abt => exact .inr (.inr (.inr (.inl ⟨rfl, rfl, fun h => he (congrArg _ h)⟩)))
  | transportWriteFail => exact .inr (.inr (.inr (.inr (.inl ⟨rfl, rfl, rfl⟩))))
  | command c => exact .inr (.inr (.inr (.inr (.inr ⟨rfl, c.code_range, rfl⟩))))

/-- A timeout is no DeviceError (R228). -/
theorem State.timeoutError_ne_device (s : State) (abt : Word) : s.timeoutError ≠ .device abt := by
  unfold State.timeoutError
  split <;> nofun

/-! ## Completion and error entry -/

section
variable {s : State} (h : RecordsOk s)
include h

/-- Only RES and the stream matter. -/
theorem RecordsOk.of_eq {t : State} (hrecords : t.records = s.records) (hres : t.res = s.res) : RecordsOk t := by
  rw [RecordsOk, hrecords, hres]
  exact h

/-- The end of a command puts its record last on the stream and into RES (R286). -/
theorem RecordsOk.finish {r : Completion} (hr : r.Legal) : RecordsOk (s.finish r) := by
  obtain ⟨hlegal, _⟩ := h
  refine ⟨fun x hx => ?_, .inr (by simp)⟩
  rw [State.finish_records, List.mem_append, List.mem_singleton] at hx
  rcases hx with hx | rfl
  · exact hlegal x hx
  · exact hr

theorem RecordsOk.complete (r : Results) : RecordsOk (s.complete r) := h.finish trivial

theorem RecordsOk.raise {e : BlockError} (he : e ≠ .device 0) : RecordsOk (s.raise e) :=
  h.finish (e.record_legal he)

/-- A command on a ready port may end with a record; held off, it changes nothing (R301). -/
theorem RecordsOk.whenReady {f : State → State} (hf : RecordsOk (f s)) : RecordsOk (s.whenReady f) := by
  unfold State.whenReady
  split
  · exact hf
  · exact h

/-! ## CRCU and ENC deliver nothing -/

theorem RecordsOk.noteCrcRead : RecordsOk s.noteCrcRead := by
  unfold State.noteCrcRead
  split <;> exact h

theorem RecordsOk.stepCrc (b : Byte) : RecordsOk (s.stepCrc b) := h.noteCrcRead

theorem RecordsOk.buildFrame (op : Byte) (pay : List Byte) (hl : pay.length ≤ 255) :
    RecordsOk (s.buildFrame op pay) := by
  rw [State.buildFrame_eq s op pay hl]
  exact h

theorem RecordsOk.startTransaction (op : Byte) (pay : List Byte) (tmo : Word) (hl : pay.length ≤ 255) :
    RecordsOk (s.startTransaction op pay tmo) := by
  rw [State.startTransaction_eq s op pay tmo hl]
  exact h

/-! ## DEC delivers nothing before its verdict -/

theorem RecordsOk.checkCrc : RecordsOk s.checkCrc := by
  unfold State.checkCrc
  split <;> exact h.noteCrcRead

theorem RecordsOk.crcFieldByte (b : Byte) : RecordsOk (s.crcFieldByte b) := by
  unfold State.crcFieldByte
  split
  · exact h
  · exact RecordsOk.checkCrc (s := s.setRcrc _) h

theorem RecordsOk.accept (b : Byte) : RecordsOk (s.accept b) := by
  show RecordsOk (s.acceptByte b)
  unfold State.acceptByte
  split_ifs
  · exact RecordsOk.stepCrc (s := s.setOpc b) h b
  · exact RecordsOk.stepCrc (s := s.setLen b) h b
  · exact RecordsOk.stepCrc (s := s.setPay _ b) h b
  · exact h.crcFieldByte b

theorem RecordsOk.decStep (b : Byte) : RecordsOk (s.decStep b) := by
  unfold State.decStep
  cases s.dph with
  | start => dsimp only; split <;> exact h
  | body =>
    dsimp only
    split_ifs
    · exact RecordsOk.accept (s := s.setEsc false) h b
    · exact h
    · exact h.accept b
  | endMark => dsimp only; split <;> exact h
  | done => exact h
  | err cause => exact h

/-- The end of DECODE: a result or a FrameError (R198). -/
theorem RecordsOk.decVerdict : RecordsOk s.decVerdict := by
  unfold State.decVerdict
  cases s.dph with
  | done => exact h.complete _
  | _ => exact h.raise nofun

/-! ## FRM and ODC -/

/-- The checks of OD.READ (R250): DeviceError is raised only with a code that is not 0. -/
theorem RecordsOk.checkRead : RecordsOk s.checkRead := by
  simp only [State.checkRead]
  split_ifs with _ _ habt
  · exact h.raise nofun
  · exact h.raise nofun
  · exact RecordsOk.raise (s := s.setAbt _) h fun he => habt (BlockError.device.inj he)
  · exact RecordsOk.raise (s := s.setAbt _) h nofun
  · exact RecordsOk.complete (s := (s.setAbt _).setVal _) h _

/-- The checks of OD.WRITE (R256): DeviceError is raised only with a code that is not 0. -/
theorem RecordsOk.checkWrite : RecordsOk s.checkWrite := by
  simp only [State.checkWrite]
  split_ifs with _ _ habt
  · exact h.raise nofun
  · exact h.raise nofun
  · exact RecordsOk.raise (s := s.setAbt _) h fun he => habt (BlockError.device.inj he)
  · exact RecordsOk.raise (s := s.setAbt _) h nofun
  · exact RecordsOk.complete (s := s.setAbt _) h _

/-- The verdict on a response (R227). -/
theorem RecordsOk.afterByte : RecordsOk s.afterByte := by
  unfold State.afterByte
  cases s.dph with
  | err cause => exact h.raise nofun
  | done =>
    cases s.odk with
    | none => exact h.complete _
    | rd => exact h.checkRead
    | wr => exact h.checkWrite
  | _ => exact h

theorem RecordsOk.takeByte (b : Byte) (q : List Byte) : RecordsOk (s.takeByte b q) :=
  (RecordsOk.decStep (s := (s.setRxq q).setRxAny true) h b).afterByte

theorem RecordsOk.rxByte : RecordsOk s.rxByte := by
  by_cases hf : s.fph = .wait
  · cases hq : s.rxq with
    | nil => simpa [State.rxByte, hf, hq] using h
    | cons b q => rw [State.rxByte_cons s b q hf hq]; exact h.takeByte b q
  · rw [State.rxByte_of_not_wait s hf]; exact h

/-- Only the last TICK delivers, and what it delivers is the timeout's error (R228). -/
theorem RecordsOk.tick : RecordsOk s.tick := by
  by_cases hf : s.fph = .wait
  · by_cases ht : s.tmr = 1
    · rw [State.tick_of_last s hf ht]
      exact RecordsOk.raise (s := s.loadTimer 0) h (s.timeoutError_ne_device 0)
    · rw [State.tick_of_not_last s hf ht]; exact h
  · rw [State.tick_of_not_wait s hf]; exact h

theorem RecordsOk.txDone : RecordsOk s.txDone := h.of_eq rfl rfl

theorem RecordsOk.txFail (k : Nat) : RecordsOk (s.txFail k) :=
  RecordsOk.raise (s := s.transmit _) h nofun

/-- RESET delivers nothing and clears RES (R36, R321). -/
theorem RecordsOk.doReset (k : Nat) : RecordsOk (s.doReset k) := by
  obtain ⟨hlegal, _⟩ := h
  exact ⟨hlegal, .inl rfl⟩

end

/-! ## Sequences of bytes -/

theorem RecordsOk.foldl_stepCrc (x : List Byte) {s : State} (h : RecordsOk s) :
    RecordsOk (x.foldl State.stepCrc s) := by
  induction x generalizing s with
  | nil => exact h
  | cons b x ih => exact ih (h.stepCrc b)

theorem RecordsOk.decFeed (w : List Byte) {s : State} (h : RecordsOk s) : RecordsOk (s.decFeed w) := by
  induction w generalizing s with
  | nil => exact h
  | cons b w ih =>
    have hb : RecordsOk (s.decStep b) := h.decStep b
    rw [State.decFeed_cons, State.feedOn]
    split
    · exact hb
    all_goals exact ih hb

/-! ## Commands -/

/-- Every command answers a next state, and what it delivers is legal. -/
theorem RecordsOk.exec_command {s : State} (h : RecordsOk s) (i : Instr) (hp : i.port = .command) :
    ∃ t, exec i s = .next t ∧ RecordsOk t := by
  cases i with
  | crcInit => exact ⟨_, rfl, h.whenReady (RecordsOk.complete (s := s.setCrc _) h _)⟩
  | crcByte b => exact ⟨_, rfl, h.whenReady ((h.stepCrc b).complete _)⟩
  | crcGet => exact ⟨_, rfl, h.whenReady (h.noteCrcRead.complete _)⟩
  | crcBlk x => exact ⟨_, rfl, h.whenReady ((RecordsOk.foldl_stepCrc x (s := s.setCrc _) h).complete _)⟩
  | decode w => exact ⟨_, rfl, h.whenReady (RecordsOk.decFeed w (s := s.decReset) h).decVerdict⟩
  | encode op pay =>
    refine ⟨_, rfl, h.whenReady ?_⟩
    split
    · exact h.raise nofun
    · next hl => exact (h.buildFrame op pay (Nat.not_lt.1 hl)).complete _
  | xfer op pay tmo =>
    refine ⟨_, rfl, h.whenReady ?_⟩
    split_ifs with hl
    · exact h.raise nofun
    · exact h.raise nofun
    · exact RecordsOk.startTransaction (s := { s with odk := .none }) h op pay tmo (Nat.not_lt.1 hl)
  | odRead idx sub wid sgn tmo =>
    refine ⟨_, rfl, h.whenReady ?_⟩
    cases Width.ofByte wid with
    | none => exact h.raise nofun
    | some width =>
      dsimp only
      split
      · exact h.raise nofun
      · exact RecordsOk.startTransaction
          (s := { s with idx := idx, sub := sub, wid := width, sgn := sgn, odk := .rd, reqop := s.cfg.opRead })
          h _ _ tmo (readPayload_length_le _ _)
  | odWrite idx sub val wid tmo =>
    refine ⟨_, rfl, h.whenReady ?_⟩
    cases Width.ofByte wid with
    | none => exact h.raise nofun
    | some width =>
      dsimp only
      split
      · exact h.raise nofun
      · exact RecordsOk.startTransaction
          (s := { s with idx := idx, sub := sub, wid := width, val := val, odk := .wr, reqop := s.cfg.opWrite })
          h _ _ tmo (writePayload_length_le _ _ _ _)
  | _ => simp [Instr.port] at hp

/-! ## Turns -/

/-- What the host's turn was when it answers a next state: the record stays on offer, a command runs, or an illegal code
is answered (R121, R301). -/
theorem offerCommand_next_cases (s t : State) (h : offerCommand s = .next t) :
    t = s ∨
      (∃ i rs, i.port = .command ∧ exec i { s with cmds := rs } = .next t) ∨
      ∃ rs, t = { s with cmds := rs }.raise (.command .illegal) := by
  unfold offerCommand at h
  split at h
  · cases h; exact .inl rfl
  · next r rs _ =>
    split at h
    · split at h
      · next i hd => exact .inr (.inl ⟨i, rs, decodeCommand_port r i hd, h⟩)
      · cases h; exact .inr (.inr ⟨rs, rfl⟩)
      -- every other decoding error is a refusal, which is no next state
      all_goals cases h
    · cases h; exact .inl rfl

/-- What TXRESULT was when it answers a next state: skipped, a write done, or a write failed (R224, R225, R233). -/
theorem transmitResult_next_cases (s t : State) (r : TxResult) (h : transmitResult r s = .next t) :
    t = s ∨ t = s.txDone ∨ ∃ k, t = s.txFail k := by
  by_cases hf : s.fph = .send
  · by_cases hw : s.wlen.toNat ≤ 520
    · cases r with
      | ok => rw [transmitResult_ok s hf hw] at h; cases h; exact .inr (.inl rfl)
      | fail k =>
        simp only [transmitResult, if_pos hf, if_pos hw] at h
        cases h; exact .inr (.inr ⟨k, rfl⟩)
    · simp only [transmitResult, if_pos hf, if_neg hw] at h; cases h
  · simp only [transmitResult, if_neg hf] at h; cases h; exact .inl rfl

/-- A RESET that answers a next state has reset the block (R320). -/
theorem resetEvent_next (s t : State) (k : Nat) (h : resetEvent k s = .next t) : t = s.doReset k := by
  unfold resetEvent at h
  split at h
  · cases h
  · cases h; rfl

/-- Whatever turn is taken, what it delivers is legal. -/
theorem RecordsOk.runTurn {s t : State} (h : RecordsOk s) (u : Turn) (hu : runTurn u s = .next t) : RecordsOk t := by
  cases u with
  | host =>
    rcases offerCommand_next_cases s t hu with rfl | ⟨i, rs, hp, hexec⟩ | ⟨rs, rfl⟩
    · exact h
    · obtain ⟨v, hv, hok⟩ := RecordsOk.exec_command (s := { s with cmds := rs }) h i hp
      cases hv.symm.trans hexec
      exact hok
    · exact RecordsOk.raise (s := { s with cmds := rs }) h nofun
  | txResult r =>
    rcases transmitResult_next_cases s t r hu with rfl | rfl | ⟨k, rfl⟩
    · exact h
    · exact h.txDone
    · exact h.txFail k
  | rxArrive bs => cases (frameArrives_eq s bs).symm.trans hu; exact h
  | rxByte => cases hu; exact h.rxByte
  | tick => cases hu; exact h.tick
  | reset k => rw [resetEvent_next s t k hu]; exact h.doReset k

/-- Settles O57: a step is one turn, and `RecordsOk.runTurn` says that each turn delivers legal records only. -/
theorem stepKeepsRecordsLegal : Obligations.StepKeepsRecordsLegal := by
  intro s t h hstep
  obtain ⟨_, ⟨_, rfl⟩ | ⟨u, ts, _, hturn⟩⟩ := step_next_cases s t hstep
  · exact h
  · exact RecordsOk.runTurn (s := { s with turns := ts }) h u hturn

end Sys2Proof.Machine
end

section
/-! The CRC generator as functions (40_crc.md R141 to R152) and its commands (R156 to R159). -/

namespace Sys2Proof.Machine

/-! ## One step of the shift register (R141) -/

theorem crcShift_eq (c : Cfg) (r : Half) :
    crcShift c r = (r <<< 1) ^^^ (if r.getLsbD 15 then c.crcPoly else 0) := by
  unfold crcShift crcBit
  cases r.getLsbD 15 <;> simp

/-- A data bit is XORed into the highest bit of the register before the shift. -/
theorem crcBit_eq (c : Cfg) (r : Half) (d : Bool) :
    crcBit c r d = (r <<< 1) ^^^ (if r.getLsbD 15 ^^ d then c.crcPoly else 0) := by
  unfold crcBit
  cases r.getLsbD 15 ^^ d <;> simp

/-- One step is linear in the register and the data bit together. -/
theorem crcBit_xor (c : Cfg) (r r' : Half) (d d' : Bool) :
    crcBit c (r ^^^ r') (d ^^ d') = crcBit c r d ^^^ crcBit c r' d' := by
  have hbit : ((r ^^^ r').getLsbD 15 ^^ (d ^^ d')) = ((r.getLsbD 15 ^^ d) ^^ (r'.getLsbD 15 ^^ d')) := by
    rw [BitVec.getLsbD_xor]
    simp only [Bool.xor_assoc, Bool.xor_left_comm]
  have hpoly : ∀ x y : Bool,
      (if x ^^ y then c.crcPoly else 0) = (if x then c.crcPoly else 0) ^^^ (if y then c.crcPoly else 0) := by
    intro x y
    cases x <;> cases y <;> simp
  rw [crcBit_eq, crcBit_eq, crcBit_eq, hbit, hpoly, BitVec.shiftLeft_xor_distrib]
  ac_rfl

theorem crcShift_xor (c : Cfg) (r r' : Half) : crcShift c (r ^^^ r') = crcShift c r ^^^ crcShift c r' :=
  crcBit_xor c r r' false false

/-! ## The two forms of `crc_byte` (R144) -/

/-- While the bits of a byte enter one by one, the register differs from the one with the whole byte XORed in first by
the bits that are still to come. -/
theorem crcShift_xor_pending (c : Cfg) (r : Half) (b : Byte) (k : Nat) (hk : k < 8) :
    crcShift c (r ^^^ (b.setWidth 16 <<< (8 + k))) =
      crcBit c r (b.getLsbD (7 - k)) ^^^ (b.setWidth 16 <<< (8 + (k + 1))) := by
  have htop : (b.setWidth 16 <<< (8 + k)).getLsbD 15 = b.getLsbD (7 - k) := by
    rw [BitVec.getLsbD_shiftLeft, BitVec.getLsbD_setWidth, show 15 - (8 + k) = 7 - k by omega]
    simp [show ¬ 15 < 8 + k by omega, show 7 - k < 16 by omega]
  rw [crcShift_eq, crcBit_eq, BitVec.getLsbD_xor, htop, BitVec.shiftLeft_xor_distrib, ← BitVec.shiftLeft_add,
    Nat.add_assoc]
  ac_rfl

/-- Settles O1: after the eighth step no bit of the byte is still to come. -/
theorem crcByteFormsAgree : Obligations.CrcByteFormsAgree := by
  intro c r b
  have hnone : (crcIn c b).setWidth 16 <<< (8 + 8) = 0#16 := BitVec.shiftLeft_eq_zero (Nat.le_refl 16)
  have hstep := fun r k hk => crcShift_xor_pending c r (crcIn c b) k hk
  symm
  calc crcByteParallel c r b
      = crcShift c (crcShift c (crcShift c (crcShift c (crcShift c (crcShift c (crcShift c (crcShift c
          (r ^^^ ((crcIn c b).setWidth 16 <<< (8 + 0)))))))))) := rfl
    _ = crcByte c r b ^^^ ((crcIn c b).setWidth 16 <<< (8 + 8)) := by
        rw [hstep _ 0 (by decide), hstep _ 1 (by decide), hstep _ 2 (by decide), hstep _ 3 (by decide),
          hstep _ 4 (by decide), hstep _ 5 (by decide), hstep _ 6 (by decide), hstep _ 7 (by decide)]
        rfl
    _ = crcByte c r b := by rw [hnone, BitVec.xor_zero]

/-! ## Linearity (R148) -/

/-- Reversing the bits of a byte is linear (R9). -/
theorem rev8_xor (a b : Byte) : rev8 (a ^^^ b) = rev8 a ^^^ rev8 b := by
  apply BitVec.eq_of_getLsbD_eq
  intro i hi
  simp [rev8, hi]

theorem crcIn_xor (c : Cfg) (a b : Byte) : crcIn c (a ^^^ b) = crcIn c a ^^^ crcIn c b := by
  unfold crcIn
  split
  · exact rev8_xor a b
  · rfl

theorem crcByte_xor (c : Cfg) (r r' : Half) (b b' : Byte) :
    crcByte c (r ^^^ r') (b ^^^ b') = crcByte c r b ^^^ crcByte c r' b' := by
  simp only [crcByte, crcIn_xor, BitVec.getLsbD_xor, List.foldl_cons, List.foldl_nil, crcBit_xor]

/-- The register over two sequences of equal length is linear. -/
theorem crcFrom_zipWith_xor (c : Cfg) (i j : Half) (s t : List Byte) (h : s.length = t.length) :
    crcFrom c (i ^^^ j) (List.zipWith (fun x y => x ^^^ y) s t) = crcFrom c i s ^^^ crcFrom c j t := by
  induction s generalizing i j t with
  | nil => rw [List.eq_nil_of_length_eq_zero h.symm]; rfl
  | cons b s ih =>
    cases t with
    | nil => simp at h
    | cons b' t =>
      rw [List.zipWith_cons_cons, crcFrom_cons, crcByte_xor, ih _ _ t (Nat.succ.inj h), crcFrom_cons, crcFrom_cons]

/-- Settles O2. -/
theorem crcIsLinear : Obligations.CrcIsLinear :=
  ⟨fun c r r' b b' => crcByte_xor c r r' b b', fun c i j s t h => crcFrom_zipWith_xor c i j s t h⟩

/-- Two registers stay as far apart as their difference, whatever the same bytes do to both. -/
theorem crcFrom_xor_crcFrom (c : Cfg) (i j : Half) (s : List Byte) :
    crcFrom c i s ^^^ crcFrom c j s = crcFrom c (i ^^^ j) (List.replicate s.length 0) := by
  rw [← crcFrom_zipWith_xor c i j s s rfl]
  congr 1
  rw [List.zipWith_self]
  exact List.eq_replicate_iff.2 ⟨List.length_map _, by simp⟩

/-! ## The residue (R150) -/

/-- The register after eight shifts. -/
theorem crcByte_eq_shifts (c : Cfg) (r : Half) (b : Byte) :
    crcByte c r b = (crcShift c)^[8] (r ^^^ ((crcIn c b).setWidth 16 <<< 8)) :=
  crcByteFormsAgree c r b

/-- A low byte is shifted to the high byte without meeting the polynomial. -/
theorem crcShift_iterate_lowByte (c : Cfg) (l : Byte) (k : Nat) (hk : k ≤ 8) :
    (crcShift c)^[k] (l.setWidth 16) = l.setWidth 16 <<< k := by
  induction k with
  | zero => simp
  | succ k ih =>
    have htop : (l.setWidth 16 <<< k).getLsbD 15 = false := by
      rw [BitVec.getLsbD_shiftLeft, BitVec.getLsbD_setWidth, BitVec.getLsbD_of_ge l _ (by omega)]
      simp
    rw [Function.iterate_succ_apply', ih (by omega), crcShift_eq, htop, ← BitVec.shiftLeft_add]
    simp

theorem crcShift_iterate_zero (c : Cfg) (k : Nat) : (crcShift c)^[k] 0 = 0 :=
  Function.iterate_fixed (by simp [crcShift_eq]) k

/-- The high byte of the register cancels itself, and the low byte is left. -/
theorem xor_hi8 (r : Half) : r ^^^ ((hi8 r).setWidth 16 <<< 8) = (lo8 r).setWidth 16 := by
  apply BitVec.eq_of_getLsbD_eq
  intro i hi
  rw [BitVec.getLsbD_xor, BitVec.getLsbD_shiftLeft, BitVec.getLsbD_setWidth, BitVec.getLsbD_setWidth]
  simp only [hi8, lo8, BitVec.getLsbD_extractLsb']
  by_cases h : i < 8
  · simp [h, hi]
  · have h1 : i - 8 < 8 := by omega
    have h2 : i - 8 < 16 := by omega
    simp [h, hi, h1, h2, show 8 + (i - 8) = i by omega]

/-- With bytes entering most significant bit first, a register fed its own bytes, high byte first, is cleared. -/
theorem crcByte_hi8_lo8 (c : Cfg) (r : Half) (hin : c.crcRefin = false) :
    crcByte c (crcByte c r (hi8 r)) (lo8 r) = 0 := by
  have hbyte : ∀ b, crcIn c b = b := fun b => by simp [crcIn, hin]
  rw [crcByte_eq_shifts c r, hbyte, xor_hi8, crcShift_iterate_lowByte c _ 8 (Nat.le_refl 8), crcByte_eq_shifts, hbyte,
    BitVec.xor_self]
  exact crcShift_iterate_zero c 8

/-- Settles O4: the law from `crcByte_hi8_lo8`; in the default configuration the low byte goes first, and the field of
the one byte 1 leaves something. -/
theorem crcResidueIsZero : Obligations.CrcResidueIsZero := by
  refine ⟨fun c r => crcByte_hi8_lo8 c r, fun c x hin hout hxor hlo => ?_, ⟨[1], by decide +kernel⟩⟩
  have hfinal : crcOf c x = crcFrom c c.crcInit x := by simp [crcOf, crcFinal, hout, hxor]
  rw [crcField, hlo, hfinal, crcFrom_append]
  exact crcByte_hi8_lo8 c _ hin

/-! ## Single bits (R152)

Let `k` be the lowest bit of CRC_POLY that is set. No shift clears a register of which the bits below `k` are clear: a
bit that leaves at the top brings bit `k` in. A single bit moves up to the top and then becomes CRC_POLY. -/

/-- The difference of two registers that a single bit has set apart: a bit on its way up, or a register that is not
cleared any more. -/
def Apart (k : Nat) (r : Half) : Prop :=
  (∃ i, i < 16 ∧ r = 1#16 <<< i) ∨ (r ≠ 0 ∧ ∀ i, i < k → r.getLsbD i = false)

theorem Apart.ne_zero {k : Nat} {r : Half} (h : Apart k r) : r ≠ 0 := by
  rcases h with ⟨i, hi, rfl⟩ | ⟨h, _⟩
  · intro h0
    have hbit := congrArg (fun v : Half => v.getLsbD i) h0
    simp [hi] at hbit
  · exact h

/-- A shift whose top bit is clear loses nothing. -/
theorem shiftLeft_one_ne_zero (r : Half) (hr : r ≠ 0) (htop : r.getLsbD 15 = false) : r <<< 1 ≠ 0 := by
  intro h0
  refine hr (BitVec.eq_of_getLsbD_eq fun i hi => ?_)
  rcases Nat.lt_or_ge (i + 1) 16 with hlt | hge
  · have hbit := congrArg (fun v : Half => v.getLsbD (i + 1)) h0
    simp only [BitVec.getLsbD_shiftLeft, hlt, Nat.add_sub_cancel] at hbit
    simpa using hbit
  · rw [show i = 15 by omega, htop]; simp

theorem Apart.crcShift {c : Cfg} {k : Nat} {r : Half} (hk : c.crcPoly.getLsbD k = true)
    (hlow : ∀ i, i < k → c.crcPoly.getLsbD i = false) (h : Apart k r) : Apart k (crcShift c r) := by
  have hpoly : c.crcPoly ≠ 0 := fun h0 => by simp [h0] at hk
  rw [crcShift_eq]
  rcases h with ⟨i, hi, rfl⟩ | ⟨hr, hclear⟩
  · rcases Nat.lt_or_ge (i + 1) 16 with hlt | hge
    · have htop : (1#16 <<< i).getLsbD 15 = false := by simp; omega
      refine .inl ⟨i + 1, hlt, ?_⟩
      rw [htop, BitVec.shiftLeft_add]
      simp
    · have h15 : i = 15 := by omega
      subst h15
      have hshift : (1#16 <<< 15) <<< 1 ^^^ (if (1#16 <<< 15).getLsbD 15 then c.crcPoly else 0) = c.crcPoly := by
        simp
      rw [hshift]
      exact .inr ⟨hpoly, hlow⟩
  · have hclear' : ∀ i, i < k + 1 → (r <<< 1).getLsbD i = false := by
      intro i hi
      rw [BitVec.getLsbD_shiftLeft]
      cases i with
      | zero => simp
      | succ i => simp [hclear i (by omega)]
    refine .inr ⟨?_, fun i hi => ?_⟩
    · cases htop : r.getLsbD 15 with
      | false => simpa using shiftLeft_one_ne_zero r hr htop
      | true =>
        intro h0
        have hbit := congrArg (fun v : Half => v.getLsbD k) h0
        simp [BitVec.getLsbD_xor, hclear' k (by omega), hk] at hbit
    · rw [BitVec.getLsbD_xor, hclear' i (by omega)]
      split <;> simp [hlow i hi]

theorem Apart.iterate {c : Cfg} {k : Nat} {r : Half} (hk : c.crcPoly.getLsbD k = true)
    (hlow : ∀ i, i < k → c.crcPoly.getLsbD i = false) (h : Apart k r) (m : Nat) : Apart k ((Machine.crcShift c)^[m] r) := by
  induction m with
  | zero => exact h
  | succ m ih => rw [Function.iterate_succ_apply']; exact ih.crcShift hk hlow

/-- Zero bytes only shift. -/
theorem Apart.crcFrom_zeros {c : Cfg} {k : Nat} {r : Half} (hk : c.crcPoly.getLsbD k = true)
    (hlow : ∀ i, i < k → c.crcPoly.getLsbD i = false) (h : Apart k r) (m : Nat) :
    Apart k (crcFrom c r (List.replicate m 0)) := by
  have hzero : crcIn c 0 = 0 := by simpa using crcIn_xor c 0 0
  induction m generalizing r with
  | zero => exact h
  | succ m ih =>
    rw [List.replicate_succ, crcFrom_cons]
    refine ih ?_
    rw [crcByte_eq_shifts, hzero]
    simpa using h.iterate hk hlow 8

/-- A single bit stays one when its byte is reversed (R9, R143). -/
theorem crcIn_singleBit (c : Cfg) (k : Nat) (hk : k < 8) : ∃ j, j < 8 ∧ crcIn c (1#8 <<< k) = 1#8 <<< j := by
  unfold crcIn
  split
  · have hrev : ∀ k, k < 8 → rev8 (1#8 <<< k) = 1#8 <<< (7 - k) := by decide
    exact ⟨7 - k, by omega, hrev k hk⟩
  · exact ⟨k, hk, rfl⟩

/-- The lowest bit that is set. -/
theorem exists_lowest_bit (p : Half) (h : p ≠ 0) :
    ∃ k, p.getLsbD k = true ∧ ∀ i, i < k → p.getLsbD i = false := by
  have hex : ∃ k, p.getLsbD k = true := by
    by_contra hnone
    push Not at hnone
    exact h (BitVec.eq_of_getLsbD_eq fun i _ => by simpa using hnone i)
  exact ⟨Nat.find hex, Nat.find_spec hex, fun i hi => by simpa using Nat.find_min hex hi⟩

/-- Reversing the bits of a word loses nothing (R9). -/
theorem rev16_injective (a b : Half) (h : rev16 a = rev16 b) : a = b := by
  apply BitVec.eq_of_getLsbD_eq
  intro i hi
  have hbit := congrArg (fun v : Half => v.getLsbD (15 - i)) h
  simpa [rev16, BitVec.getLsbD_ofFnLE, show 15 - i < 16 by omega, show 15 - (15 - i) = i by omega] using hbit

/-- `crc_final` loses nothing (R145). -/
theorem crcFinal_injective (c : Cfg) (a b : Half) (h : crcFinal c a = crcFinal c b) : a = b := by
  unfold crcFinal at h
  have h' := (BitVec.xor_left_inj _).1 h
  split at h'
  · exact rev16_injective a b h'
  · exact h'

/-- Settles O5: the two registers differ by a single bit where the byte enters, and are apart ever after. -/
theorem crcSeesEverySingleBit : Obligations.CrcSeesEverySingleBit := by
  intro c p q b k hpoly hk heq
  obtain ⟨low, hlow, hbelow⟩ := exists_lowest_bit c.crcPoly hpoly
  obtain ⟨j, hj, hbit⟩ := crcIn_singleBit c k hk
  have hreg := crcFinal_injective c _ _ heq
  rw [crcFrom_append, crcFrom_append, crcFrom_cons, crcFrom_cons] at hreg
  generalize crcFrom c c.crcInit p = r at hreg
  have hdiff : crcByte c r b ^^^ crcByte c r (b ^^^ (1#8 <<< k)) = (crcShift c)^[8] (1#16 <<< (8 + j)) := by
    have hshift : ((1#8 <<< j).setWidth 16 : Half) <<< 8 = 1#16 <<< (8 + j) := by
      have hall : ∀ j, j < 8 → ((1#8 <<< j).setWidth 16 : Half) <<< 8 = 1#16 <<< (8 + j) := by decide
      exact hall j hj
    rw [← crcByte_xor, BitVec.xor_self, ← BitVec.xor_assoc, BitVec.xor_self, BitVec.zero_xor, crcByte_eq_shifts, hbit,
      hshift, BitVec.zero_xor]
  have hapart : Apart low ((crcShift c)^[8] (1#16 <<< (8 + j))) :=
    Apart.iterate hlow hbelow (.inl ⟨8 + j, by omega, rfl⟩) 8
  refine (hapart.crcFrom_zeros hlow hbelow q.length).ne_zero ?_
  rw [← hdiff, ← crcFrom_xor_crcFrom, hreg, BitVec.xor_self]
  rfl

/-! ## The commands (R156 to R159) -/

/-- Settles O6. -/
theorem crcInitCompletes : Obligations.CrcInitCompletes := by
  intro s hb
  show execCrcInit s = _
  rw [execCrcInit, State.whenReady_of_idle s _ hb]
  rfl

/-- `CRC <- crc_byte(CRC, b)`, register by register (R37). -/
theorem State.stepCrc_eq (s : State) (b : Byte) :
    s.stepCrc b =
      { s with
        crc := crcByte s.cfg (if s.crcSet then s.crc else Config.freeCrc s.draws) b
        crcSet := true, draws := if s.crcSet then s.draws else s.draws + 1 } := by
  unfold State.stepCrc State.noteCrcRead State.crcValue
  split <;> rfl

/-- Settles O7. -/
theorem crcByteCompletes : Obligations.CrcByteCompletes := by
  intro s b hb
  show execCrcByte b s = _
  rw [execCrcByte, State.whenReady_of_idle s _ hb, State.stepCrc_eq]
  rfl

/-- Settles O8. -/
theorem crcGetCompletes : Obligations.CrcGetCompletes := by
  intro s hb r
  show execCrcGet s = _
  rw [execCrcGet, State.whenReady_of_idle s _ hb]
  show Host.Outcome.next (s.noteCrcRead.finish r) = _
  unfold State.noteCrcRead
  split <;> rfl

/-- Once CRC holds a value, stepping it over bytes changes CRC alone. -/
theorem State.foldl_stepCrc (s : State) (x : List Byte) (h : s.crcSet = true) :
    x.foldl State.stepCrc s = s.setCrc (crcFrom s.cfg s.crc x) := by
  induction x generalizing s with
  | nil => exact (State.setCrc_self s h).symm
  | cons b x ih =>
    rw [List.foldl_cons, State.stepCrc_of_set s h, ih (s.setCrc _) rfl]
    rfl

/-- Settles O9. -/
theorem crcBlkCompletes : Obligations.CrcBlkCompletes := by
  intro s x hb r
  show execCrcBlk x s = _
  rw [execCrcBlk, State.whenReady_of_idle s _ hb]
  dsimp only
  rw [State.foldl_stepCrc _ x rfl]
  rfl

/-! ## Block by block (R149) -/

/-- CRC.BYTE for each byte, then CRC.GET. -/
theorem runInstrs_crcBytes (s : State) (x : List Byte) (hb : s.busy = false) (h : s.crcSet = true) :
    ∃ t, runInstrs (x.map Instr.crcByte ++ [Instr.crcGet]) s = some t ∧ t.crc = crcFrom s.cfg s.crc x ∧
      t.res = some (.ok (.crc (crcFinal s.cfg (crcFrom s.cfg s.crc x)))) := by
  induction x generalizing s with
  | nil =>
    simp only [List.map_nil, List.nil_append, runInstrs, crcGetCompletes s hb, h]
    exact ⟨_, rfl, rfl, rfl⟩
  | cons b x ih =>
    simp only [List.map_cons, List.cons_append, runInstrs, crcByteCompletes s b hb, h]
    exact ih _ rfl rfl

/-- Settles O3: CRC.INIT loads the seed, and the CRC.BYTEs step it. -/
theorem crcIsIncremental : Obligations.CrcIsIncremental := by
  refine ⟨crcFrom_append, fun s x hb => ?_⟩
  simp only [runInstrs, crcInitCompletes s hb]
  exact runInstrs_crcBytes _ x rfl rfl

end Sys2Proof.Machine
end

section
/-! Stuffing and unstuffing as functions (30_encoding.md R105; 41_frame_encode.md R170 to R173, R180): tokens, lengths
and the round trip. -/

namespace Sys2Proof.Machine

/-! ## Stuffing (R171, R180) -/

/-- The token of one byte (R171). -/
def token (c : Cfg) (b : Byte) : List Byte := if b ∈ c.reserved then [c.esc, b] else [b]

/-- A stuffed sequence is its tokens put together. -/
theorem stuff_eq_flatten (c : Cfg) (s : List Byte) : stuff c s = (s.map (token c)).flatten := by
  induction s with
  | nil => rfl
  | cons b s ih =>
    rw [List.map_cons, List.flatten_cons, ← ih, stuff, token]
    split <;> rfl

/-- Stuffing adds one byte for each reserved byte (R171). -/
theorem stuff_length (c : Cfg) (s : List Byte) :
    (stuff c s).length = s.length + s.countP (fun b => decide (b ∈ c.reserved)) := by
  induction s with
  | nil => rfl
  | cons b s ih =>
    rw [stuff]
    split
    case isTrue hb => simp [ih, hb]; omega
    case isFalse hb => simp [ih, hb]; omega

/-- Settles O10: the tokens are those of the bytes. -/
theorem stuffedSequencesAreTokens : Obligations.StuffedSequencesAreTokens := by
  intro c s
  refine ⟨s.map (token c), stuff_eq_flatten c s, ?tokens, stuff_length c s, ?atLeast, stuff_length_le c s⟩
  case tokens =>
    rw [List.forall₂_map_right_iff, List.forall₂_same]
    intro b _
    unfold token
    split
    case isTrue hb => exact .inr ⟨hb, rfl⟩
    case isFalse hb => exact .inl ⟨hb, rfl⟩
  case atLeast => rw [stuff_length]; omega

/-- Settles O11: the marker, the stuffed content of `|pay| + 4` bytes, and the end marker when configured; the bound is
`wireFrame_length_le`. -/
theorem encodedFrameLength : Obligations.EncodedFrameLength := by
  intro c op pay hl
  refine ⟨?_, wireFrame_length_le c op pay _ hl⟩
  have hcontent : (frameContent c op pay (crcOf c (frameBody op pay))).length = pay.length + 4 := by
    simp [frameContent, frameBody]
  have hend : (endPart c).length = if c.endPresent then 1 else 0 := by unfold endPart; split <;> rfl
  rw [encodeFrame, wireFrame, List.length_cons, List.length_append, stuff_length, hcontent, hend]
  omega

/-! ## Unstuffing (R173, R191) -/

/-- An escape byte makes the next byte a content byte, whatever it is. -/
theorem unstuff_esc (c : Cfg) (b : Byte) (s : List Byte) :
    unstuff c (c.esc :: b :: s) = (unstuff c s).map (b :: ·) := by
  rw [unstuff, if_pos rfl]

/-- Every other byte is a content byte itself. -/
theorem unstuff_plain (c : Cfg) (b : Byte) (s : List Byte) (hb : b ≠ c.esc) :
    unstuff c (b :: s) = (unstuff c s).map (b :: ·) := by
  cases s with
  | nil => simp [unstuff, hb]
  | cons b' s => rw [unstuff, if_neg hb]

/-- A token unstuffs to its byte. -/
theorem unstuff_token (c : Cfg) (hesc : c.esc ∈ c.reserved) (b : Byte) (s : List Byte) :
    unstuff c (stuff c [b] ++ s) = (unstuff c s).map (b :: ·) := by
  simp only [stuff]
  split
  case isTrue => exact unstuff_esc c b s
  case isFalse hb => exact unstuff_plain c b s fun h => hb (h ▸ hesc)

/-- Unstuffing undoes stuffing in front of any bytes. -/
theorem unstuff_stuff_append (c : Cfg) (hesc : c.esc ∈ c.reserved) (x s : List Byte) :
    unstuff c (stuff c x ++ s) = (unstuff c s).map (x ++ ·) := by
  induction x with
  | nil => simp [stuff]
  | cons b x ih =>
    rw [← List.singleton_append, stuff_append, List.append_assoc, unstuff_token c hesc, ih, Option.map_map]
    rfl

/-- Unstuffing undoes stuffing (R173). -/
theorem unstuff_stuff (c : Cfg) (hesc : c.esc ∈ c.reserved) (s : List Byte) : unstuff c (stuff c s) = some s := by
  simpa [unstuff] using unstuff_stuff_append c hesc s []

/-- Settles O12. -/
theorem unstuffingUndoesStuffing : Obligations.UnstuffingUndoesStuffing := fun c s hesc => unstuff_stuff c hesc s

end Sys2Proof.Machine
end

section
/-! ENCODE and the round trip with DECODE (41_frame_encode.md R176 to R178; 42_frame_decode.md R190 to R198). -/

namespace Sys2Proof.Machine

/-! ## The encoder -/

/-- ENCODE on a ready port (R176). -/
theorem exec_encode (s : State) (op : Byte) (pay : List Byte) (hb : s.busy = false) (hl : pay.length ≤ 255) :
    exec (.encode op pay) s = .next ((s.built op pay).complete (.wire (encodeFrame s.cfg op pay))) := by
  show execEncode op pay s = _
  rw [execEncode, State.whenReady_of_idle s _ hb, if_neg (Nat.not_lt.2 hl)]
  simp only [State.buildFrame_eq s op pay hl, State.wireBytes_built s op pay hl]

/-- The length register holds the length of a payload LEN can count. -/
theorem toNat_ofNat_length (pay : List Byte) (hl : pay.length ≤ 255) :
    (BitVec.ofNat 8 pay.length).toNat = pay.length := by
  rw [BitVec.toNat_ofNat]; omega

/-- Settles O13. -/
theorem encodeCompletes : Obligations.EncodeCompletes := by
  intro s op pay hb hl w
  refine ⟨_, exec_encode s op pay hb hl, ?payload, State.wireBytes_built s op pay hl, ?registers⟩
  case payload => exact State.payBytes_of_writeBytes _ s.pay pay rfl (toNat_ofNat_length pay hl)
  case registers => simp only [State.complete, State.finish, State.deliver, State.leaveBusy, State.built, w]

/-- PAY beyond a payload written at 0. -/
theorem Memory.read_writeBytes_beyond (m : Memory) (x : List Byte) (k : Nat) (hk : x.length ≤ k) :
    Memory.read (Memory.writeBytes m 0 x) k = Memory.read m k := by
  rw [Memory.read_writeBytes, if_neg (by omega)]

/-! ## The decoder on an encoded frame -/

/-- DECODE on a ready port (R198). -/
theorem exec_decode (s : State) (w : List Byte) (hb : s.busy = false) :
    exec (.decode w) s = .next ((s.decReset.decFeed w).decVerdict) := by
  show execDecode w s = _
  rw [execDecode, State.whenReady_of_idle s _ hb]

/-- Settles O16: the bytes of the frame leave the decoder in D_DONE (`State.decFeed_frame`), with the payload in PAY. -/
theorem decodeTakesEncodedFrame : Obligations.DecodeTakesEncodedFrame := by
  intro s op pay hwf hb hl
  have hfeed : s.decReset.decFeed (encodeFrame s.cfg op pay) = s.decoded op pay := by
    have h := State.decFeed_frame s.decReset op pay [] rfl hwf.2.1 hl
    rwa [List.append_nil] at h
  have hverdict : (s.decoded op pay).decVerdict = (s.decoded op pay).complete (.frame op (s.decoded op pay).payBytes) :=
    rfl
  rw [exec_decode s _ hb, hfeed, hverdict, State.payBytes_decoded s op pay hl]

/-- Settles O17: ENCODE returns the encoded frame and leaves the block idle, and DECODE takes that frame. -/
theorem encodeDecodeRoundTrip : Obligations.EncodeDecodeRoundTrip := by
  intro s op pay hwf hb hl
  let t := (s.built op pay).complete (.wire (encodeFrame s.cfg op pay))
  exact ⟨t, (t.decoded op pay).complete (.frame op pay), encodeFrame s.cfg op pay, exec_encode s op pay hb hl, rfl,
    decodeTakesEncodedFrame t op pay hwf rfl hl, rfl⟩

end Sys2Proof.Machine
end

section
/-! The decoder on any bytes whatever (42_frame_decode.md R190 to R203). What a byte sequence is to DEC is said first of
the bytes alone (`decode_bytes_cases`), then for each case what the registers are after it. -/

namespace Sys2Proof.Machine

/-! ## Tokens on the wire (R191) -/

/-- `t` stands on the wire for the content byte `b`: with an escape byte before it, or alone when it is not ESC. -/
def IsToken (c : Cfg) (b : Byte) (t : List Byte) : Prop := t = [c.esc, b] ∨ (b ≠ c.esc ∧ t = [b])

theorem IsToken.unstuff_append {c : Cfg} {b : Byte} {t : List Byte} (h : IsToken c b t) (s : List Byte) :
    unstuff c (t ++ s) = (unstuff c s).map (b :: ·) := by
  rcases h with rfl | ⟨hb, rfl⟩
  · exact unstuff_esc c b s
  · exact unstuff_plain c b s hb

/-- Any bytes are tokens one after the other, with or without a last escape byte that has no byte behind it. -/
theorem tokenInduction (c : Cfg) {P : List Byte → Prop} (nil : P []) (cut : P [c.esc])
    (token : ∀ b t s, IsToken c b t → P s → P (t ++ s)) (u : List Byte) : P u := by
  induction u using unstuff.induct c with
  | case1 => exact nil
  | case2 => exact cut
  | case3 b hb => exact token b [b] [] (.inr ⟨hb, rfl⟩) nil
  | case4 b s ih => exact token b [c.esc, b] s (.inl rfl) ih
  | case5 b b' s hb ih => exact token b [b] (b' :: s) (.inr ⟨hb, rfl⟩) ih

/-- Bytes that unstuff to nothing are none. -/
theorem eq_nil_of_unstuff (c : Cfg) (u : List Byte) (h : unstuff c u = some []) : u = [] := by
  induction u using tokenInduction c with
  | nil => rfl
  | cut => simp [unstuff] at h
  | token b t s ht _ => simp [ht.unstuff_append] at h

/-- Bytes that unstuff to a byte `b` and more begin with a token of `b`. -/
theorem unstuff_eq_cons (c : Cfg) (u : List Byte) (b : Byte) (y : List Byte) (h : unstuff c u = some (b :: y)) :
    ∃ t s, IsToken c b t ∧ u = t ++ s ∧ unstuff c s = some y := by
  induction u using tokenInduction c with
  | nil => simp [unstuff] at h
  | cut => simp [unstuff] at h
  | token a t s ht _ =>
    rw [ht.unstuff_append, Option.map_eq_some_iff] at h
    obtain ⟨z, hz, heq⟩ := h
    cases heq
    exact ⟨t, s, ht, rfl, hz⟩

/-- `u` holds the tokens of the content `x` and possibly a last escape byte: where a stream may be cut. -/
def CutAfter (c : Cfg) (u x : List Byte) : Prop :=
  unstuff c u = some x ∨ ∃ v, u = v ++ [c.esc] ∧ unstuff c v = some x

theorem CutAfter.token {c : Cfg} {b : Byte} {t u x : List Byte} (ht : IsToken c b t) (h : CutAfter c u x) :
    CutAfter c (t ++ u) (b :: x) := by
  rcases h with h | ⟨v, rfl, h⟩
  · exact .inl (by rw [ht.unstuff_append, h]; rfl)
  · exact .inr ⟨t ++ v, (List.append_assoc t v _).symm, by rw [ht.unstuff_append, h]; rfl⟩

/-! ## How long the content is (R193) -/

/-- The length of a content that begins with these bytes: LEN and four more, and at least four before LEN is known. -/
def contentLength : List Byte → Nat
  | _ :: len :: _ => len.toNat + 4
  | _ => 4

/-- The CRC field is not complete after these content bytes. -/
def Unfinished (x : List Byte) : Prop := x.length < contentLength x

theorem contentLength_append (x y : List Byte) (h : 2 ≤ x.length) : contentLength (x ++ y) = contentLength x := by
  match x, h with
  | op :: len :: p, _ => rfl

theorem four_le_contentLength (x : List Byte) : 4 ≤ contentLength x := by
  unfold contentLength; split <;> omega

theorem unfinished_nil : Unfinished [] := by simp [Unfinished, contentLength]

/-- A content is unfinished before its last byte. -/
theorem unfinished_of_lt (x y : List Byte) (hy : y ≠ []) (h : (x ++ y).length ≤ contentLength (x ++ y)) :
    Unfinished x := by
  have hpos := List.length_pos_of_ne_nil hy
  rw [List.length_append] at h
  by_cases hx : 2 ≤ x.length
  · rw [contentLength_append x y hx] at h
    exact (by omega : x.length < contentLength x)
  · exact Nat.lt_of_lt_of_le (by omega) (four_le_contentLength x)

/-- One more byte does not make a content too long. -/
theorem Unfinished.length_append_le {x : List Byte} (h : Unfinished x) (b : Byte) :
    (x ++ [b]).length ≤ contentLength (x ++ [b]) := by
  rw [List.length_append, List.length_singleton]
  by_cases hx : 2 ≤ x.length
  · rw [contentLength_append x _ hx]; exact h
  · exact Nat.le_trans (by omega) (four_le_contentLength _)

/-- The CRC field's bytes are those of its value (R103). -/
@[simp] theorem crcField_crcOfField (c : Cfg) (b0 b1 : Byte) : crcField c (crcOfField c b0 b1) = [b0, b1] := by
  unfold crcField crcOfField; split <;> simp

@[simp] theorem frameContent_length (c : Cfg) (op : Byte) (pay : List Byte) (v : Half) :
    (frameContent c op pay v).length = pay.length + 4 := by
  simp [frameContent, frameBody]

theorem contentLength_frameContent (c : Cfg) (op : Byte) (pay : List Byte) (v : Half) (hl : pay.length ≤ 255) :
    contentLength (frameContent c op pay v) = pay.length + 4 := by
  rw [← toNat_ofNat_length pay hl]; rfl

/-- The finished contents are those of the frames, with any CRC field (R101). -/
theorem exists_frameContent (c : Cfg) (x : List Byte) (h : x.length = contentLength x) :
    ∃ op pay v, pay.length ≤ 255 ∧ x = frameContent c op pay v := by
  match x with
  | [] => simp [contentLength] at h
  | [b] => simp [contentLength] at h
  | op :: len :: q =>
    simp only [List.length_cons, contentLength] at h
    have hlen := len.isLt
    have hpay : (q.take len.toNat).length = len.toNat := by rw [List.length_take]; omega
    obtain ⟨b0, b1, hfield⟩ : ∃ b0 b1, q.drop len.toNat = [b0, b1] :=
      List.length_eq_two.1 (by rw [List.length_drop]; omega)
    have hq : q.take len.toNat ++ [b0, b1] = q := by rw [← hfield, List.take_append_drop]
    refine ⟨op, q.take len.toNat, crcOfField c b0 b1, by omega, ?_⟩
    rw [frameContent, frameBody, crcField_crcOfField, hpay, BitVec.ofNat_toNat, BitVec.setWidth_eq, List.cons_append,
      List.cons_append, hq]

/-! ## What bytes are to the decoder -/

/-- Bytes behind the tokens of an unfinished content either leave it unfinished or contain the rest of a content. -/
theorem content_bytes_cases (c : Cfg) (u x : List Byte) (hx : Unfinished x) :
    (∃ y, Unfinished (x ++ y) ∧ CutAfter c u y) ∨
      ∃ v rest y, u = v ++ rest ∧ unstuff c v = some y ∧ (x ++ y).length = contentLength (x ++ y) := by
  induction u using tokenInduction c generalizing x with
  | nil => exact .inl ⟨[], by simpa using hx, .inl rfl⟩
  | cut => exact .inl ⟨[], by simpa using hx, .inr ⟨[], rfl, rfl⟩⟩
  | token b t s ht ih =>
    rcases Nat.lt_or_eq_of_le (hx.length_append_le b) with hb | hb
    · rcases ih (x ++ [b]) hb with ⟨y, hy, hcut⟩ | ⟨v, rest, y, rfl, hv, hy⟩
      · exact .inl ⟨b :: y, by simpa using hy, hcut.token ht⟩
      · refine .inr ⟨t ++ v, rest, b :: y, (List.append_assoc t v rest).symm, ?_, by simpa using hy⟩
        rw [ht.unstuff_append, hv]; rfl
    · exact .inr ⟨t, s, [b], rfl, by simpa [unstuff] using ht.unstuff_append [], hb⟩

/-- What any bytes are to DEC: none, bytes without START, START and the tokens of an unfinished content, or START, a
whole content and what stands behind it. -/
theorem decode_bytes_cases (c : Cfg) (w : List Byte) :
    w = [] ∨ (∃ b v, w = b :: v ∧ b ≠ c.start) ∨ (∃ u x, w = c.start :: u ∧ Unfinished x ∧ CutAfter c u x) ∨
      ∃ u rest op pay v, w = c.start :: (u ++ rest) ∧ pay.length ≤ 255 ∧
        unstuff c u = some (frameContent c op pay v) := by
  cases w with
  | nil => exact .inl rfl
  | cons b u =>
    by_cases hb : b = c.start
    · subst hb
      rcases content_bytes_cases c u [] unfinished_nil with ⟨x, hx, hcut⟩ | ⟨v, rest, x, rfl, hv, hx⟩
      · exact .inr (.inr (.inl ⟨u, x, rfl, hx, hcut⟩))
      · obtain ⟨op, pay, f, hl, hf⟩ := exists_frameContent c x hx
        exact .inr (.inr (.inr ⟨v, rest, op, pay, f, rfl, hl, hf ▸ hv⟩))
    · exact .inr (.inl ⟨b, u, rfl, hb⟩)

/-! ## The registers after content bytes -/

/-- `s` after START and the content bytes `x`. -/
def State.content (s : State) (x : List Byte) : State := x.foldl State.accept s.startBody

theorem State.content_append_singleton (s : State) (x : List Byte) (b : Byte) :
    s.content (x ++ [b]) = (s.content x).accept b := by
  simp [State.content]

/-- Payload bytes as far as LEN says. -/
theorem State.foldl_accept_inBody (s : State) (op len : Byte) (p q : List Byte) (h : p.length + q.length ≤ len.toNat) :
    q.foldl State.accept (s.inBody op len p) = s.inBody op len (p ++ q) := by
  induction q generalizing p with
  | nil => simp
  | cons b q ih =>
    rw [List.length_cons] at h
    rw [List.foldl_cons, State.inBody_accept s op len p b (by omega), ih (p ++ [b]) (by simp; omega),
      List.append_assoc, List.singleton_append]

theorem State.content_body (s : State) (op len : Byte) (p : List Byte) (h : p.length ≤ len.toNat) :
    s.content (op :: len :: p) = s.inBody op len p := by
  rw [State.content, List.foldl_cons, List.foldl_cons, State.startBody_accept, State.inOpc_accept,
    State.foldl_accept_inBody s op len [] p (by simpa using h), List.nil_append]

theorem State.content_crc (s : State) (op len : Byte) (p : List Byte) (b : Byte) (h : p.length = len.toNat) :
    s.content (op :: len :: (p ++ [b])) = s.inCrc op len p b := by
  rw [← List.cons_append, ← List.cons_append, State.content_append_singleton, State.content_body s op len p h.le,
    State.inBody_accept_crc s op len p b h]

/-- The decoder inside a frame: in D_BODY, with the bytes of an unfinished content in its registers. -/
theorem State.content_cases (s : State) (x : List Byte) (h : Unfinished x) :
    s.content x = s.startBody ∨ (∃ op, s.content x = s.inOpc op) ∨
      (∃ op len p, p.length ≤ len.toNat ∧ s.content x = s.inBody op len p) ∨
      ∃ op len p b, p.length = len.toNat ∧ s.content x = s.inCrc op len p b := by
  match x, h with
  | [], _ => exact .inl rfl
  | [op], _ => exact .inr (.inl ⟨op, State.startBody_accept s op⟩)
  | op :: len :: q, h =>
    simp only [Unfinished, List.length_cons, contentLength] at h
    rcases Nat.lt_or_ge len.toNat q.length with hq | hq
    · obtain ⟨p, b, rfl⟩ : ∃ p b, q = p ++ [b] :=
        ⟨_, _, (List.dropLast_append_getLast (List.ne_nil_of_length_pos (by omega))).symm⟩
      rw [List.length_append, List.length_singleton] at h hq
      exact .inr (.inr (.inr ⟨op, len, p, b, by omega, State.content_crc s op len p b (by omega)⟩))
    · exact .inr (.inr (.inl ⟨op, len, q, hq, State.content_body s op len q hq⟩))

/-- What holds of the decoder in each of the places inside a frame holds after any unfinished content. -/
theorem State.content_induction {P : State → Prop} (s : State) (start : P s.startBody) (opc : ∀ op, P (s.inOpc op))
    (body : ∀ op len p, p.length ≤ len.toNat → P (s.inBody op len p))
    (crc : ∀ op len p b, p.length = len.toNat → P (s.inCrc op len p b)) (x : List Byte) (h : Unfinished x) :
    P (s.content x) := by
  rcases s.content_cases x h with e | ⟨op, e⟩ | ⟨op, len, p, hp, e⟩ | ⟨op, len, p, b, hp, e⟩
  all_goals rw [e]
  · exact start
  · exact opc op
  · exact body op len p hp
  · exact crc op len p b hp

theorem State.content_inside (s : State) (x : List Byte) (h : Unfinished x) :
    (s.content x).dph = .body ∧ (s.content x).escf = false ∧ (s.content x).cfg = s.cfg :=
  State.content_induction (P := fun t => t.dph = .body ∧ t.escf = false ∧ t.cfg = s.cfg) s ⟨rfl, rfl, rfl⟩
    (fun _ => ⟨rfl, rfl, rfl⟩) (fun _ _ _ _ => ⟨rfl, rfl, rfl⟩) (fun _ _ _ _ _ => ⟨rfl, rfl, rfl⟩) x h

/-- After a whole content the decoder has compared the CRC field (R194). -/
theorem State.content_frame (s : State) (op : Byte) (pay : List Byte) (v : Half) (hl : pay.length ≤ 255) :
    s.content (frameContent s.cfg op pay v) =
      s.afterContent op (BitVec.ofNat 8 pay.length) pay v
        (phaseAfterCrc s.cfg op (BitVec.ofNat 8 pay.length) pay v) := by
  have hlen := toNat_ofNat_length pay hl
  obtain ⟨b0, b1, hf, hv⟩ : ∃ b0 b1, crcField s.cfg v = [b0, b1] ∧ crcOfField s.cfg b0 b1 = v := by
    unfold crcField crcOfField
    split
    · exact ⟨_, _, rfl, by simp⟩
    · exact ⟨_, _, rfl, by simp⟩
  have hsplit : frameContent s.cfg op pay v = (op :: BitVec.ofNat 8 pay.length :: (pay ++ [b0])) ++ [b1] := by
    simp [frameContent, frameBody, hf]
  rw [hsplit, State.content_append_singleton, State.content_crc s op _ pay b0 hlen.symm,
    State.inCrc_accept s op _ pay b0 b1 hlen.symm, hv]

/-! ## Feeding -/

/-- A token is accepted (R191). -/
theorem State.decFeed_isToken (s : State) (b : Byte) (t w : List Byte) (hd : s.dph = .body) (he : s.escf = false)
    (ht : IsToken s.cfg b t) : s.decFeed (t ++ w) = (s.accept b).feedOn w := by
  have hset : (s.setEsc true).setEsc false = s := by
    cases s; simp only at he; subst he; rfl
  rcases ht with rfl | ⟨hb, rfl⟩
  · have hesc : s.decStep s.cfg.esc = s.setEsc true := by simp [State.decStep, hd, he]
    have hnext : (s.setEsc true).decStep b = s.accept b := by
      simp only [State.decStep, State.setEsc_dph, hd, State.setEsc_escf, if_true, hset]
    rw [List.cons_append, State.decFeed_cons, hesc, State.feedOn_eq _ _ (by simp [hd]), List.singleton_append,
      State.decFeed_cons, hnext]
  · have hplain : s.decStep b = s.accept b := by simp [State.decStep, hd, he, hb]
    rw [List.singleton_append, State.decFeed_cons, hplain]

/-- Content bytes on the wire, stuffed in any way, are accepted one after the other, up to the end of the content. -/
theorem State.decFeed_unstuff (s : State) (u x y w : List Byte) (hu : unstuff s.cfg u = some y) (hx : Unfinished x)
    (hxy : (x ++ y).length ≤ contentLength (x ++ y)) :
    (s.content x).decFeed (u ++ w) = (s.content (x ++ y)).feedOn w := by
  obtain ⟨hd, he, hc⟩ := s.content_inside x hx
  induction y generalizing u x with
  | nil =>
    rw [eq_nil_of_unstuff _ u hu, List.nil_append, List.append_nil, State.feedOn_eq _ _ (by simp [hd])]
  | cons b y ih =>
    obtain ⟨t, v, ht, rfl, hv⟩ := unstuff_eq_cons _ u b y hu
    rw [List.append_cons] at hxy ⊢
    rw [List.append_assoc, State.decFeed_isToken (s.content x) b t (v ++ w) hd he (hc ▸ ht),
      ← State.content_append_singleton]
    by_cases hy : y = []
    · subst hy
      rw [eq_nil_of_unstuff _ v hv, List.nil_append, List.append_nil]
    · have hb : Unfinished (x ++ [b]) := unfinished_of_lt (x ++ [b]) y hy hxy
      obtain ⟨hd', he', hc'⟩ := s.content_inside (x ++ [b]) hb
      rw [State.feedOn_eq _ _ (by simp [hd']), ih v (x ++ [b]) hv hb hxy hd' he' hc']

/-! ## The phase behind a content (R195 to R197) -/

/-- The phase of the decoder after more bytes, once it has left D_BODY in phase `d`. -/
def tailPhase (c : Cfg) : DPhase → List Byte → DPhase
  | .endMark, b :: r => if b = c.endByte then (if r = [] then .done else .err .length) else .err .marker
  | .done, _ :: _ => .err .length
  | d, _ => d

/-- A byte after a complete frame (R196). -/
theorem State.decFeed_done (s : State) (b : Byte) (r : List Byte) (hd : s.dph = .done) :
    s.decFeed (b :: r) = s.setPhase (.err .length) := by
  have hstep : s.decStep b = s.decFail .length := by simp [State.decStep, hd]
  rw [State.decFeed_cons, hstep]
  rfl

/-- Behind a content only the phase changes. -/
theorem State.feedOn_tail (s : State) (r : List Byte) (hstart : s.dph ≠ .start) (hbody : s.dph ≠ .body) :
    s.feedOn r = s.setPhase (tailPhase s.cfg s.dph r) := by
  have hself : ∀ d, s.dph = d → s = s.setPhase d := by rintro _ rfl; rfl
  cases hd : s.dph with
  | start => exact absurd hd hstart
  | body => exact absurd hd hbody
  | err cause => simpa [State.feedOn, hd, tailPhase] using hself _ hd
  | done =>
    rw [State.feedOn_eq s r (by simp [hd])]
    cases r with
    | nil => exact hself _ hd
    | cons b r => exact State.decFeed_done s b r hd
  | endMark =>
    rw [State.feedOn_eq s r (by simp [hd])]
    cases r with
    | nil => exact hself _ hd
    | cons b r =>
      rw [State.decFeed_cons]
      by_cases hb : b = s.cfg.endByte
      · have hstep : s.decStep b = s.setPhase .done := by simp [State.decStep, hd, hb]
        rw [hstep, State.feedOn_eq _ _ (by simp)]
        cases r with
        | nil => simp [tailPhase, hb, State.decFeed]
        | cons b' r => rw [State.decFeed_done _ b' r rfl]; simp [tailPhase, hb, State.setPhase]
      · have hstep : s.decStep b = s.decFail .marker := by simp [State.decStep, hd, hb]
        rw [hstep]
        simp [tailPhase, hb, State.decFail, State.feedOn]

/-! ## DECODE on any bytes -/

/-- Bytes that do not begin with START (R190). -/
theorem State.decFeed_of_noStart (s : State) (b : Byte) (w : List Byte) (hd : s.dph = .start) (hb : b ≠ s.cfg.start) :
    s.decFeed (b :: w) = s.decFail .marker := by
  have hstep : s.decStep b = s.decFail .marker := by simp [State.decStep, hd, hb]
  rw [State.decFeed_cons, hstep]
  rfl

theorem State.decFeed_start (s : State) (u : List Byte) (hd : s.dph = .start) :
    s.decFeed (s.cfg.start :: u) = (s.content []).decFeed u := by
  have hstep : s.decStep s.cfg.start = s.startBody := by simp [State.decStep, hd]
  rw [State.decFeed_cons, hstep, State.feedOn_eq _ _ (by simp)]
  rfl

/-- START and the tokens of an unfinished content (R191, R193). -/
theorem State.decFeed_of_cut (s : State) (u x : List Byte) (hd : s.dph = .start) (hx : Unfinished x)
    (hu : CutAfter s.cfg u x) : ∃ e, s.decFeed (s.cfg.start :: u) = (s.content x).setEsc e := by
  obtain ⟨hbody, hescf, hcfg⟩ := s.content_inside x hx
  have hfeed : ∀ v w, unstuff s.cfg v = some x → s.decFeed (s.cfg.start :: (v ++ w)) = (s.content x).decFeed w := by
    intro v w hv
    rw [State.decFeed_start s _ hd, State.decFeed_unstuff s v [] x w hv unfinished_nil hx.le, List.nil_append,
      State.feedOn_eq _ _ (by simp [hbody])]
  rcases hu with hu | ⟨v, rfl, hv⟩
  · refine ⟨false, ?_⟩
    have hself : (s.content x).setEsc false = s.content x := by rw [State.setEsc, ← hescf]
    rw [hself, ← List.append_nil u, hfeed u [] hu]
    rfl
  · refine ⟨true, ?_⟩
    have hstep : (s.content x).decStep s.cfg.esc = (s.content x).setEsc true := by
      simp [State.decStep, hbody, hescf, hcfg]
    rw [hfeed v _ hv, State.decFeed_cons, hstep, State.feedOn_eq _ _ (by simp [hbody])]
    rfl

/-- The phase DECODE ends in after START, the content of a frame, stuffed in any way, and the bytes `rest`. -/
def framePhase (c : Cfg) (op : Byte) (pay : List Byte) (v : Half) (rest : List Byte) : DPhase :=
  tailPhase c (phaseAfterCrc c op (BitVec.ofNat 8 pay.length) pay v) rest

/-- START, a whole content and what stands behind it (R193 to R197). -/
theorem State.decFeed_of_frame (s : State) (u rest : List Byte) (op : Byte) (pay : List Byte) (v : Half)
    (hd : s.dph = .start) (hl : pay.length ≤ 255) (hu : unstuff s.cfg u = some (frameContent s.cfg op pay v)) :
    s.decFeed (s.cfg.start :: (u ++ rest)) =
      s.afterContent op (BitVec.ofNat 8 pay.length) pay v (framePhase s.cfg op pay v rest) := by
  have hfull : ([] ++ frameContent s.cfg op pay v).length ≤ contentLength ([] ++ frameContent s.cfg op pay v) := by
    rw [List.nil_append, contentLength_frameContent s.cfg op pay v hl, frameContent_length]
  have hphase : phaseAfterCrc s.cfg op (BitVec.ofNat 8 pay.length) pay v ≠ .start ∧
      phaseAfterCrc s.cfg op (BitVec.ofNat 8 pay.length) pay v ≠ .body := by
    unfold phaseAfterCrc; split_ifs <;> simp
  rw [State.decFeed_start s _ hd, State.decFeed_unstuff s u [] _ rest hu unfinished_nil hfull, List.nil_append,
    State.content_frame s op pay v hl, State.feedOn_tail _ rest hphase.1 hphase.2]
  rfl

end Sys2Proof.Machine
end

section
/-! The verdict of DECODE (42_frame_decode.md R198 to R203): which record any bytes bring, and what DECODE leaves
alone. -/

namespace Sys2Proof.Machine

/-! ## The record (R198) -/

/-- The record DECODE delivers on the state its bytes leave the decoder in. -/
def State.decRecord (s : State) : Completion :=
  match s.dph with
  | .err cause => (BlockError.frame cause).record
  | .done => .ok (.frame s.opc s.payBytes)
  | .start => (BlockError.frame .trunc).record
  | .body => (BlockError.frame .trunc).record
  | .endMark => (BlockError.frame .trunc).record

theorem State.decVerdict_eq (s : State) : s.decVerdict = s.finish s.decRecord := by
  unfold State.decVerdict State.decRecord
  cases s.dph <;> rfl

/-- PAY[0..LEN) is as long as LEN says. -/
theorem State.payBytes_length (s : State) : s.payBytes.length = s.len.toNat := by simp [State.payBytes]

/-- A result with a payload LEN can count, or a FrameError (R199). -/
theorem State.decRecord_cases (s : State) :
    (∃ op pay, s.decRecord = .ok (.frame op pay) ∧ pay.length ≤ 255) ∨
      ∃ c, s.decRecord = (BlockError.frame c).record := by
  unfold State.decRecord
  cases s.dph with
  | done =>
    have hlen := s.len.isLt
    exact .inl ⟨s.opc, s.payBytes, rfl, by rw [State.payBytes_length]; omega⟩
  | err cause => exact .inr ⟨cause, rfl⟩
  | _ => exact .inr ⟨.trunc, rfl⟩

/-- The decoder is left inside a frame. -/
theorem State.decRecord_of_body (s : State) (hd : s.dph = .body) : s.decRecord = (BlockError.frame .trunc).record := by
  rw [State.decRecord, hd]

/-- The record after START, the content of a frame and more bytes, by the phase they end in. -/
def frameRecord (op : Byte) (pay : List Byte) : DPhase → Completion
  | .done => .ok (.frame op pay)
  | .err cause => (BlockError.frame cause).record
  | .start => (BlockError.frame .trunc).record
  | .body => (BlockError.frame .trunc).record
  | .endMark => (BlockError.frame .trunc).record

theorem State.decRecord_afterContent (s : State) (op : Byte) (pay : List Byte) (v : Half) (d : DPhase)
    (hl : pay.length ≤ 255) :
    (s.afterContent op (BitVec.ofNat 8 pay.length) pay v d).decRecord = frameRecord op pay d := by
  have hpay : (s.afterContent op (BitVec.ofNat 8 pay.length) pay v d).payBytes = pay :=
    State.payBytes_of_writeBytes _ s.pay pay rfl (toNat_ofNat_length pay hl)
  cases d with
  | done => exact congrArg (fun p => Completion.ok (.frame op p)) hpay
  | _ => rfl

/-! ## What DECODE leaves alone (R35) -/

/-- Only the decoder's registers, the completion and the framer's phase may differ, and PAY inside PAY[0..LEN). -/
theorem DecodeFrame.intro (s : State) (crc rcrc : Half) (crcSet busy escf : Bool) (opc len : Byte) (pay : Memory)
    (res : Option Completion) (records : List Completion) (fph : FPhase) (dph : DPhase) (n : BitVec 9)
    (hpay : ∀ k, len.toNat ≤ k → Memory.read pay k = Memory.read s.pay k) :
    DecodeFrame s
      { s with
        crc := crc, rcrc := rcrc, crcSet := crcSet, busy := busy, escf := escf, opc := opc, len := len, pay := pay
        res := res, records := records, fph := fph, dph := dph, n := n } :=
  ⟨rfl, rfl, rfl, rfl, rfl, rfl, rfl, rfl, rfl, rfl, rfl, rfl, rfl, rfl, rfl, rfl, rfl, rfl, rfl, hpay⟩

/-- The end of a command writes none of the registers that DECODE leaves alone. -/
theorem DecodeFrame.finish {s t : State} (h : DecodeFrame s t) (r : Completion) : DecodeFrame s (t.finish r) := h

/-- From `s` to `t` the decoder has run and delivered nothing. -/
def DecoderRan (s t : State) : Prop := DecodeFrame s t ∧ t.records = s.records

theorem DecoderRan.of_samePay (s : State) (crc rcrc : Half) (crcSet escf : Bool) (opc len : Byte) (dph : DPhase)
    (n : BitVec 9) :
    DecoderRan s { s with crc := crc, rcrc := rcrc, crcSet := crcSet, escf := escf, opc := opc, len := len, dph := dph, n := n } :=
  ⟨DecodeFrame.intro s _ _ _ _ _ _ _ _ _ _ _ _ _ fun _ _ => rfl, rfl⟩

/-- A payload no longer than LEN has been stored. -/
theorem DecoderRan.of_payload (s : State) (crc rcrc : Half) (crcSet escf : Bool) (opc len : Byte) (p : List Byte)
    (dph : DPhase) (n : BitVec 9) (hp : p.length ≤ len.toNat) :
    DecoderRan s
      { s with
        crc := crc, rcrc := rcrc, crcSet := crcSet, escf := escf, opc := opc, len := len
        pay := Memory.writeBytes s.pay 0 p, dph := dph, n := n } :=
  ⟨DecodeFrame.intro s _ _ _ _ _ _ _ _ _ _ _ _ _ fun k hk =>
    Memory.read_writeBytes_beyond s.pay p k (Nat.le_trans hp hk), rfl⟩

theorem DecoderRan.content (s : State) (x : List Byte) (h : Unfinished x) : DecoderRan s (s.content x) :=
  State.content_induction (P := DecoderRan s) s (DecoderRan.of_samePay s _ _ _ _ _ _ _ _)
    (fun _ => DecoderRan.of_samePay s _ _ _ _ _ _ _ _)
    (fun _ _ _ hp => DecoderRan.of_payload s _ _ _ _ _ _ _ _ _ hp)
    (fun _ _ _ _ hp => DecoderRan.of_payload s _ _ _ _ _ _ _ _ _ hp.le) x h

theorem DecoderRan.afterContent (s : State) (op : Byte) (pay : List Byte) (v : Half) (d : DPhase)
    (hl : pay.length ≤ 255) : DecoderRan s (s.afterContent op (BitVec.ofNat 8 pay.length) pay v d) :=
  DecoderRan.of_payload s _ _ _ _ _ _ pay _ _ (toNat_ofNat_length pay hl).ge

/-- The bytes of DECODE go through the decoder alone. -/
theorem DecoderRan.decFeed (s : State) (w : List Byte) : DecoderRan s (s.decReset.decFeed w) := by
  rcases decode_bytes_cases s.cfg w with rfl | ⟨b, v, rfl, hb⟩ | ⟨u, x, rfl, hx, hcut⟩ | ⟨u, rest, op, pay, v, rfl, hl, hu⟩
  · exact DecoderRan.of_samePay s _ _ _ _ _ _ _ _
  · rw [State.decFeed_of_noStart s.decReset b v rfl hb]
    exact DecoderRan.of_samePay s _ _ _ _ _ _ _ _
  · obtain ⟨e, he⟩ := State.decFeed_of_cut s.decReset u x rfl hx hcut
    rw [show s.cfg.start = s.decReset.cfg.start from rfl, he]
    exact DecoderRan.content s.decReset x hx
  · rw [show s.cfg.start = s.decReset.cfg.start from rfl, State.decFeed_of_frame s.decReset u rest op pay v rfl hl hu]
    exact DecoderRan.afterContent s op pay v _ hl

/-- DECODE completes with the record of the state its bytes leave the decoder in, and touches nothing else. -/
theorem exec_decode_completes (s : State) (w : List Byte) (hb : s.busy = false) :
    ∃ t, exec (.decode w) s = .next t ∧ Completed s t (s.decReset.decFeed w).decRecord ∧ DecodeFrame s t := by
  obtain ⟨hframe, hrecords⟩ := DecoderRan.decFeed s w
  refine ⟨_, exec_decode s w hb, ?_⟩
  rw [State.decVerdict_eq]
  exact ⟨⟨rfl, congrArg (· ++ _) hrecords, rfl, rfl⟩, hframe.finish _⟩

/-- The completion of DECODE, once its record is known. -/
theorem exec_decode_of_record (s : State) (w : List Byte) (r : Completion) (hb : s.busy = false)
    (hr : (s.decReset.decFeed w).decRecord = r) : ∃ t, exec (.decode w) s = .next t ∧ Completed s t r := by
  obtain ⟨t, ht, hc, _⟩ := exec_decode_completes s w hb
  exact ⟨t, ht, hr ▸ hc⟩

/-- Settles O19. -/
theorem decodeIsTotal : Obligations.DecodeIsTotal := by
  intro s w hb
  obtain ⟨t, ht, hc, hframe⟩ := exec_decode_completes s w hb
  exact ⟨t, _, ht, hc, hframe, State.decRecord_cases _⟩

/-! ## The record of each kind of bytes (R200, R201) -/

theorem decRecord_nil (s : State) : (s.decReset.decFeed []).decRecord = (BlockError.frame .trunc).record := rfl

theorem decRecord_of_noStart (s : State) (b : Byte) (w : List Byte) (hb : b ≠ s.cfg.start) :
    (s.decReset.decFeed (b :: w)).decRecord = (BlockError.frame .marker).record := by
  rw [State.decFeed_of_noStart s.decReset b w rfl hb]
  rfl

theorem decRecord_of_cut (s : State) (u x : List Byte) (hx : Unfinished x) (hcut : CutAfter s.cfg u x) :
    (s.decReset.decFeed (s.cfg.start :: u)).decRecord = (BlockError.frame .trunc).record := by
  obtain ⟨e, he⟩ := State.decFeed_of_cut s.decReset u x rfl hx hcut
  obtain ⟨hd, _⟩ := s.decReset.content_inside x hx
  rw [show s.cfg.start = s.decReset.cfg.start from rfl, he]
  exact State.decRecord_of_body _ hd

theorem decRecord_of_frame (s : State) (u rest : List Byte) (op : Byte) (pay : List Byte) (v : Half)
    (hl : pay.length ≤ 255) (hu : unstuff s.cfg u = some (frameContent s.cfg op pay v)) :
    (s.decReset.decFeed (s.cfg.start :: (u ++ rest))).decRecord =
      frameRecord op pay (framePhase s.cfg op pay v rest) := by
  rw [show s.cfg.start = s.decReset.cfg.start from rfl, State.decFeed_of_frame s.decReset u rest op pay v rfl hl hu]
  exact State.decRecord_afterContent s.decReset op pay v _ hl

/-- Settles O20: the case the bytes fall in, and the record of the case, are the same for both states. -/
theorem decodeForgetsHistory : Obligations.DecodeForgetsHistory := by
  intro s s' w hb hb' hcfg
  have hrecord : (s.decReset.decFeed w).decRecord = (s'.decReset.decFeed w).decRecord := by
    rcases decode_bytes_cases s.cfg w with
      rfl | ⟨b, v, rfl, hne⟩ | ⟨u, x, rfl, hx, hcut⟩ | ⟨u, rest, op, pay, v, rfl, hl, hu⟩
    · rfl
    · rw [decRecord_of_noStart s b v hne, decRecord_of_noStart s' b v (hcfg ▸ hne)]
    · have h' := decRecord_of_cut s' u x hx (hcfg ▸ hcut)
      rw [decRecord_of_cut s u x hx hcut, hcfg, h']
    · have h' := decRecord_of_frame s' u rest op pay v hl (hcfg ▸ hu)
      rw [decRecord_of_frame s u rest op pay v hl hu, hcfg, h']
  obtain ⟨t, ht, ⟨hres, _⟩, _⟩ := exec_decode_completes s w hb
  obtain ⟨t', ht', ⟨hres', _⟩, _⟩ := exec_decode_completes s' w hb'
  exact ⟨t, t', ht, ht', by rw [hres, hres', hrecord]⟩

/-- The decoder ends in D_DONE exactly on a right CRC field and the end marker when configured (R194, R195). -/
theorem framePhase_eq_done_iff (c : Cfg) (op : Byte) (pay : List Byte) (v : Half) (rest : List Byte) :
    framePhase c op pay v rest = .done ↔ v = crcOf c (frameBody op pay) ∧ rest = endPart c := by
  unfold framePhase phaseAfterCrc endPart
  rw [← frameBody]
  by_cases hv : crcOf c (frameBody op pay) = v
  · cases c.endPresent <;> cases rest <;> simp [hv, tailPhase]
    split_ifs <;> simp_all
  · simp [hv, Ne.symm hv, tailPhase]

/-- A wrong CRC field ends the frame, whatever follows (R194, R197). -/
theorem framePhase_of_wrongCrc (c : Cfg) (op : Byte) (pay : List Byte) (v : Half) (rest : List Byte)
    (hv : v ≠ crcOf c (frameBody op pay)) : framePhase c op pay v rest = .err .crc := by
  have hphase : phaseAfterCrc c op (BitVec.ofNat 8 pay.length) pay v = .err .crc := if_neg (Ne.symm hv)
  rw [framePhase, hphase]
  rfl

/-- After a right CRC field the end marker is awaited when configured (R194). -/
theorem framePhase_of_endPresent (c : Cfg) (op : Byte) (pay : List Byte) (rest : List Byte) (he : c.endPresent = true) :
    framePhase c op pay (crcOf c (frameBody op pay)) rest = tailPhase c .endMark rest := by
  have hphase : phaseAfterCrc c op (BitVec.ofNat 8 pay.length) pay (crcOf c (frameBody op pay)) = .endMark := by
    rw [phaseAfterCrc, ← frameBody, if_pos rfl, if_pos he]
  rw [framePhase, hphase]

/-- An Ok record is that of a frame whose bytes end in D_DONE. -/
theorem frameRecord_eq_ok (op op' : Byte) (pay pay' : List Byte) (d : DPhase)
    (h : frameRecord op pay d = .ok (.frame op' pay')) : d = .done ∧ op = op' ∧ pay = pay' := by
  cases d with
  | done => simpa [frameRecord] using h
  | _ => cases h

/-- Which bytes bring an Ok record (R201). -/
theorem decRecord_eq_ok_iff (s : State) (w : List Byte) (op : Byte) (pay : List Byte) :
    (s.decReset.decFeed w).decRecord = .ok (.frame op pay) ↔
      pay.length ≤ 255 ∧ ∃ u,
        unstuff s.cfg u = some (frameContent s.cfg op pay (crcOf s.cfg (frameBody op pay))) ∧
        w = s.cfg.start :: (u ++ endPart s.cfg) := by
  constructor
  · intro h
    rcases decode_bytes_cases s.cfg w with
      rfl | ⟨b, v, rfl, hne⟩ | ⟨u, x, rfl, hx, hcut⟩ | ⟨u, rest, op', pay', v, rfl, hl, hu⟩
    · cases h
    · rw [decRecord_of_noStart s b v hne] at h; cases h
    · rw [decRecord_of_cut s u x hx hcut] at h; cases h
    · rw [decRecord_of_frame s u rest op' pay' v hl hu] at h
      obtain ⟨hdone, rfl, rfl⟩ := frameRecord_eq_ok _ _ _ _ _ h
      obtain ⟨rfl, rfl⟩ := (framePhase_eq_done_iff _ _ _ _ _).1 hdone
      exact ⟨hl, u, hu, rfl⟩
  · rintro ⟨hl, u, hu, rfl⟩
    rw [decRecord_of_frame s u _ op pay _ hl hu, (framePhase_eq_done_iff _ _ _ _ _).2 ⟨rfl, rfl⟩]
    rfl

/-- Settles O18. -/
theorem decodeAcceptsExactly : Obligations.DecodeAcceptsExactly := by
  intro s w op pay hb
  obtain ⟨t, ht, ⟨hres, _⟩, _⟩ := exec_decode_completes s w hb
  rw [← decRecord_eq_ok_iff s w op pay]
  constructor
  · rintro ⟨t', ht', hres'⟩
    cases ht.symm.trans ht'
    exact Option.some.inj (hres.symm.trans hres')
  · intro h
    exact ⟨t, ht, h ▸ hres⟩

/-! ## Damaged frames (R200) -/

/-- The stuffed content cut before its end holds the tokens of an earlier part of the content. -/
theorem cutAfter_take (c : Cfg) (hesc : c.esc ∈ c.reserved) (x : List Byte) (k : Nat) (hk : k < (stuff c x).length) :
    ∃ y z, z ≠ [] ∧ x = y ++ z ∧ CutAfter c ((stuff c x).take k) y := by
  induction x generalizing k with
  | nil => simp [stuff] at hk
  | cons b x ih =>
    have ht : IsToken c b (stuff c [b]) := by
      simp only [IsToken, stuff]
      split
      case isTrue => exact .inl rfl
      case isFalse hb => exact .inr ⟨fun h => hb (h ▸ hesc), rfl⟩
    rw [← List.singleton_append, stuff_append] at hk ⊢
    by_cases hlt : k < (stuff c [b]).length
    · refine ⟨[], b :: x, by simp, rfl, ?_⟩
      rw [List.take_append_of_le_length hlt.le]
      rcases ht with ht | ⟨_, ht⟩
      · rw [ht] at hlt ⊢
        match k, hlt with
        | 0, _ => exact .inl rfl
        | 1, _ => exact .inr ⟨[], rfl, rfl⟩
      · rw [ht] at hlt ⊢
        match k, hlt with
        | 0, _ => exact .inl rfl
    · obtain ⟨j, rfl⟩ := Nat.exists_eq_add_of_le (Nat.not_lt.1 hlt)
      rw [List.length_append] at hk
      obtain ⟨y, z, hz, rfl, hcut⟩ := ih j (by omega)
      refine ⟨b :: y, z, hz, rfl, ?_⟩
      rw [List.take_length_add_append]
      exact hcut.token ht

/-- Settles O21: cut before START, inside the content, or before the end marker. -/
theorem cutFrameIsTruncated : Obligations.CutFrameIsTruncated := by
  intro s op pay k hwf hb hl hk
  refine exec_decode_of_record s _ _ hb ?_
  cases k with
  | zero => exact decRecord_nil s
  | succ k =>
    let content := frameContent s.cfg op pay (crcOf s.cfg (frameBody op pay))
    have hframe : encodeFrame s.cfg op pay = s.cfg.start :: (stuff s.cfg content ++ endPart s.cfg) := rfl
    rw [hframe, List.length_cons, List.length_append] at hk
    rw [hframe, List.take_succ_cons]
    by_cases hlt : k < (stuff s.cfg content).length
    · obtain ⟨y, z, hz, hyz, hcut⟩ := cutAfter_take s.cfg hwf.2.1 content k hlt
      have hlength : content.length ≤ contentLength content := by
        rw [contentLength_frameContent s.cfg op pay _ hl, frameContent_length]
      rw [List.take_append_of_le_length hlt.le]
      exact decRecord_of_cut s _ y (unfinished_of_lt y z hz (hyz ▸ hlength)) hcut
    · have hend : s.cfg.endPresent = true := by
        by_contra hno
        rw [endPart, if_neg hno] at hk
        simp at hk; omega
      have hk' : k = (stuff s.cfg content).length := by
        rw [endPart, if_pos hend] at hk
        simp at hk; omega
      rw [hk', List.take_left, ← List.append_nil (stuff s.cfg content),
        decRecord_of_frame s _ [] op pay _ hl (unstuff_stuff s.cfg hwf.2.1 content),
        framePhase_of_endPresent s.cfg op pay [] hend]
      rfl

/-- Settles O22: the whole frame leaves the decoder in D_DONE, where one more byte is an error. -/
theorem bytesAfterFrameAreRejected : Obligations.BytesAfterFrameAreRejected := by
  intro s op pay b w hwf hb hl
  refine exec_decode_of_record s _ _ hb ?_
  have hfeed := State.decFeed_frame s.decReset op pay (b :: w) rfl hwf.2.1 hl
  rw [State.decReset_cfg, State.decFeed_done _ b w rfl] at hfeed
  rw [hfeed]
  rfl

/-- The record of a frame with a wrong CRC field, whatever follows the field (R194). -/
theorem decRecord_of_wrongCrc (s : State) (hesc : s.cfg.esc ∈ s.cfg.reserved) (op : Byte) (pay : List Byte) (v : Half)
    (w : List Byte) (hl : pay.length ≤ 255) (hv : v ≠ crcOf s.cfg (frameBody op pay)) :
    (s.decReset.decFeed (s.cfg.start :: (stuff s.cfg (frameContent s.cfg op pay v) ++ w))).decRecord =
      (BlockError.frame .crc).record := by
  rw [decRecord_of_frame s _ w op pay v hl (unstuff_stuff s.cfg hesc _), framePhase_of_wrongCrc s.cfg op pay v w hv]
  rfl

/-- Settles O23. -/
theorem wrongCrcIsRejected : Obligations.WrongCrcIsRejected := fun s op pay v w hwf hb hl hv =>
  exec_decode_of_record s _ _ hb (decRecord_of_wrongCrc s hwf.2.1 op pay v w hl hv)

/-- Settles O24. -/
theorem badMarkersAreRejected : Obligations.BadMarkersAreRejected := by
  intro s hb
  refine ⟨fun b w hne => exec_decode_of_record s _ _ hb (decRecord_of_noStart s b w hne),
    fun op pay b w hwf hl hend hne => exec_decode_of_record s _ _ hb ?_⟩
  rw [decRecord_of_frame s _ (b :: w) op pay _ hl (unstuff_stuff s.cfg hwf.2.1 _),
    framePhase_of_endPresent s.cfg op pay _ hend]
  simp only [tailPhase, if_neg hne]
  rfl

/-! ## A single flipped bit (R203) -/

/-- A byte with one bit flipped. -/
def flipBit (k : Nat) (b : Byte) : Byte := b ^^^ (1#8 <<< k)

theorem flipBit_ne (k : Nat) (hk : k < 8) (b : Byte) : flipBit k b ≠ b := by
  intro h
  have hzero : 1#8 <<< k = 0#8 := by
    have hx := congrArg (b ^^^ ·) h
    simpa only [flipBit, ← BitVec.xor_assoc, BitVec.xor_self, BitVec.zero_xor] using hx
  have hnonzero : ∀ k, k < 8 → 1#8 <<< k ≠ 0#8 := by decide
  exact hnonzero k hk hzero

/-- A byte of a list with one bit flipped. -/
theorem modify_flipBit_ne (x : List Byte) (i k : Nat) (hi : i < x.length) (hk : k < 8) : x.modify i (flipBit k) ≠ x := by
  intro h
  have hat := congrArg (fun l : List Byte => l[i]?) h
  simp only [List.getElem?_modify_eq, List.getElem?_eq_getElem hi] at hat
  exact flipBit_ne k hk _ (Option.some.inj hat)

/-- The CRC sees one flipped bit, wherever it is (R152). -/
theorem crcOf_modify_flipBit_ne (c : Cfg) (hpoly : c.crcPoly ≠ 0) (x : List Byte) (i k : Nat) (hi : i < x.length)
    (hk : k < 8) : crcOf c (x.modify i (flipBit k)) ≠ crcOf c x := by
  have hsplit : x = x.take i ++ x[i] :: x.drop (i + 1) := by
    rw [List.getElem_cons_drop, List.take_append_drop]
  have hmodify : x.modify i (flipBit k) = x.take i ++ flipBit k x[i] :: x.drop (i + 1) :=
    List.modify_eq_take_cons_drop hi
  rw [hmodify]
  conv_rhs => rw [hsplit]
  exact (crcSeesEverySingleBit c _ _ _ k hpoly hk).symm

/-- A change in the first part of a list leaves the second part alone. -/
theorem modify_append_of_lt (x y : List Byte) (i : Nat) (f : Byte → Byte) (hi : i < x.length) :
    (x ++ y).modify i f = x.modify i f ++ y := by
  rw [List.modify_eq_take_drop, List.modify_eq_take_drop, List.take_append_of_le_length hi.le,
    List.drop_append_of_le_length hi.le, List.drop_eq_getElem_cons hi, List.append_assoc]
  rfl

/-- A flipped bit outside the length byte makes a frame of the same length with a wrong CRC field. -/
theorem frameContent_modify (c : Cfg) (hpoly : c.crcPoly ≠ 0) (op : Byte) (pay : List Byte) (p k : Nat)
    (hp : p < pay.length + 4) (hk : k < 8) (hlen : p ≠ 1) :
    ∃ op' pay' v, pay'.length = pay.length ∧ v ≠ crcOf c (frameBody op' pay') ∧
      (frameContent c op pay (crcOf c (frameBody op pay))).modify p (flipBit k) = frameContent c op' pay' v := by
  have hbody : ∀ i, i < pay.length + 2 → crcOf c ((frameBody op pay).modify i (flipBit k)) ≠ crcOf c (frameBody op pay) :=
    fun i hi => crcOf_modify_flipBit_ne c hpoly _ i k (by rw [frameBody]; simpa using Nat.le_of_lt_succ hi) hk
  match p, hlen with
  | 0, _ => exact ⟨flipBit k op, pay, _, rfl, (hbody 0 (by omega)).symm, rfl⟩
  | j + 2, _ =>
    by_cases hj : j < pay.length
    · refine ⟨op, pay.modify j (flipBit k), crcOf c (frameBody op pay), List.length_modify .., ?_, ?_⟩
      · have h := hbody (j + 2) (by omega)
        simp only [frameBody, List.modify_succ_cons, List.length_modify] at h ⊢
        exact h.symm
      · simp only [frameContent, frameBody, List.cons_append, List.modify_succ_cons, List.length_modify,
          modify_append_of_lt pay _ j _ hj]
    · obtain ⟨i, rfl⟩ := Nat.exists_eq_add_of_le (Nat.not_lt.1 hj)
      have hi : i < (crcField c (crcOf c (frameBody op pay))).length := by rw [crcField_length]; omega
      obtain ⟨b0, b1, hfield⟩ : ∃ b0 b1, (crcField c (crcOf c (frameBody op pay))).modify i (flipBit k) = [b0, b1] :=
        List.length_eq_two.1 (by rw [List.length_modify, crcField_length])
      refine ⟨op, pay, crcOfField c b0 b1, rfl, fun h => modify_flipBit_ne _ i k hi hk ?_, ?_⟩
      · rw [hfield, ← h, crcField_crcOfField]
      · simp only [frameContent, frameBody, List.cons_append, List.modify_succ_cons, crcField_crcOfField]
        rw [← frameBody, ← hfield]
        exact congrArg (op :: BitVec.ofNat 8 pay.length :: ·) (List.modifyTailIdx_add _ i pay _)

/-- The second byte of a content is the length of its payload. -/
theorem getElem?_one_frameContent (c : Cfg) (op : Byte) (pay : List Byte) (v : Half) :
    (frameContent c op pay v)[1]? = some (BitVec.ofNat 8 pay.length) := rfl

/-- Settles O25: outside the length byte the CRC sees the bit; with another length byte the bytes are no frame, since
they are as many as before. -/
theorem singleBitFlipIsDetected : Obligations.SingleBitFlipIsDetected := by
  intro s op pay p k hwf hb hl hp hk content flipped
  obtain ⟨-, hesc, -, hpoly, -⟩ := hwf
  let w := s.cfg.start :: (stuff s.cfg flipped ++ endPart s.cfg)
  have hrecord : ∃ c, (s.decReset.decFeed w).decRecord = (BlockError.frame c).record ∧ (p ≠ 1 → c = .crc) := by
    by_cases hlen : p = 1
    · subst hlen
      rcases (s.decReset.decFeed w).decRecord_cases with ⟨op', pay', hok, -⟩ | ⟨c, hc⟩
      · obtain ⟨-, u, hu, hw⟩ := (decRecord_eq_ok_iff s w op' pay').1 hok
        have hstuff : stuff s.cfg flipped = u := List.append_cancel_right (List.cons.inj hw).2
        have hflipped : flipped = frameContent s.cfg op' pay' (crcOf s.cfg (frameBody op' pay')) := by
          rw [← hstuff, unstuff_stuff s.cfg hesc] at hu
          exact Option.some.inj hu
        have hcount : pay'.length = pay.length := by
          have h := congrArg List.length hflipped
          simpa [flipped, content] using h.symm
        have hat : flipped[1]? = some (flipBit k (BitVec.ofNat 8 pay.length)) := rfl
        rw [hflipped, getElem?_one_frameContent, hcount] at hat
        exact absurd (Option.some.inj hat).symm (flipBit_ne k hk _)
      · exact ⟨c, hc, fun h => absurd rfl h⟩
    · obtain ⟨op', pay', v, hcount, hv, heq⟩ := frameContent_modify s.cfg hpoly op pay p k hp hk hlen
      have hflipped : flipped = frameContent s.cfg op' pay' v := heq
      refine ⟨.crc, ?_, fun _ => rfl⟩
      simp only [w, hflipped]
      exact decRecord_of_wrongCrc s hesc op' pay' v _ (by omega) hv
  obtain ⟨c, hc, hcause⟩ := hrecord
  obtain ⟨t, ht, hcompleted⟩ := exec_decode_of_record s w _ hb hc
  exact ⟨t, c, ht, hcompleted, hcause⟩

end Sys2Proof.Machine
end

section
/-! Encodings (30_encoding.md R101, R104, R112 to R120, R127): the decoder and the encoder undo each other, command by
command and frame row by frame row. -/

namespace Sys2Proof.Machine

/-! ## Words and their bytes (R9, log 3) -/

@[simp] theorem half_lo8_hi8 (h : Half) : half (lo8 h) (hi8 h) = h := hi8_append_lo8 h

@[simp] theorem halfBytes_half (b0 b1 : Byte) : halfBytes (half b0 b1) = [b0, b1] := by
  simp [halfBytes, half]

/-- The four bytes of a word put together again. -/
@[simp] theorem word_extract (w : Word) :
    word (w.extractLsb' 0 8) (w.extractLsb' 8 8) (w.extractLsb' 16 8) (w.extractLsb' 24 8) = w := by
  apply BitVec.eq_of_getLsbD_eq
  intro i hi
  simp only [word, BitVec.getLsbD_append, BitVec.getLsbD_extractLsb']
  split_ifs with h0 h1 h2
  · simp [h0]
  · rw [show 8 + (i - 8) = i by omega]; simp [h1]
  · rw [show 16 + (i - 8 - 8) = i by omega]; simp [h2]
  · rw [show 24 + (i - 8 - 8 - 8) = i by omega]; simp; omega

@[simp] theorem wordBytes_word (b0 b1 b2 b3 : Byte) : wordBytes (word b0 b1 b2 b3) = [b0, b1, b2, b3] := by
  simp only [wordBytes, List.cons.injEq, and_true]
  refine ⟨?_, ?_, ?_, ?_⟩
  all_goals
    apply BitVec.eq_of_getLsbD_eq
    intro i hi
    simp only [word, BitVec.getLsbD_append, BitVec.getLsbD_extractLsb', hi, decide_true, Bool.true_and]
  · simp [hi]
  · simp [hi]
  · rw [if_neg (by omega), if_neg (by omega), if_pos (by omega)]; congr 1; omega
  · rw [if_neg (by omega), if_neg (by omega), if_neg (by omega)]; congr 1; omega

/-! ## Command records (R120; log 3) -/

theorem encode_command (c : Cfg) (i : Instr) (hp : i.port = .command) : encode c i = encodeCommand i := by
  have hparts : i.frameParts c = none := by
    cases i <;> simp [Instr.port, Instr.frameParts] at hp ⊢
  rw [encode, hparts]

theorem wellFormed_command (c : Cfg) (i : Instr) (hp : i.port = .command) : i.WellFormed c := by
  cases i <;> simp [Instr.port, Instr.WellFormed] at hp ⊢

/-- A command's record is read back as the command. -/
theorem decodeCommand_encodeCommand (i : Instr) (hp : i.port = .command) : decodeCommand (encodeCommand i) = .ok i := by
  cases i with
  | crcInit => rfl
  | crcByte b => rfl
  | crcGet => rfl
  | crcBlk s => rfl
  | encode op pay => rfl
  | decode w => rfl
  | xfer op pay tmo => exact congrArg (fun t => Except.ok (Instr.xfer op pay t)) (word_extract tmo)
  | odRead idx sub wid sgn tmo =>
    have hops := congrArg₂ (fun h t => Except.ok (ε := DecodeError) (Instr.odRead h sub wid sgn t))
      (half_lo8_hi8 idx) (word_extract tmo)
    cases sgn <;> exact hops
  | odWrite idx sub val wid tmo =>
    show Except.ok (Instr.odWrite (half (lo8 idx) (hi8 idx)) sub (word _ _ _ _) wid (word _ _ _ _)) = _
    rw [half_lo8_hi8, word_extract, word_extract]
  | _ => simp [Instr.port] at hp

/-- The code of a record whose number is known. -/
theorem byte_eq_of_toNat (b : Byte) (n : Nat) (h : b.toNat = n) : b = BitVec.ofNat 8 n := by
  rw [← h, BitVec.ofNat_toNat, BitVec.setWidth_eq]

/-- A record that is read as a command is that command's record. -/
theorem encodeCommand_of_decodeCommand (bs : List Byte) (i : Instr) (h : decodeCommand bs = .ok i) :
    encodeCommand i = bs := by
  unfold decodeCommand at h
  split at h
  · cases h
  · next code ops =>
    split at h
    all_goals repeat' split at h
    all_goals cases h
    -- the operand bytes are those of the operands, and the code is the number the arm matched
    all_goals simp_all [encodeCommand]
    all_goals exact (byte_eq_of_toNat code _ ‹_›).symm

/-! ## Logical frames (R101) -/

/-- A logical frame is read as the frame row of its direction, OPC and LEN. -/
theorem decodeFrame_logicalFrame (c : Cfg) (d : Dir) (opc : Byte) (pay : List Byte) (crc : Half)
    (hl : pay.length ≤ 255) : decodeFrame c d (logicalFrame c opc pay crc) = .ok (classifyFrame c d opc pay crc) := by
  obtain ⟨b0, b1, hfield, hvalue⟩ : ∃ b0 b1, crcField c crc = [b0, b1] ∧ crcOfField c b0 b1 = crc := by
    unfold crcField crcOfField
    split
    · exact ⟨_, _, rfl, by simp⟩
    · exact ⟨_, _, rfl, by simp⟩
  have hlen := toNat_ofNat_length pay hl
  rw [logicalFrame, decodeFrame, if_pos rfl, hlen, List.append_assoc, List.drop_left, List.take_left, hfield]
  simp [hvalue]

/-- What is read as a frame row is the logical frame of its direction, OPC and LEN. -/
theorem decodeFrame_eq_ok (c : Cfg) (d : Dir) (bs : List Byte) (i : Instr) (h : decodeFrame c d bs = .ok i) :
    ∃ opc pay crc, pay.length ≤ 255 ∧ bs = logicalFrame c opc pay crc ∧ i = classifyFrame c d opc pay crc := by
  unfold decodeFrame at h
  split at h
  · next st opc len rest =>
    split at h
    case isFalse => cases h
    case isTrue hst =>
      split at h
      · next c0 c1 tail hdrop =>
        split at h
        case isFalse => cases h
        case isTrue htail =>
          cases h
          have hlen := len.isLt
          have hlong : len.toNat ≤ rest.length := by
            by_contra hshort
            rw [List.drop_of_length_le (by omega)] at hdrop
            cases hdrop
          have hpay : (rest.take len.toNat).length = len.toNat := List.length_take_of_le hlong
          refine ⟨opc, rest.take len.toNat, crcOfField c c0 c1, by omega, ?_, rfl⟩
          have hrest : rest.take len.toNat ++ [c0, c1] ++ endPart c = rest := by
            rw [← htail, List.append_assoc]
            exact (congrArg _ hdrop).symm.trans (List.take_append_drop _ _)
          rw [logicalFrame, hpay, BitVec.ofNat_toNat, BitVec.setWidth_eq, crcField_crcOfField, hrest, hst]
      · cases h
  · split at h <;> cases h
  · cases h

/-! ## Frame rows (R112 to R115, R127) -/

/-- A frame row carries the OPC, the payload and the CRC field it was read from. -/
theorem classifyFrame_parts (c : Cfg) (d : Dir) (opc : Byte) (pay : List Byte) (crc : Half) :
    (classifyFrame c d opc pay crc).frameParts c = some (opc, pay, crc) := by
  unfold classifyFrame
  cases d
  all_goals
    dsimp only
    repeat' split
    all_goals simp_all [Instr.frameParts]

/-- Only FRAME is no dictionary shape (R127). -/
theorem classifyFrame_ne_frame (c : Cfg) (hops : c.opRead ≠ c.opWrite) (d d' : Dir) (opc opc' : Byte)
    (pay pay' : List Byte) (crc crc' : Half) (h : IsDictionaryShape c d opc pay.length) :
    classifyFrame c d opc pay crc ≠ .frame d' opc' pay' crc' := by
  cases d with
  | toDrive =>
    rcases h with ⟨rfl, h⟩ | ⟨rfl, h | h | h⟩
    · match pay, h with
      | [_, _, _], _ => simp [classifyFrame]
    · match pay, h with
      | [_, _, _, _], _ => simp [classifyFrame, hops.symm]
    · match pay, h with
      | [_, _, _, _, _], _ => simp [classifyFrame, hops.symm]
    · match pay, h with
      | [_, _, _, _, _, _, _], _ => simp [classifyFrame, hops.symm]
  | fromDrive =>
    rcases h with ⟨rfl, h | h | h | h⟩ | ⟨rfl, h⟩
    · match pay, h with
      | [_, _, _, _], _ => simp [classifyFrame]
    · match pay, h with
      | [_, _, _, _, _], _ => simp [classifyFrame]
    · match pay, h with
      | [_, _, _, _, _, _], _ => simp [classifyFrame]
    · match pay, h with
      | [_, _, _, _, _, _, _, _], _ => simp [classifyFrame]
    · match pay, h with
      | [_, _, _, _], _ => simp [classifyFrame, hops.symm]

/-- A frame of no dictionary shape is read as FRAME. -/
theorem classifyFrame_eq_frame (c : Cfg) (d : Dir) (opc : Byte) (pay : List Byte) (crc : Half)
    (h : ¬ IsDictionaryShape c d opc pay.length) : classifyFrame c d opc pay crc = .frame d opc pay crc := by
  cases d
  all_goals
    unfold classifyFrame
    dsimp only
    repeat' split
    all_goals simp_all [IsDictionaryShape]

/-- A frame row read from a payload LEN can count has an encoding of its own. -/
theorem classifyFrame_wellFormed (c : Cfg) (hops : c.opRead ≠ c.opWrite) (d : Dir) (opc : Byte) (pay : List Byte)
    (crc : Half) (hl : pay.length ≤ 255) : (classifyFrame c d opc pay crc).WellFormed c := by
  by_cases hshape : IsDictionaryShape c d opc pay.length
  · cases hi : classifyFrame c d opc pay crc with
    | frame d' opc' pay' crc' => exact absurd hi (classifyFrame_ne_frame c hops d d' opc opc' pay pay' crc crc' hshape)
    | _ => exact trivial
  · rw [classifyFrame_eq_frame c d opc pay crc hshape]
    exact ⟨hl, hshape⟩

/-- The parts of a frame row are read as that frame row, and its payload fits LEN. -/
theorem classifyFrame_of_parts (c : Cfg) (hops : c.opRead ≠ c.opWrite) (i : Instr) (d : Dir) (opc : Byte)
    (pay : List Byte) (crc : Half) (hp : i.port = .link d) (hwf : i.WellFormed c)
    (h : i.frameParts c = some (opc, pay, crc)) : classifyFrame c d opc pay crc = i ∧ pay.length ≤ 255 := by
  cases i <;> simp only [Instr.port, Port.link.injEq, reduceCtorEq] at hp
  all_goals
    simp only [Instr.frameParts, Option.some.injEq, Prod.mk.injEq] at h
    obtain ⟨rfl, rfl, rfl⟩ := h
    subst hp
  case frame =>
    obtain ⟨hl, hshape⟩ := hwf
    exact ⟨classifyFrame_eq_frame c _ _ _ _ hshape, hl⟩
  all_goals simp [classifyFrame, halfBytes, wordBytes, hops.symm]

/-! ## The decoder and the encoder -/

/-- The parts of a frame row, which every frame row has. -/
theorem exists_frameParts (c : Cfg) (i : Instr) (d : Dir) (hp : i.port = .link d) :
    ∃ opc pay crc, i.frameParts c = some (opc, pay, crc) := by
  cases i <;> simp [Instr.port, Instr.frameParts] at hp ⊢

theorem encode_of_parts (c : Cfg) (i : Instr) (opc : Byte) (pay : List Byte) (crc : Half)
    (h : i.frameParts c = some (opc, pay, crc)) : encode c i = logicalFrame c opc pay crc := by
  rw [encode, h]

/-- Settles O51: a command by its record, a frame row by its parts. -/
theorem decodeOfEncode : Obligations.DecodeOfEncode := by
  intro c i hc hwf
  obtain ⟨-, -, -, -, hops⟩ := hc
  cases hp : i.port with
  | command =>
    rw [encode_command c i hp]
    exact decodeCommand_encodeCommand i hp
  | link d =>
    obtain ⟨opc, pay, crc, hparts⟩ := exists_frameParts c i d hp
    obtain ⟨hi, hl⟩ := classifyFrame_of_parts c hops i d opc pay crc hp hwf hparts
    rw [encode_of_parts c i opc pay crc hparts]
    exact (decodeFrame_logicalFrame c d opc pay crc hl).trans (congrArg Except.ok hi)

/-- Settles O52: what is read as a command is its record, and what is read as a frame row its logical frame. -/
theorem encodeOfDecode : Obligations.EncodeOfDecode := by
  intro c p bs i hc h
  obtain ⟨-, -, -, -, hops⟩ := hc
  cases p with
  | command =>
    have hp := decodeCommand_port bs i h
    exact ⟨hp, wellFormed_command c i hp, (encode_command c i hp).trans (encodeCommand_of_decodeCommand bs i h)⟩
  | link d =>
    obtain ⟨opc, pay, crc, hl, rfl, rfl⟩ := decodeFrame_eq_ok c d bs i h
    exact ⟨classifyFrame_port c d opc pay crc, classifyFrame_wellFormed c hops d opc pay crc hl,
      encode_of_parts c _ opc pay crc (classifyFrame_parts c d opc pay crc)⟩

/-! ## Wire frames (R104, R105) -/

/-- Between START and the end marker stands the stuffed content. -/
theorem stuffedPart_wireFrame (c : Cfg) (op : Byte) (pay : List Byte) (crc : Half) :
    stuffedPart c (wireFrame c op pay crc) = stuff c (frameContent c op pay crc) := by
  rw [wireFrame, stuffedPart, endPart]
  split <;> simp

/-- Settles O53: the content is unstuffed, and START, content and end marker are the logical frame of O51. -/
theorem wireFormReadsBack : Obligations.WireFormReadsBack := by
  intro c i d w hc hwf hp hw
  obtain ⟨opc, pay, crc, hparts⟩ := exists_frameParts c i d hp
  have hwire : wireFrame c opc pay crc = w := by simpa [wireOf, hparts] using hw
  have hdecode : decode c (.link d) (c.start :: (frameContent c opc pay crc ++ endPart c)) = .ok i := by
    have h := decodeOfEncode c i hc hwf
    rw [encode_of_parts c i opc pay crc hparts, hp] at h
    simpa [logicalFrame, frameContent, frameBody] using h
  rw [readWire, ← hwire, stuffedPart_wireFrame, unstuff_stuff c hc.2.1]
  simp only [hdecode]
  rw [if_pos (hwire ▸ hw)]

/-! ## The table's words (R127; log 10) -/

/-- Settles O54: six closed evaluations. -/
theorem tableWordsDecode : Obligations.TableWordsDecode := ⟨rfl, rfl, rfl, rfl, rfl, rfl⟩

end Sys2Proof.Machine
end

section
/-! Requests (41_frame_encode.md R176; 43_framer.md R222 to R225; 44_dictionary.md R250, R256): what a command that builds
a frame leaves behind, and what becomes of the frame it hands over. -/

namespace Sys2Proof.Machine

/-! ## Acceptance -/

/-- Settles O26. -/
theorem xferIsAccepted : Obligations.XferIsAccepted := by
  intro s op pay tmo hb hl htmo
  show execXfer op pay tmo s = _
  rw [execXfer, State.whenReady_of_idle s _ hb, if_neg (Nat.not_lt.2 hl), if_neg htmo,
    State.startTransaction_eq _ op pay tmo hl]

/-- Settles O27. -/
theorem odReadIsAccepted : Obligations.OdReadIsAccepted := by
  intro s idx sub wid width sgn tmo hb hw htmo
  show execOdRead idx sub wid sgn tmo s = _
  rw [execOdRead, State.whenReady_of_idle s _ hb, hw]
  simp only [if_neg htmo, State.startTransaction_eq _ _ _ tmo (readPayload_length_le idx sub)]
  rfl

/-- Only the low `8*WID` bits of a value are sent (R116). -/
theorem le_low (w : Width) (v : Word) : le w.bytes (w.low v) = le w.bytes v := by
  cases w with
  | w1 =>
    simp only [le, Width.bytes, Width.low, List.cons.injEq, and_true]
    apply BitVec.eq_of_getLsbD_eq; intro i hi
    simp [hi]; omega
  | w2 =>
    simp only [le, Width.bytes, Width.low, List.cons.injEq, and_true]
    constructor
    all_goals
      apply BitVec.eq_of_getLsbD_eq; intro i hi
      have h16 : i < 16 ∧ 8 + i < 16 := by omega
      have h32 : i < 32 ∧ 8 + i < 32 := by omega
      simp [hi, h16, h32]
  | w4 => rfl

/-- OD.WRITE with legal operands, its payload as the model writes it. -/
theorem exec_odWrite (s : State) (idx : Half) (sub : Byte) (val : Word) (wid : Byte) (width : Width) (tmo : Word)
    (hb : s.busy = false) (hw : Width.ofByte wid = some width) (htmo : tmo ≠ 0) :
    exec (.odWrite idx sub val wid tmo) s = .next
      (State.accepted
        { s with idx := idx, sub := sub, wid := width, val := val, odk := .wr, reqop := s.cfg.opWrite }
        s.cfg.opWrite (writePayload idx sub val width) tmo) := by
  show execOdWrite idx sub val wid tmo s = _
  rw [execOdWrite, State.whenReady_of_idle s _ hb, hw]
  simp only [if_neg htmo, State.startTransaction_eq _ _ _ tmo (writePayload_length_le idx sub val width)]

/-- Settles O28. -/
theorem odWriteIsAccepted : Obligations.OdWriteIsAccepted := by
  intro s idx sub val wid width tmo hb hw htmo
  rw [le_low]
  exact exec_odWrite s idx sub val wid width tmo hb hw htmo

/-! ## The commands that build a frame -/

/-- `u` is `s` with operands latched (R250, R256): IDX, SUB, WID, SGN, VAL, ODK and REQOP may differ. -/
def Latched (s u : State) : Prop :=
  ∃ idx sub wid sgn val odk reqop,
    u = { s with idx := idx, sub := sub, wid := wid, sgn := sgn, val := val, odk := odk, reqop := reqop }

/-- A command that builds the frame of `op`, `pay` in an idle block either is ENCODE and ends, or is accepted as a
transaction. -/
theorem exec_of_builds (s : State) (i : Instr) (op : Byte) (pay : List Byte) (hb : s.busy = false)
    (h : Instr.builds s.cfg i = some (op, pay)) :
    pay.length ≤ 255 ∧
      (exec i s = .next ((s.built op pay).complete (.wire (encodeFrame s.cfg op pay))) ∨
        ∃ u tmo, Latched s u ∧ exec i s = .next (u.accepted op pay tmo)) := by
  cases i with
  | encode op' pay' =>
    simp only [Instr.builds, Option.ite_none_right_eq_some, Option.some.injEq, Prod.mk.injEq] at h
    obtain ⟨hl, rfl, rfl⟩ := h
    exact ⟨hl, .inl (exec_encode s _ _ hb hl)⟩
  | xfer op' pay' tmo =>
    simp only [Instr.builds, Option.ite_none_right_eq_some, Option.some.injEq, Prod.mk.injEq] at h
    obtain ⟨⟨hl, htmo⟩, rfl, rfl⟩ := h
    exact ⟨hl, .inr ⟨_, tmo, ⟨_, _, _, _, _, _, _, rfl⟩, xferIsAccepted s _ _ tmo hb hl htmo⟩⟩
  | odRead idx sub wid sgn tmo =>
    cases hw : Width.ofByte wid with
    | none => simp [Instr.builds, hw] at h
    | some width =>
      simp only [Instr.builds, hw, Option.ite_none_left_eq_some, Option.some.injEq, Prod.mk.injEq] at h
      obtain ⟨htmo, rfl, rfl⟩ := h
      exact ⟨readPayload_length_le idx sub,
        .inr ⟨_, tmo, ⟨_, _, _, _, _, _, _, rfl⟩, odReadIsAccepted s idx sub wid width sgn tmo hb hw htmo⟩⟩
  | odWrite idx sub val wid tmo =>
    cases hw : Width.ofByte wid with
    | none => simp [Instr.builds, hw] at h
    | some width =>
      simp only [Instr.builds, hw, Option.ite_none_left_eq_some, Option.some.injEq, Prod.mk.injEq] at h
      obtain ⟨htmo, rfl, rfl⟩ := h
      exact ⟨writePayload_length_le idx sub val width,
        .inr ⟨_, tmo, ⟨_, _, _, _, _, _, _, rfl⟩, exec_odWrite s idx sub val wid width tmo hb hw htmo⟩⟩
  | _ => simp [Instr.builds] at h

/-- The commands that build a frame come in at the command port. -/
theorem port_of_builds (c : Cfg) (i : Instr) (op : Byte) (pay : List Byte) (h : Instr.builds c i = some (op, pay)) :
    i.port = .command := by
  cases i <;> simp [Instr.builds, Instr.port] at h ⊢

/-- Settles O14: a busy block stores nothing, an idle one exactly the payload and the frame. -/
theorem encoderStoresOnlyItsFrame : Obligations.EncoderStoresOnlyItsFrame := by
  intro s t i op pay hbuilds hexec k
  cases hb : s.busy with
  | true =>
    cases (exec_command_of_busy s i (port_of_builds s.cfg i op pay hbuilds) hb).symm.trans hexec
    exact ⟨fun _ => rfl, fun _ => rfl⟩
  | false =>
    have hstored : t.pay = Memory.writeBytes s.pay 0 pay ∧
        t.wire = Memory.writeBytes s.wire 0 (encodeFrame s.cfg op pay) := by
      obtain ⟨-, h | ⟨u, tmo, ⟨_, _, _, _, _, _, _, rfl⟩, h⟩⟩ := exec_of_builds s i op pay hb hbuilds
      all_goals
        cases h.symm.trans hexec
        exact ⟨rfl, rfl⟩
    rw [hstored.1, hstored.2]
    exact ⟨Memory.read_writeBytes_beyond s.pay pay k, Memory.read_writeBytes_beyond s.wire _ k⟩

/-! ## The frame crosses (R67, R68, R224; log 9, log 23) -/

/-- TXRESULT(ok), register by register (R224). -/
theorem State.txDone_eq (s : State) :
    s.txDone =
      { s with txs := s.txs ++ s.wireBytes, rxany := false, dph := .start, escf := false, n := 0, fph := .wait } := by
  simp only [State.txDone, State.transmit, State.setRxAny, State.decReset, State.enterWait]

/-- Settles O29. -/
theorem requestFrameCrosses : Obligations.RequestFrameCrosses := by
  intro s i w hp hw
  rw [exec_toDrive s i w hp hw, State.sendFrame]
  refine ⟨fun hf hwire => ?handedOver, fun hother => ?notHandedOver⟩
  case handedOver => rw [if_pos ⟨hf, hwire⟩, State.txDone_eq, hwire]
  case notHandedOver => rw [if_neg fun ⟨hf, hwire⟩ => hother.elim (· hf) (· hwire)]

/-- An accepted request differs from the idle state it came in by the registers of the request alone: its frame stands
in WIRE and has been handed over once. -/
theorem State.accepted_frame (s u : State) (op : Byte) (pay : List Byte) (tmo : Word) (hu : Latched s u)
    (hl : pay.length ≤ 255) :
    (u.accepted op pay tmo).cfg = s.cfg ∧ (u.accepted op pay tmo).wireBytes = encodeFrame s.cfg op pay ∧
      (u.accepted op pay tmo).txs = s.txs ∧ (u.accepted op pay tmo).writes = s.writes ++ [encodeFrame s.cfg op pay] ∧
      (u.accepted op pay tmo).rxq = s.rxq ∧ (u.accepted op pay tmo).records = s.records := by
  obtain ⟨_, _, _, _, _, _, _, rfl⟩ := hu
  exact ⟨rfl, State.wireBytes_built s op pay hl, rfl, rfl, rfl, rfl⟩

/-- Settles O30: the accepted frame stands in WIRE, so the row crosses as O29 says. -/
theorem acceptedRequestReachesDrive : Obligations.AcceptedRequestReachesDrive := by
  intro s t i j op pay hbuilds hb hexec hsend hp hw
  obtain ⟨hl, h | ⟨u, tmo, hu, h⟩⟩ := exec_of_builds s i op pay hb hbuilds
  · cases h.symm.trans hexec
    cases hsend
  · obtain ⟨hcfg, hwire, htxs, hwrites, hrxq, hrecords⟩ := State.accepted_frame s u op pay tmo hu hl
    obtain rfl : u.accepted op pay tmo = t := Host.Outcome.next.inj (h.symm.trans hexec)
    have hcross := (requestFrameCrosses _ j _ hp (hcfg.symm ▸ hw)).1 hsend hwire
    exact ⟨_, hcross, congrArg (· ++ _) htxs, hwrites, rfl, rfl, rfl, hrxq, hrecords⟩

end Sys2Proof.Machine
end

section
/-! Steps on single turns (20_memory.md R63 to R70; 43_framer.md R224, R225, R233; 70_reset_and_hazards.md R320 to
R323). -/

namespace Sys2Proof.Machine

/-! ## TXRESULT -/

/-- Settles O31. -/
theorem transmitSuccessEntersWait : Obligations.TransmitSuccessEntersWait := by
  intro s ts hwf ht hf hw
  calc step s
      = transmitResult .ok { s with turns := ts } := step_of_turn s _ ts hwf ht
    _ = .next (State.txDone { s with turns := ts }) := transmitResult_ok { s with turns := ts } hf hw
    _ = _ := congrArg Host.Outcome.next (State.txDone_eq _)

/-- `Err(TransportWriteFail, 0, 0)` in numbers (R281, R285). -/
theorem BlockError.record_transportWriteFail : BlockError.transportWriteFail.record = .err 9 0 0 := rfl

/-- TXRESULT(fail), register by register: one error entry after the part that was sent (R225). -/
theorem State.txFail_eq (s : State) (k : Nat) :
    s.txFail k =
      { s with
        txs := s.txs ++ s.wireBytes.take k, res := some (.err 9 0 0), records := s.records ++ [.err 9 0 0]
        busy := false, fph := .idle } := by
  rw [State.txFail, State.raise_eq, BlockError.record_transportWriteFail]
  simp only [State.transmit]

/-- The write failed (R225). -/
theorem transmitResult_fail (s : State) (k : Nat) (hf : s.fph = .send) (hw : s.wlen.toNat ≤ 520) :
    transmitResult (.fail k) s = .next (s.txFail k) := by
  simp only [transmitResult, if_pos hf, if_pos hw]

/-- Settles O32. -/
theorem transmitFailureEndsCommand : Obligations.TransmitFailureEndsCommand := by
  intro s ts k hwf ht hf hw
  calc step s
      = transmitResult (.fail k) { s with turns := ts } := step_of_turn s _ ts hwf ht
    _ = .next (State.txFail { s with turns := ts } k) := transmitResult_fail { s with turns := ts } k hf hw
    _ = _ := congrArg Host.Outcome.next (State.txFail_eq _ k)

/-! ## Events out of phase (R233; log 13) -/

theorem transmitResult_of_not_send (s : State) (r : TxResult) (hf : s.fph ≠ .send) : transmitResult r s = .next s :=
  if_neg hf

/-- No byte is taken from an empty RXQ. -/
theorem State.rxByte_of_nil (s : State) (hq : s.rxq = []) : s.rxByte = s := by
  unfold State.rxByte
  rw [hq]
  split <;> rfl

/-- Settles O33. -/
theorem eventsOutOfPhaseDoNothing : Obligations.EventsOutOfPhaseDoNothing := by
  intro s t ts hwf ht hout
  rw [step_of_turn s t ts hwf ht]
  rcases hout with ⟨⟨r, rfl⟩, hf⟩ | ⟨rfl, hf⟩ | ⟨rfl, hf | hq⟩
  · exact transmitResult_of_not_send { s with turns := ts } r hf
  · exact congrArg Host.Outcome.next (State.tick_of_not_wait { s with turns := ts } hf)
  · exact congrArg Host.Outcome.next (State.rxByte_of_not_wait { s with turns := ts } hf)
  · exact congrArg Host.Outcome.next (State.rxByte_of_nil { s with turns := ts } hq)

/-! ## Bytes that come in (R63; log 8) -/

/-- Settles O41: the row is `rxArrive`, and RXBYTE turns outside F_WAIT take nothing. -/
theorem unsolicitedFrameIsQueued : Obligations.UnsolicitedFrameIsQueued := by
  intro s i w hp hw
  refine ⟨exec_fromDrive s i w hp hw, fun hwf hf k => ?_⟩
  rw [frameThenBytes_eq s i w k hwf hp hw, State.takeBytes_of_not_wait (s.rxArrive w) hf k]
  rfl

/-! ## Which instruction a step runs (R8, R32; log 2, log 8, log 9) -/

/-- Settles O47: in each of the three places the instruction that is read is run. -/
theorem stepRunsDecodedInstruction : Obligations.StepRunsDecodedInstruction := by
  intro s i ts hwf
  refine ⟨fun r rs ht hcmds hb hd => ?record, fun w ht hread => ?arrival, fun ht hf hw hread => ?transmission⟩
  case record =>
    rw [step_of_turn s _ ts hwf ht]
    simp only [runTurn, offerCommand, hcmds, State.ready, hb, Bool.not_false, if_true, hd]
  case arrival =>
    rw [step_of_turn s _ ts hwf ht]
    simp only [runTurn, frameArrives, hread]
  case transmission =>
    have hread' : readWire s.cfg .toDrive (State.wireBytes { s with turns := ts }) = some i := hread
    rw [step_of_turn s _ ts hwf ht]
    simp only [runTurn, transmitResult, if_pos hf, if_pos hw, hread']

/-! ## RESET (R320 to R323, R36) -/

/-- A RESET is a fault only with an index beyond WIRE (log 15). -/
theorem resetEvent_eq (s : State) (k : Nat) (h : s.fph = .send → s.wlen.toNat ≤ 520) :
    resetEvent k s = .next (s.doReset k) := if_neg fun ⟨hf, hw⟩ => Nat.not_le.2 hw (h hf)

/-- Of a frame outstanding at the transport a first part has gone out (R322). -/
theorem State.doReset_txs (s : State) (k : Nat) :
    (s.doReset k).txs = s.txs ++ (if s.fph = .send then s.wireBytes.take k else []) := by
  show (if s.fph = .send then _ else _) = _
  split <;> simp

/-- Settles O49. -/
theorem resetEventClearsBlock : Obligations.ResetEventClearsBlock := by
  intro s ts k hwf ht hw
  have hstep : step s = .next (State.doReset { s with turns := ts } k) :=
    (step_of_turn s _ ts hwf ht).trans (resetEvent_eq { s with turns := ts } k hw)
  exact ⟨_, hstep, rfl, rfl, rfl, rfl, rfl, rfl, rfl, rfl, fun _ => ⟨rfl, rfl⟩, rfl, rfl, rfl, rfl, rfl, rfl,
    State.doReset_txs _ k⟩

/-- The invariant of a block whose registers are those after reset, whatever its streams, turns and configuration. -/
theorem Inv.of_reset (s : State) (hpay : s.pay = []) (hwire : s.wire = []) (hwlen : s.wlen = 0) (hn : s.n = 0)
    (hb : s.busy = false) (hf : s.fph = .idle) : Inv s where
  buffers := by rw [BuffersOk, hpay, hwire, hwlen]; exact ⟨rfl, rfl, rfl, rfl, by decide⟩
  count := by rw [hn]; decide
  busy := by simp [hb, hf]
  timer := absurd hf
  request := absurd hf
  reqop := absurd hf
  receiving h := by simp [hf] at h

/-- Settles O50. -/
theorem resetStateIsGood : Obligations.ResetStateIsGood :=
  ⟨Inv.of_reset _ rfl rfl rfl rfl rfl rfl, ⟨fun _ h => absurd h (by simp [State.reset]), .inl rfl⟩, rfl, rfl, rfl, rfl,
    rfl, rfl, rfl, rfl⟩

end Sys2Proof.Machine
end

section
/-! What taking a byte can do (42_frame_decode.md R190 to R197; 43_framer.md R227), said once for DEC and once for the
framer behind it. -/

namespace Sys2Proof.Machine

/-! ## The registers DEC writes -/

/-- From `s` to `t` only DEC's own registers have changed, and the draw counter (log 4). -/
def DecoderWrites (s t : State) : Prop :=
  ∃ crc crcSet opc len pay rcrc n dph escf draws,
    t = { s with
      crc := crc, crcSet := crcSet, opc := opc, len := len, pay := pay, rcrc := rcrc, n := n, dph := dph, escf := escf
      draws := draws }

theorem DecoderWrites.refl (s : State) : DecoderWrites s s := ⟨_, _, _, _, _, _, _, _, _, _, rfl⟩

theorem DecoderWrites.trans {s t u : State} (h : DecoderWrites s t) (h' : DecoderWrites t u) : DecoderWrites s u := by
  obtain ⟨_, _, _, _, _, _, _, _, _, _, rfl⟩ := h
  obtain ⟨_, _, _, _, _, _, _, _, _, _, rfl⟩ := h'
  exact ⟨_, _, _, _, _, _, _, _, _, _, rfl⟩

theorem DecoderWrites.setPhase (s : State) (d : DPhase) : DecoderWrites s (s.setPhase d) :=
  ⟨_, _, _, _, _, _, _, _, _, _, rfl⟩

theorem DecoderWrites.setEsc (s : State) (b : Bool) : DecoderWrites s (s.setEsc b) :=
  ⟨_, _, _, _, _, _, _, _, _, _, rfl⟩

theorem DecoderWrites.stepCrc (s : State) (b : Byte) : DecoderWrites s (s.stepCrc b) := by
  rw [State.stepCrc_eq]
  exact ⟨_, _, _, _, _, _, _, _, _, _, rfl⟩

theorem DecoderWrites.noteCrcRead (s : State) : DecoderWrites s s.noteCrcRead := by
  unfold State.noteCrcRead
  split
  · exact .refl s
  · exact ⟨_, _, _, _, _, _, _, _, _, _, rfl⟩

theorem DecoderWrites.checkCrc (s : State) : DecoderWrites s s.checkCrc := by
  unfold State.checkCrc
  split
  · exact (noteCrcRead s).trans (setPhase _ _)
  · exact (noteCrcRead s).trans (setPhase _ _)

theorem DecoderWrites.accept (s : State) (b : Byte) : DecoderWrites s (s.accept b) := by
  have hcount : ∀ u, DecoderWrites s u → DecoderWrites s u.countByte :=
    fun u h => h.trans ⟨_, _, _, _, _, _, _, _, _, _, rfl⟩
  refine hcount _ ?_
  unfold State.acceptByte State.crcFieldByte
  split_ifs
  · exact DecoderWrites.trans (t := s.setOpc b) ⟨_, _, _, _, _, _, _, _, _, _, rfl⟩ (stepCrc _ b)
  · exact DecoderWrites.trans (t := s.setLen b) ⟨_, _, _, _, _, _, _, _, _, _, rfl⟩ (stepCrc _ b)
  · exact DecoderWrites.trans (t := s.setPay _ b) ⟨_, _, _, _, _, _, _, _, _, _, rfl⟩ (stepCrc _ b)
  · exact ⟨_, _, _, _, _, _, _, _, _, _, rfl⟩
  · exact ⟨_, _, _, _, _, _, _, _, _, _, rfl⟩
  · exact DecoderWrites.trans (t := s.setRcrc _) ⟨_, _, _, _, _, _, _, _, _, _, rfl⟩ (checkCrc _)
  · exact DecoderWrites.trans (t := s.setRcrc _) ⟨_, _, _, _, _, _, _, _, _, _, rfl⟩ (checkCrc _)

theorem DecoderWrites.decStep (s : State) (b : Byte) : DecoderWrites s (s.decStep b) := by
  unfold State.decStep
  cases s.dph with
  | start =>
    dsimp only
    split
    · exact ⟨_, _, _, _, _, _, _, _, _, _, rfl⟩
    · exact setPhase s _
  | body =>
    dsimp only
    split_ifs
    · exact (setEsc s false).trans (accept _ b)
    · exact setEsc s true
    · exact accept s b
  | endMark => dsimp only; split <;> exact setPhase s _
  | done => exact setPhase s _
  | err cause => exact .refl s

theorem DecoderWrites.decFeed (w : List Byte) (s : State) : DecoderWrites s (s.decFeed w) := by
  induction w generalizing s with
  | nil => exact .refl s
  | cons b w ih =>
    rw [State.decFeed_cons, State.feedOn]
    split
    · exact decStep s b
    all_goals exact (decStep s b).trans (ih _)

/-! ## The verdict behind a byte (R227) -/

/-- The decoder awaits more bytes of a frame. -/
def DPhase.Going (d : DPhase) : Prop := d = .start ∨ d = .body ∨ d = .endMark

/-- `FE_LENGTH` in numbers (R281, R282). -/
theorem BlockError.record_length_ne (e : BlockError) (he : e ≠ .frame .length) : e.record ≠ .err 1 3 0 := by
  cases e with
  | frame c => cases c <;> simp [BlockError.record, BlockError.kind, BlockError.cause, BlockError.info, ErrKind.code, FrameCause.code] at he ⊢
  | _ => simp [BlockError.record, BlockError.kind, ErrKind.code]

/-- From `s` to `t` the command has ended with the record `r`, ABT and VAL having been written or not. -/
def Ended (s t : State) (r : Completion) : Prop :=
  ∃ abt val, t = State.finish { s with abt := abt, val := val } r

/-- The checks of OD.READ end the command (R250); FE_LENGTH is none of their errors. -/
theorem State.checkRead_ended (s : State) : ∃ r, Ended s s.checkRead r ∧ r ≠ .err 1 3 0 := by
  simp only [State.checkRead]
  split_ifs
  · exact ⟨_, ⟨_, _, rfl⟩, BlockError.record_length_ne _ nofun⟩
  · exact ⟨_, ⟨_, _, rfl⟩, BlockError.record_length_ne _ nofun⟩
  · exact ⟨_, ⟨_, _, rfl⟩, BlockError.record_length_ne _ nofun⟩
  · exact ⟨_, ⟨_, _, rfl⟩, BlockError.record_length_ne _ nofun⟩
  · exact ⟨_, ⟨_, _, rfl⟩, nofun⟩

/-- The checks of OD.WRITE end the command (R256). -/
theorem State.checkWrite_ended (s : State) : ∃ r, Ended s s.checkWrite r ∧ r ≠ .err 1 3 0 := by
  simp only [State.checkWrite]
  split_ifs
  · exact ⟨_, ⟨_, _, rfl⟩, BlockError.record_length_ne _ nofun⟩
  · exact ⟨_, ⟨_, _, rfl⟩, BlockError.record_length_ne _ nofun⟩
  · exact ⟨_, ⟨_, _, rfl⟩, BlockError.record_length_ne _ nofun⟩
  · exact ⟨_, ⟨_, _, rfl⟩, BlockError.record_length_ne _ nofun⟩
  · exact ⟨_, ⟨_, _, rfl⟩, nofun⟩

/-- Behind a byte nothing follows while the decoder awaits more, and otherwise the command has ended; with FE_LENGTH only
when the decoder found it. -/
theorem State.afterByte_cases (s : State) :
    (s.dph.Going ∧ s.afterByte = s) ∨ ∃ r, Ended s s.afterByte r ∧ (s.dph ≠ .err .length → r ≠ .err 1 3 0) := by
  cases hd : s.dph with
  | start => exact .inl ⟨.inl rfl, s.afterByte_of_going (.inl hd)⟩
  | body => exact .inl ⟨.inr (.inl rfl), s.afterByte_of_going (.inr (.inl hd))⟩
  | endMark => exact .inl ⟨.inr (.inr rfl), s.afterByte_of_going (.inr (.inr hd))⟩
  | err cause =>
    have hraise : s.afterByte = s.raise (.frame cause) := by rw [State.afterByte, hd]
    exact .inr ⟨_, ⟨_, _, hraise⟩, fun h => BlockError.record_length_ne _ fun he => h (by cases he; rfl)⟩
  | done =>
    refine .inr ?_
    cases ho : s.odk with
    | none =>
      have hcomplete : s.afterByte = s.complete (.frame s.opc s.payBytes) := by rw [State.afterByte, hd, ho]
      exact ⟨_, ⟨_, _, hcomplete⟩, fun _ => nofun⟩
    | rd =>
      have hcheck : s.afterByte = s.checkRead := by rw [State.afterByte, hd, ho]
      obtain ⟨r, hr, hne⟩ := s.checkRead_ended
      exact ⟨r, hcheck ▸ hr, fun _ => hne⟩
    | wr =>
      have hcheck : s.afterByte = s.checkWrite := by rw [State.afterByte, hd, ho]
      obtain ⟨r, hr, hne⟩ := s.checkWrite_ended
      exact ⟨r, hcheck ▸ hr, fun _ => hne⟩

/-- A byte is taken: DEC steps on it, and goes on or ends the command. -/
theorem State.takeByte_cases (s : State) (b : Byte) (q : List Byte) :
    ∃ u, u = ((s.setRxq q).setRxAny true).decStep b ∧
      ((u.dph.Going ∧ s.takeByte b q = u) ∨
        ∃ r, Ended u (s.takeByte b q) r ∧ (u.dph ≠ .err .length → r ≠ .err 1 3 0)) :=
  ⟨_, rfl, State.afterByte_cases _⟩

end Sys2Proof.Machine
end

section
/-! Responses (43_framer.md R227 to R236; 44_dictionary.md R250 to R265): the verdict on a frame from the drive at its last
byte. -/

namespace Sys2Proof.Machine

/-! ## The verdict on a whole frame -/

/-- A whole frame under XFER (R227). -/
theorem State.afterByte_decoded_none (s : State) (op : Byte) (pay : List Byte) (ho : s.odk = .none)
    (hl : pay.length ≤ 255) : (s.decoded op pay).afterByte = (s.decoded op pay).complete (.frame op pay) := by
  have ho' : (s.decoded op pay).odk = .none := ho
  have hverdict : (s.decoded op pay).afterByte =
      (s.decoded op pay).complete (.frame op (s.decoded op pay).payBytes) := by
    unfold State.afterByte
    rw [ho']
    rfl
  rw [hverdict, State.payBytes_decoded s op pay hl]

/-- A whole frame under OD.READ (R250). -/
theorem State.afterByte_decoded_rd (s : State) (op : Byte) (pay : List Byte) (ho : s.odk = .rd)
    (hl : pay.length ≤ 255) :
    (s.decoded op pay).afterByte =
      if op ≠ s.reqop then (s.decoded op pay).finish (.err 3 1 0)
      else if pay.length < 4 then (s.decoded op pay).finish (.err 3 2 0)
      else if unle (pay.take 4) ≠ 0 then
        ((s.decoded op pay).setAbt (unle (pay.take 4))).finish (.err 4 0 (unle (pay.take 4)))
      else if pay.length - 4 ≠ s.wid.bytes then ((s.decoded op pay).setAbt 0).finish (.err 3 3 0)
      else (((s.decoded op pay).setAbt 0).setVal (extendValue s.sgn s.wid (unle (pay.drop 4)))).complete
        (.value (extendValue s.sgn s.wid (unle (pay.drop 4)))) := by
  have ho' : (s.decoded op pay).odk = .rd := ho
  have hcheck : (s.decoded op pay).afterByte = (s.decoded op pay).checkRead := by
    unfold State.afterByte
    rw [ho']
    rfl
  rw [hcheck]
  simp only [State.checkRead, State.payBytes_decoded s op pay hl, State.len_decoded s op pay hl, abortCode, rawValue]
  refine ite_congr rfl (fun _ => rfl) fun _ => ite_congr rfl (fun _ => rfl) fun _ => ite_congr rfl (fun _ => rfl)
    fun hcode => ite_congr rfl (fun _ => ?width) fun hwid => ?value
  case width => rw [not_not.1 hcode]; rfl
  case value =>
    have hall : (pay.drop 4).take s.wid.bytes = pay.drop 4 :=
      List.take_of_length_le (by rw [List.length_drop]; exact (not_not.1 hwid).le)
    have hall' : (pay.drop 4).take (s.decoded op pay).wid.bytes = pay.drop 4 := hall
    rw [not_not.1 hcode, hall']
    rfl

/-- A whole frame under OD.WRITE (R256). -/
theorem State.afterByte_decoded_wr (s : State) (op : Byte) (pay : List Byte) (ho : s.odk = .wr)
    (hl : pay.length ≤ 255) :
    (s.decoded op pay).afterByte =
      if op ≠ s.reqop then (s.decoded op pay).finish (.err 3 1 0)
      else if pay.length < 4 then (s.decoded op pay).finish (.err 3 2 0)
      else if unle (pay.take 4) ≠ 0 then
        ((s.decoded op pay).setAbt (unle (pay.take 4))).finish (.err 4 0 (unle (pay.take 4)))
      else if pay.length ≠ 4 then ((s.decoded op pay).setAbt 0).finish (.err 3 2 0)
      else ((s.decoded op pay).setAbt 0).complete .none := by
  have ho' : (s.decoded op pay).odk = .wr := ho
  have hcheck : (s.decoded op pay).afterByte = (s.decoded op pay).checkWrite := by
    unfold State.afterByte
    rw [ho']
    rfl
  rw [hcheck]
  simp only [State.checkWrite, State.payBytes_decoded s op pay hl, State.len_decoded s op pay hl, abortCode]
  refine ite_congr rfl (fun _ => rfl) fun _ => ite_congr rfl (fun _ => rfl) fun _ => ite_congr rfl (fun _ => rfl)
    fun hcode => ite_congr rfl (fun _ => ?shape) fun _ => ?ack
  case shape => rw [not_not.1 hcode]; rfl
  case ack => rw [not_not.1 hcode]

/-- RXANY and RXQ may be written before or after DEC's registers. -/
theorem State.received_eq (s : State) (op : Byte) (pay : List Byte) :
    s.received op pay = ((s.setRxAny true).setRxq []).decoded op pay := by
  simp only [State.received, State.decoded, State.setRxAny, State.setRxq]

/-- A frame that comes in while a response is awaited and nothing is queued is taken whole, at its last byte. -/
theorem frameThenBytes_awaiting (s : State) (i : Instr) (op : Byte) (pay : List Byte) (hc : s.cfg.WellFormed)
    (ha : s.Awaiting) (hp : i.port = .link .fromDrive) (hl : pay.length ≤ 255)
    (hw : wireOf s.cfg i = some (encodeFrame s.cfg op pay)) :
    frameThenBytes i (encodeFrame s.cfg op pay).length s = .next (s.received op pay).afterByte := by
  obtain ⟨hf, hd, hq⟩ := ha
  rw [State.received_eq]
  exact frameThenBytes_of_frame s i _ op pay [] hc hp hw hf hd hl (by rw [hq, List.nil_append, List.append_nil])

/-- Settles O35. -/
theorem xferReturnsAnyFrame : Obligations.XferReturnsAnyFrame := by
  intro s i op pay hc ha ho hl hp hw
  rw [frameThenBytes_awaiting s i op pay hc ha hp hl hw, State.received_eq]
  exact congrArg Host.Outcome.next (State.afterByte_decoded_none ((s.setRxAny true).setRxq []) op pay ho hl)

/-- Settles O38. -/
theorem readVerdictOrder : Obligations.ReadVerdictOrder := by
  intro s i op pay hc ha ho hl hp hw t code x
  have hverdict := State.afterByte_decoded_rd ((s.setRxAny true).setRxq []) op pay ho hl
  rw [← State.received_eq] at hverdict
  exact (frameThenBytes_awaiting s i op pay hc ha hp hl hw).trans (congrArg Host.Outcome.next hverdict)

/-- Settles O39. -/
theorem writeVerdictOrder : Obligations.WriteVerdictOrder := by
  intro s i op pay hc ha ho hl hp hw t code
  have hverdict := State.afterByte_decoded_wr ((s.setRxAny true).setRxq []) op pay ho hl
  rw [← State.received_eq] at hverdict
  exact (frameThenBytes_awaiting s i op pay hc ha hp hl hw).trans (congrArg Host.Outcome.next hverdict)

/-! ## Values and their bytes (R9, R116) -/

/-- `unle` of `le_k` keeps the low `8*k` bits. -/
theorem getLsbD_unle_le (k : Nat) (v : Word) (i : Nat) :
    (unle (le k v)).getLsbD i = (decide (i < 8 * k) && v.getLsbD i) := by
  induction k generalizing v i with
  | zero => simp [le, unle]
  | succ k ih =>
    rw [le, unle, BitVec.getLsbD_or, BitVec.getLsbD_setWidth, BitVec.getLsbD_extractLsb', BitVec.getLsbD_shiftLeft, ih,
      BitVec.getLsbD_ushiftRight]
    by_cases hi : i < 8
    · simp [hi, show i < 32 by omega, show i < 8 * (k + 1) by omega]
    · by_cases h32 : i < 32
      · simp [hi, h32, show 8 + (i - 8) = i by omega, show i - 8 < 8 * k ↔ i < 8 * (k + 1) by omega]
      · simp [hi, h32, BitVec.getLsbD_of_ge v i (Nat.not_lt.1 h32)]

theorem unle_le_four (v : Word) : unle (le 4 v) = v := by
  apply BitVec.eq_of_getLsbD_eq
  intro i hi
  rw [getLsbD_unle_le]
  simp; omega

/-- The bits of a value's low part. -/
theorem Width.getLsbD_low (w : Width) (v : Word) (i : Nat) :
    (w.low v).getLsbD i = (decide (i < 8 * w.bytes) && v.getLsbD i) := by
  cases w with
  | w1 => simp only [Width.low, Width.bytes, BitVec.getLsbD_setWidth]; by_cases h : i < 8 <;> simp [h]; omega
  | w2 => simp only [Width.low, Width.bytes, BitVec.getLsbD_setWidth]; by_cases h : i < 16 <;> simp [h]; omega
  | w4 =>
    by_cases h : i < 32
    · simp [Width.low, Width.bytes, h]
    · simp [Width.low, Width.bytes, BitVec.getLsbD_of_ge v i (Nat.not_lt.1 h)]

/-- The value bytes of a width, as a number, are the value's low part. -/
theorem unle_le (w : Width) (v : Word) : unle (le w.bytes v) = w.low v :=
  BitVec.eq_of_getLsbD_eq fun i _ => by rw [getLsbD_unle_le, Width.getLsbD_low]

/-- Extension leaves the low part alone. -/
theorem Width.low_extendValue (w : Width) (sgn : Bool) (v : Word) : w.low (extendValue sgn w v) = w.low v := by
  apply BitVec.eq_of_getLsbD_eq
  intro i hi
  rw [Width.getLsbD_low, Width.getLsbD_low]
  cases sgn with
  | false => rfl
  | true =>
    cases w with
    | w1 =>
      simp only [extendValue, if_true, BitVec.getLsbD_signExtend, BitVec.getLsbD_setWidth, Width.bytes]
      by_cases h : i < 8 <;> simp [h, hi]
    | w2 =>
      simp only [extendValue, if_true, BitVec.getLsbD_signExtend, BitVec.getLsbD_setWidth, Width.bytes]
      by_cases h : i < 16 <;> simp [h, hi]
    | w4 => rfl

theorem Width.low_low (w : Width) (v : Word) : w.low (w.low v) = w.low v :=
  BitVec.eq_of_getLsbD_eq fun i _ => by simp [Width.getLsbD_low]

theorem Width.bytes_le (w : Width) : w.bytes ≤ 4 := by cases w <;> decide

/-! ## A read that succeeds -/

/-- A read response with code 0 and the value bytes of `v` in the expected width completes OD.READ with the extended low
part of `v` (R250). -/
theorem State.afterByte_decoded_value (s : State) (v : Word) (ho : s.odk = .rd) (hop : s.reqop = s.cfg.opRead) :
    (s.decoded s.cfg.opRead (le 4 0 ++ le s.wid.bytes v)).afterByte =
      (((s.decoded s.cfg.opRead (le 4 0 ++ le s.wid.bytes v)).setAbt 0).setVal
        (extendValue s.sgn s.wid (s.wid.low v))).complete (.value (extendValue s.sgn s.wid (s.wid.low v))) := by
  have hlen : (le 4 0 ++ le s.wid.bytes v).length = 4 + s.wid.bytes := by simp
  have hl : (le 4 0 ++ le s.wid.bytes v).length ≤ 255 := by have := s.wid.bytes_le; omega
  have hcode : unle ((le 4 0 ++ le s.wid.bytes v).take 4) = 0 := by
    rw [List.take_left' (le_length 4 0), unle_le_four]
  have hvalue : unle ((le 4 0 ++ le s.wid.bytes v).drop 4) = s.wid.low v := by
    rw [List.drop_left' (le_length 4 0), unle_le]
  rw [State.afterByte_decoded_rd s _ _ ho hl, if_neg (not_not.2 hop.symm), if_neg (by omega), if_neg (not_not.2 hcode),
    if_neg (not_not.2 (show _ = s.wid.bytes by omega)), hvalue]

/-- What stays in RXQ may be written before or after the registers of a read. -/
theorem State.received_setRxq (s : State) (op : Byte) (pay r : List Byte) (x : Word) :
    ((((s.received op pay).setAbt 0).setVal x).setRxq r) =
      ((((s.setRxAny true).setRxq r).decoded op pay).setAbt 0).setVal x := by
  simp only [State.received, State.decoded, State.setRxAny, State.setRxq, State.setAbt, State.setVal]

theorem State.received_setRxq_nil (s : State) (op : Byte) (pay : List Byte) (x : Word) :
    (((s.received op pay).setAbt 0).setVal x).setRxq [] = ((s.received op pay).setAbt 0).setVal x := by
  rw [State.received_setRxq, ← State.received_eq]

/-- The same, taken whole from the head of RXQ with `r` behind it. -/
theorem frameThenBytes_read (s : State) (i : Instr) (w r : List Byte) (v : Word) (hc : s.cfg.WellFormed)
    (hf : s.fph = .wait) (hd : s.dph = .start) (ho : s.odk = .rd) (hop : s.reqop = s.cfg.opRead)
    (hp : i.port = .link .fromDrive) (hw : wireOf s.cfg i = some w)
    (hq : s.rxq ++ w = encodeFrame s.cfg s.cfg.opRead (le 4 0 ++ le s.wid.bytes v) ++ r) :
    frameThenBytes i (encodeFrame s.cfg s.cfg.opRead (le 4 0 ++ le s.wid.bytes v)).length s = .next
      (((((s.received s.cfg.opRead (le 4 0 ++ le s.wid.bytes v)).setAbt 0).setVal
        (extendValue s.sgn s.wid (s.wid.low v))).setRxq r).complete (.value (extendValue s.sgn s.wid (s.wid.low v)))) := by
  have hl : (le 4 0 ++ le s.wid.bytes v).length ≤ 255 := by
    have := s.wid.bytes_le
    rw [List.length_append, le_length, le_length]; omega
  rw [frameThenBytes_of_frame s i w s.cfg.opRead _ r hc hp hw hf hd hl hq]
  have hverdict := State.afterByte_decoded_value ((s.setRxAny true).setRxq r) v ho hop
  simp only [State.setRxq_cfg, State.setRxAny_cfg, State.setRxq_wid, State.setRxAny_wid, State.setRxq_sgn,
    State.setRxAny_sgn] at hverdict
  rw [State.received_setRxq, hverdict]

/-- The wire form of a row with the right CRC field. -/
theorem wireOf_of_parts (c : Cfg) (i : Instr) (op : Byte) (pay : List Byte)
    (h : i.frameParts c = some (op, pay, crcOf c (frameBody op pay))) : wireOf c i = some (encodeFrame c op pay) := by
  rw [wireOf, h]
  rfl

/-- Settles O36: the rows are the responses with the value bytes of 1, 2 and 4 bytes. -/
theorem readResponseCompletes : Obligations.ReadResponseCompletes := by
  intro s hc ⟨hf, hd, hq⟩ ho hop result crc size
  have hread : ∀ (i : Instr) (v : Word), i.port = .link .fromDrive →
      i.frameParts s.cfg = some (s.cfg.opRead, le 4 0 ++ le s.wid.bytes v, crc (le 4 0 ++ le s.wid.bytes v)) →
      frameThenBytes i (size (le 4 0 ++ le s.wid.bytes v)) s =
        result (le 4 0 ++ le s.wid.bytes v) (extendValue s.sgn s.wid (s.wid.low v)) := by
    intro i v hp hparts
    have h := frameThenBytes_read s i _ [] v hc hf hd ho hop hp (wireOf_of_parts s.cfg i _ _ hparts)
      (by rw [hq, List.nil_append, List.append_nil])
    rw [State.received_setRxq_nil] at h
    exact h
  refine ⟨fun v hwid => ?w1, fun v hwid => ?w2, fun v hwid => ?w4⟩
  case w1 =>
    intro pay
    have hpay : wordBytes 0 ++ [v] = pay := by simp only [pay, le_four, le_one_setWidth]
    have hx : extendValue s.sgn .w1 (Width.low .w1 (v.setWidth 32)) =
        if s.sgn then v.signExtend 32 else v.setWidth 32 := by simp [extendValue, Width.low]
    have h := hread (.rdRsp1 0 v (crc pay)) (v.setWidth 32) rfl
    rw [hwid, hx] at h
    exact h (congrArg (fun p => some (s.cfg.opRead, p, crc pay)) hpay)
  case w2 =>
    intro pay
    have hpay : wordBytes 0 ++ halfBytes v = pay := by simp only [pay, le_four, le_two_setWidth]
    have hx : extendValue s.sgn .w2 (Width.low .w2 (v.setWidth 32)) =
        if s.sgn then v.signExtend 32 else v.setWidth 32 := by simp [extendValue, Width.low]
    have h := hread (.rdRsp2 0 v (crc pay)) (v.setWidth 32) rfl
    rw [hwid, hx] at h
    exact h (congrArg (fun p => some (s.cfg.opRead, p, crc pay)) hpay)
  case w4 =>
    intro pay
    have hpay : wordBytes 0 ++ wordBytes v = pay := by simp only [pay, le_four]
    have hx : extendValue s.sgn .w4 (Width.low .w4 v) = v := by simp [extendValue, Width.low]
    have h := hread (.rdRsp4 0 v (crc pay)) v rfl
    rw [hwid, hx] at h
    exact h (congrArg (fun p => some (s.cfg.opRead, p, crc pay)) hpay)

/-- Settles O42: the late response stands at the head of RXQ, the frame that comes in behind it. -/
theorem staleResponseIsTakenFirst : Obligations.StaleResponseIsTakenFirst := by
  intro s i w v hc hf hd ho hop hq hp hw x
  rw [hq]
  exact frameThenBytes_read s i w w v hc hf hd ho hop hp hw (by rw [hq])

/-- Settles O43: the value bytes OD.WRITE sends are those of the response. -/
theorem writtenValueReadsBack : Obligations.WrittenValueReadsBack := by
  intro s i idx sub v hc ⟨hf, hd, hq⟩ ho hop hp w hw
  have hpay : (writePayload idx sub v s.wid).drop 3 = le s.wid.bytes v := rfl
  simp only [w, hpay] at hw ⊢
  refine ⟨_, extendValue s.sgn s.wid (s.wid.low v), frameThenBytes_read s i _ [] v hc hf hd ho hop hp hw
    (by rw [hq, List.nil_append, List.append_nil]), ⟨rfl, rfl, rfl, rfl⟩, rfl, rfl, ?_, id⟩
  rw [Width.low_extendValue, Width.low_low]

/-! ## Short responses (R255, R256, R259) -/

/-- Settles O37: a payload of the code alone brings the third check of either command, and the last one of OD.WRITE. -/
theorem shortResponsesComplete : Obligations.ShortResponsesComplete := by
  intro s abt hc ha size
  have hlen : (le 4 abt).length = 4 := le_length 4 abt
  have hcode : unle ((le 4 abt).take 4) = abt := by rw [List.take_of_length_le hlen.le, unle_le_four]
  refine ⟨fun ho hop habt => ?read, fun ho hop => ?write⟩
  case read =>
    let crc := crcOf s.cfg (frameBody s.cfg.opRead (le 4 abt))
    have hparts : (Instr.rdRsp0 abt crc).frameParts s.cfg = some (s.cfg.opRead, le 4 abt, crc) := by rw [le_four]; rfl
    have h := readVerdictOrder s (.rdRsp0 abt crc) s.cfg.opRead (le 4 abt) hc ha ho (by omega) rfl
      (wireOf_of_parts s.cfg _ _ _ hparts)
    simpa only [hop, hlen, hcode, habt, ne_eq, not_true, not_false_eq_true, if_true, if_false, Nat.lt_irrefl] using h
  case write =>
    let crc := crcOf s.cfg (frameBody s.cfg.opWrite (le 4 abt))
    have hparts : (Instr.wrRsp abt crc).frameParts s.cfg = some (s.cfg.opWrite, le 4 abt, crc) := by rw [le_four]; rfl
    have h := writeVerdictOrder s (.wrRsp abt crc) s.cfg.opWrite (le 4 abt) hc ha ho (by omega) rfl
      (wireOf_of_parts s.cfg _ _ _ hparts)
    simp only [hop, hlen, hcode, ne_eq, not_true, if_false, Nat.lt_irrefl] at h
    refine h.trans (congrArg Host.Outcome.next ?_)
    by_cases habt : abt = 0
    · rw [if_neg (not_not.2 habt), if_pos habt, habt]; rfl
    · rw [if_pos habt, if_neg habt]

/-! ## Damage (R227, R229) -/

/-- Settles O40: the second CRC byte brings the verdict, and the end marker is left. -/
theorem damagedResponseEndsCommand : Obligations.DamagedResponseEndsCommand := by
  intro s i op pay v hc ⟨hf, hd, hq⟩ hp hparts hl hv
  let content := stuff s.cfg (frameContent s.cfg op pay v)
  let u : State := ((s.setRxAny true).setRxq (endPart s.cfg)).afterContent op (BitVec.ofNat 8 pay.length) pay v (.err .crc)
  have hw : wireOf s.cfg i = some (s.cfg.start :: content ++ endPart s.cfg) := by rw [wireOf, hparts]; rfl
  have hphase : phaseAfterCrc s.cfg op (BitVec.ofNat 8 pay.length) pay v = .err .crc := if_neg hv.symm
  have htaken : (s.rxArrive (s.cfg.start :: content ++ endPart s.cfg)).takeBytes (s.cfg.start :: content).length =
      u.raise (.frame .crc) := by
    have hdrain := State.drainFrom_content (s.rxArrive (s.cfg.start :: content ++ endPart s.cfg)) op pay v []
      (endPart s.cfg) hf hd hc.2.1 hl
    rw [State.rxArrive_cfg, List.append_nil, hphase] at hdrain
    rw [State.takeBytes_eq_drainFrom _ (s.cfg.start :: content) (endPart s.cfg) (by rw [State.rxArrive_rxq, hq]; rfl)]
    exact hdrain
  refine ⟨u.raise (.frame .crc), ?_, ⟨rfl, rfl, rfl, rfl⟩, ?_⟩
  · rw [frameThenBytes_eq s i _ _ hc hp hw, ← htaken, List.length_cons, Nat.add_comm]
  · have hran := (DecoderRan.afterContent ((s.setRxAny true).setRxq (endPart s.cfg)) op pay v (.err .crc) hl).1
    exact hran.finish _

end Sys2Proof.Machine
end

section
/-! Runs of events while a response is awaited (43_framer.md R227 to R236): bytes one by one, and the time limit. -/

namespace Sys2Proof.Machine

/-! ## Bytes that come in one at a time -/

/-- RXBYTE takes the head of RXQ, so bytes that come in behind it may come in before or after (R63, R69). -/
theorem State.rxByte_rxArrive (s : State) (w : List Byte) (hq : s.rxq ≠ []) :
    (s.rxArrive w).rxByte = s.rxByte.rxArrive w := by
  by_cases hf : s.fph = .wait
  · obtain ⟨b, q, hbq⟩ := List.exists_cons_of_ne_nil hq
    have harrived : (s.rxArrive w).rxq = b :: (q ++ w) := by rw [State.rxArrive_rxq, hbq]; rfl
    rw [State.rxByte_cons (s.rxArrive w) b (q ++ w) hf harrived, State.rxByte_cons s b q hf hbq]
    calc (s.rxArrive w).takeByte b (q ++ w)
        = (s.takeByte b []).setEnv s.turns (q ++ w) := State.takeByte_setEnv s b s.turns (s.rxq ++ w) (q ++ w)
      _ = ((s.takeByte b []).setEnv s.turns q).rxArrive w := rfl
      _ = (s.takeByte b q).rxArrive w := by rw [← State.takeByte_setEnv s b s.turns s.rxq q]; rfl
  · rw [State.rxByte_of_not_wait (s.rxArrive w) hf, State.rxByte_of_not_wait s hf]

/-- A byte comes in and an RXBYTE follows. -/
def State.bringAndTake (s : State) (b : Byte) : State := (s.rxArrive [b]).rxByte

/-- Bytes that come in one at a time, each followed by an RXBYTE, do what they do when all come in first. -/
theorem State.foldl_bringAndTake (s : State) (w : List Byte) :
    w.foldl State.bringAndTake s = (s.rxArrive w).takeBytes w.length := by
  induction w generalizing s with
  | nil => simp [State.rxArrive, State.takeBytes, State.setRxq]
  | cons b w ih =>
    have hsplit : s.rxArrive (b :: w) = (s.rxArrive [b]).rxArrive w := by
      simp [State.rxArrive, State.setRxq]
    have hqueued : (s.rxArrive [b]).rxq ≠ [] := by simp
    rw [List.foldl_cons, ih, List.length_cons, State.takeBytes, hsplit, State.rxByte_rxArrive _ w hqueued]
    rfl

/-- A run of the turns of `byteByByte`. -/
theorem run_byteByByte (s : State) (w : List Byte) (hc : s.cfg.WellFormed) :
    Host.Core.run Sys2Proof.core (byteByByte w).length { s with turns := byteByByte w ++ s.turns } =
      .next (w.foldl State.bringAndTake s) := by
  induction w generalizing s with
  | nil => rfl
  | cons b w ih =>
    let ts := byteByByte w ++ s.turns
    let u := s.rxArrive [b]
    have harrive := run_cons s (u.setEnv (.rxByte :: ts) u.rxq) (.rxArrive [b]) (.rxByte :: ts)
      ((byteByByte w).length + 1) hc (frameArrives_eq _ [b])
    have htake := run_cons u (u.rxByte.setEnv ts u.rxByte.rxq) .rxByte ts (byteByByte w).length hc
      (congrArg Host.Outcome.next (State.rxByte_setEnv u ts))
    have hrest := ih u.rxByte (by rw [State.rxByte_cfg]; exact hc)
    rw [State.rxByte_turns] at hrest
    exact (harrive.trans htake).trans hrest

/-- Settles O44. -/
theorem frameIsItsBytes : Obligations.FrameIsItsBytes := by
  intro s i w hc hp hw
  rw [frameThenBytes_eq s i w _ hc hp hw, ← State.foldl_bringAndTake]
  exact run_byteByByte s w hc

/-! ## The time limit (R235, R236) -/

/-- What a turn that brings a byte, takes one or ticks does. -/
def State.receive (s : State) : Turn → State
  | .rxArrive bs => s.rxArrive bs
  | .rxByte => s.rxByte
  | .tick => s.tick
  | .host => s
  | .txResult _ => s
  | .reset _ => s

theorem runTurn_receive (s : State) (t : Turn) (h : t.isReceive = true) : runTurn t s = .next (s.receive t) := by
  cases t with
  | rxArrive bs => exact frameArrives_eq s bs
  | rxByte => rfl
  | tick => rfl
  | _ => cases h

/-- Outside F_WAIT such a turn changes RXQ at most (R233; log 13). -/
theorem State.receive_of_not_wait (s : State) (t : Turn) (hf : s.fph ≠ .wait) : ∃ q, s.receive t = s.setRxq q := by
  cases t with
  | rxArrive bs => exact ⟨_, rfl⟩
  | rxByte => exact ⟨s.rxq, State.rxByte_of_not_wait s hf⟩
  | tick => exact ⟨s.rxq, State.tick_of_not_wait s hf⟩
  | _ => exact ⟨s.rxq, rfl⟩

/-- From `s` to `t` the block has sent nothing, and its configuration is as before. -/
def SendsNothing (s t : State) : Prop := t.cfg = s.cfg ∧ t.writes = s.writes ∧ t.txs = s.txs

/-- From `s` to `t` the block goes on waiting, having delivered nothing and with TMR = `tmr`. -/
def KeepsWaiting (s t : State) (tmr : Word) : Prop := t.fph = .wait ∧ t.records = s.records ∧ t.tmr = tmr

/-- A byte taken in F_WAIT: the block goes on waiting, TMR as before, or the command has ended (R227). -/
theorem State.takeByte_of_wait (s : State) (b : Byte) (q : List Byte) (hf : s.fph = .wait) :
    SendsNothing s (s.takeByte b q) ∧
      (KeepsWaiting s (s.takeByte b q) s.tmr ∨ ∃ r, Completed s (s.takeByte b q) r) := by
  obtain ⟨u, hu, hcases⟩ := s.takeByte_cases b q
  have hdec := DecoderWrites.decStep ((s.setRxq q).setRxAny true) b
  rw [← hu] at hdec
  obtain ⟨_, _, _, _, _, _, _, _, _, _, rfl⟩ := hdec
  rcases hcases with ⟨-, htake⟩ | ⟨r, ⟨abt, val, htake⟩, -⟩
  · rw [htake]
    exact ⟨⟨rfl, rfl, rfl⟩, .inl ⟨hf, rfl, rfl⟩⟩
  · rw [htake]
    exact ⟨⟨rfl, rfl, rfl⟩, .inr ⟨r, rfl, rfl, rfl, rfl⟩⟩

/-- A turn in F_WAIT: the block goes on waiting, TMR one lower after a TICK, or the command has ended. -/
theorem State.receive_of_wait (s : State) (t : Turn) (hf : s.fph = .wait) (hr : t.isReceive = true) :
    SendsNothing s (s.receive t) ∧
      (KeepsWaiting s (s.receive t) (if t = .tick then s.tmr - 1 else s.tmr) ∧ (t = .tick → s.tmr ≠ 1) ∨
        ∃ r, Completed s (s.receive t) r) := by
  cases t with
  | rxArrive bs => exact ⟨⟨rfl, rfl, rfl⟩, .inl ⟨⟨hf, rfl, rfl⟩, nofun⟩⟩
  | rxByte =>
    cases hq : s.rxq with
    | nil =>
      have hnone : s.receive .rxByte = s := State.rxByte_of_nil s hq
      rw [hnone]
      exact ⟨⟨rfl, rfl, rfl⟩, .inl ⟨⟨hf, rfl, rfl⟩, nofun⟩⟩
    | cons b q =>
      have htake : s.receive .rxByte = s.takeByte b q := State.rxByte_cons s b q hf hq
      obtain ⟨hnothing, hcases⟩ := s.takeByte_of_wait b q hf
      rw [htake]
      exact ⟨hnothing, hcases.imp_left fun h => ⟨h, nofun⟩⟩
  | tick =>
    by_cases hlast : s.tmr = 1
    · have htick : s.receive .tick = (s.loadTimer 0).raise s.timeoutError := State.tick_of_last s hf hlast
      rw [htick]
      exact ⟨⟨rfl, rfl, rfl⟩, .inr ⟨_, rfl, rfl, rfl, rfl⟩⟩
    · have htick : s.receive .tick = s.loadTimer (s.tmr - 1) := State.tick_of_not_last s hf hlast
      rw [htick]
      exact ⟨⟨rfl, rfl, rfl⟩, .inl ⟨⟨hf, rfl, rfl⟩, fun _ => hlast⟩⟩
  | _ => cases hr

/-- The run after a step. -/
theorem run_of_step (s u : State) (k : Nat) (h : step s = .next u) :
    Host.Core.run Sys2Proof.core (k + 1) s = Host.Core.run Sys2Proof.core k u := by
  have hs : Sys2Proof.core.step s = .next u := h
  simp only [Host.Core.run, hs]

/-- Outside F_WAIT such turns change RXQ at most. -/
theorem run_receive_of_not_wait (ts : List Turn) (s : State) (hc : s.cfg.WellFormed) (ht : s.turns = ts)
    (hf : s.fph ≠ .wait) (hr : ∀ t, t ∈ ts → t.isReceive = true) :
    ∃ q, Host.Core.run Sys2Proof.core ts.length s = .next (s.setEnv [] q) := by
  induction ts generalizing s with
  | nil =>
    have hself : s.setEnv [] s.rxq = s := by rw [← ht, State.setEnv_self]
    exact ⟨s.rxq, congrArg Host.Outcome.next hself.symm⟩
  | cons t ts ih =>
    obtain ⟨p, hp⟩ := State.receive_of_not_wait { s with turns := ts } t hf
    have hstep : step s = .next (s.setEnv ts p) := by
      rw [step_of_turn s t ts hc ht, runTurn_receive _ t (hr t (.head ts)), hp]
      rfl
    obtain ⟨q, hq⟩ := ih (s.setEnv ts p) hc rfl hf fun u hu => hr u (.tail t hu)
    exact ⟨q, (run_of_step s _ ts.length hstep).trans hq⟩

/-- One TICK less to come and one less to wait for. -/
theorem toNat_sub_one_le (v : Word) (k : Nat) (hv : v ≠ 0) (h : v.toNat ≤ k + 1) : (v - 1).toNat ≤ k := by
  have hpos : v.toNat ≠ 0 := fun h0 => hv (BitVec.eq_of_toNat_eq h0)
  have hlt := v.isLt
  have hone : (1 : Word).toNat = 1 := rfl
  rw [BitVec.toNat_sub, hone]
  omega

/-- With at least TMR TICKs among the turns the command ends in F_WAIT, with one record and nothing sent. -/
theorem run_receive_of_wait (ts : List Turn) (s : State) (hc : s.cfg.WellFormed) (ht : s.turns = ts)
    (hf : s.fph = .wait) (htmr : s.tmr ≠ 0) (hr : ∀ t, t ∈ ts → t.isReceive = true)
    (hticks : s.tmr.toNat ≤ ts.countP (fun t => decide (t = .tick))) :
    ∃ t r, Host.Core.run Sys2Proof.core ts.length s = .next t ∧ Completed s t r ∧ SendsNothing s t := by
  induction ts generalizing s with
  | nil => exact absurd (BitVec.eq_of_toNat_eq (Nat.le_zero.1 hticks)) htmr
  | cons t ts ih =>
    have hreceive := hr t (.head ts)
    have hr' : ∀ u, u ∈ ts → u.isReceive = true := fun u hu => hr u (.tail t hu)
    let u := State.receive { s with turns := ts } t
    have hstep : step s = .next u := by rw [step_of_turn s t ts hc ht, runTurn_receive _ t hreceive]
    have hturns : u.turns = ts := by
      cases t with
      | rxByte => exact State.rxByte_turns _
      | tick => simp only [u, State.receive, State.tick]; split_ifs <;> rfl
      | _ => rfl
    have hrun := run_of_step s u ts.length hstep
    obtain ⟨hnothing, hcases⟩ := State.receive_of_wait { s with turns := ts } t hf hreceive
    obtain ⟨hcfg, hwrites, htxs⟩ := hnothing
    have hc' : u.cfg.WellFormed := hcfg ▸ hc
    rcases hcases with ⟨⟨hf', hrecords, htmr'⟩, hlast⟩ | ⟨r, hres, hrecords, hbusy, hidle⟩
    · have hticks' : u.tmr ≠ 0 ∧ u.tmr.toNat ≤ ts.countP (fun t => decide (t = .tick)) := by
        show State.tmr (State.receive _ t) ≠ 0 ∧ (State.tmr (State.receive _ t)).toNat ≤ _
        rw [htmr']
        by_cases htick : t = .tick
        · rw [if_pos htick]
          refine ⟨sub_ne_zero.2 (hlast htick), toNat_sub_one_le s.tmr _ htmr ?_⟩
          simpa [htick] using hticks
        · rw [if_neg htick]
          exact ⟨htmr, by simpa [htick] using hticks⟩
      obtain ⟨v, r, hv, ⟨hres, hrecords', hbusy, hidle⟩, hcfg', hwrites', htxs'⟩ :=
        ih u hc' hturns hf' hticks'.1 hr' hticks'.2
      exact ⟨v, r, hrun.trans hv, ⟨hres, hrecords'.trans (congrArg (· ++ [r]) hrecords), hbusy, hidle⟩,
        hcfg'.trans hcfg, hwrites'.trans hwrites, htxs'.trans htxs⟩
    · have hidle' : u.fph = .idle := hidle
      obtain ⟨q, hq⟩ := run_receive_of_not_wait ts u hc' hturns (by rw [hidle']; nofun) hr'
      exact ⟨_, r, hrun.trans hq, ⟨hres, hrecords, hbusy, hidle⟩, hcfg, hwrites, htxs⟩

/-- Settles O45. -/
theorem transactionEndsWithinTimeout : Obligations.TransactionEndsWithinTimeout := by
  intro s hc hf htmr hr hticks
  obtain ⟨t, r, ht, hcompleted, -, hwrites, htxs⟩ := run_receive_of_wait s.turns s hc rfl hf htmr hr hticks
  exact ⟨t, r, ht, hcompleted, hwrites, htxs⟩

end Sys2Proof.Machine
end

section
/-! The invariant of the block (10_state.md R24 to R30; 43_framer.md R221 to R229). `Inv` has a part for the idle block,
buffers and N in range; a part for a transaction, which no byte of the response touches; and a part for the decoder while
a response is awaited. -/

namespace Sys2Proof.Machine

/-! ## The parts of the invariant -/

/-- The buffers and N are in range, whatever the block is doing. -/
def InRange (s : State) : Prop := BuffersOk s ∧ s.n.toNat ≤ 259

/-- What holds during a transaction, of the registers no byte of the response touches (R222, R226, R250, R256). -/
def Transaction (s : State) : Prop :=
  s.busy = true ∧ s.tmr ≠ 0 ∧
    (Memory.Filled s.wlen.toNat s.wire ∧ ∃ op pay, pay.length ≤ 255 ∧ s.wireBytes = encodeFrame s.cfg op pay) ∧
    (s.odk = .rd → s.reqop = s.cfg.opRead) ∧ (s.odk = .wr → s.reqop = s.cfg.opWrite)

theorem Inv.inRange {s : State} (h : Inv s) : InRange s := ⟨h.buffers, h.count⟩

theorem Inv.transaction {s : State} (h : Inv s) (hf : s.fph ≠ .idle) : Transaction s :=
  ⟨h.busy.2 hf, h.timer hf, h.request hf, h.reqop hf⟩

/-- An idle block is ready. -/
theorem Inv.idle_of_ready {s : State} (h : Inv s) (hb : s.busy = false) : s.fph = .idle := by
  by_contra hf
  have hbusy := h.busy.2 hf
  rw [hb] at hbusy
  cases hbusy

/-- The invariant of an idle block. -/
theorem Inv.of_idle {s : State} (h : InRange s) (hb : s.busy = false) (hf : s.fph = .idle) : Inv s where
  buffers := h.1
  count := h.2
  busy := by simp [hb, hf]
  timer := absurd hf
  request := absurd hf
  reqop := absurd hf
  receiving hw := by simp [hf] at hw

/-- The invariant during a transaction. -/
theorem Inv.of_transaction {s : State} (h : InRange s) (ht : Transaction s) (hf : s.fph ≠ .idle)
    (hr : s.fph = .wait → DecoderOk s ∧ (s.rxany = true ↔ s.dph ≠ .start)) : Inv s := by
  obtain ⟨hb, htmr, hreq, hop⟩ := ht
  exact ⟨h.1, h.2, by simp [hb, hf], fun _ => htmr, fun _ => hreq, fun _ => hop, hr⟩

/-- Every command and every transaction ends in an idle block (R230, R294). -/
theorem Inv.finish {s : State} (h : InRange s) (r : Completion) : Inv (s.finish r) :=
  Inv.of_idle (s := s.finish r) h rfl rfl

/-- The invariant does not depend on what host and environment still have to do. -/
theorem Inv.of_env {s : State} (h : Inv s) (ts : List Turn) (cs : List (List Byte)) (q : List Byte) :
    Inv { s with turns := ts, cmds := cs, rxq := q } :=
  ⟨h.buffers, h.count, h.busy, h.timer, h.request, h.reqop, h.receiving⟩

/-! ## The buffers -/

theorem toNat_le_255 (b : Byte) : b.toNat ≤ 255 := Nat.le_of_lt_succ b.isLt

/-- A payload LEN can count is stored inside PAY. -/
theorem BuffersOk.writePay {s : State} (h : BuffersOk s) (p : List Byte) (hp : p.length ≤ 255) :
    Memory.wf (Memory.writeBytes s.pay 0 p) = true ∧ Memory.below 255 (Memory.writeBytes s.pay 0 p) = true := by
  obtain ⟨hwf, hbelow, -⟩ := h
  exact ⟨Memory.writeBytes_wf _ _ _ hwf, Memory.writeBytes_below _ _ _ _ (by omega) hbelow⟩

/-- The buffers with a frame built in them (R176). -/
theorem BuffersOk.built {s : State} (h : BuffersOk s) (op : Byte) (pay : List Byte) (hl : pay.length ≤ 255) :
    BuffersOk (s.built op pay) := by
  obtain ⟨hpwf, hpbelow⟩ := h.writePay pay hl
  obtain ⟨-, -, hwwf, hwbelow, -⟩ := h
  have hw : (encodeFrame s.cfg op pay).length ≤ 520 := wireFrame_length_le s.cfg op pay _ hl
  refine ⟨hpwf, hpbelow, Memory.writeBytes_wf _ _ _ hwwf, Memory.writeBytes_below _ _ _ _ (by omega) hwbelow, ?_⟩
  show (BitVec.ofNat 10 (encodeFrame s.cfg op pay).length).toNat ≤ 520
  rw [BitVec.toNat_ofNat]
  omega

/-- The bytes just written hold values. -/
theorem Memory.filled_writeBytes (m : Memory) (x : List Byte) : Memory.Filled x.length (Memory.writeBytes m 0 x) := by
  intro k hk
  rw [Memory.read_writeBytes, if_pos ⟨Nat.zero_le k, by omega⟩]
  simp [hk]

/-- One more byte written behind a filled part. -/
theorem Memory.Filled.write {n : Nat} {m : Memory} (h : Memory.Filled n m) (b : Byte) :
    Memory.Filled (n + 1) (Memory.write m n b) := by
  intro k hk
  rw [Memory.read_write]
  split
  · rfl
  · exact h k (by omega)

theorem Memory.Filled.mono {n k : Nat} {m : Memory} (h : Memory.Filled n m) (hk : k ≤ n) : Memory.Filled k m :=
  fun a ha => h a (by omega)

/-- Where WIRE holds values, what it reads depends on nothing else. -/
theorem State.wireBytes_congr {s t : State} (h : Memory.Filled s.wlen.toNat s.wire) (hwire : t.wire = s.wire)
    (hwlen : t.wlen = s.wlen) : t.wireBytes = s.wireBytes := by
  unfold State.wireBytes
  rw [hwlen]
  refine List.map_congr_left fun k hk => ?_
  obtain ⟨b, hb⟩ := Option.isSome_iff_exists.1 (h k (List.mem_range.1 hk))
  rw [State.wireByte, State.wireByte, hwire, hb]
  rfl

/-! ## DEC -/

/-- A payload and a count in range, whatever the other registers hold. -/
theorem InRange.of_payload {s t : State} (h : InRange s) (p : List Byte) (k : Nat) (hp : p.length ≤ 255) (hk : k ≤ 259)
    (hpay : t.pay = Memory.writeBytes s.pay 0 p) (hn : t.n = BitVec.ofNat 9 k) (hwire : t.wire = s.wire)
    (hwlen : t.wlen = s.wlen) : InRange t := by
  obtain ⟨hpwf, hpbelow⟩ := h.1.writePay p hp
  obtain ⟨⟨-, -, hwwf, hwbelow, hwlen'⟩, -⟩ := h
  refine ⟨?_, ?_⟩
  · rw [BuffersOk, hpay, hwire, hwlen]
    exact ⟨hpwf, hpbelow, hwwf, hwbelow, hwlen'⟩
  · rw [hn, ofNat9_toNat k hk]
    exact hk

/-- The bytes of DECODE keep the buffers and N in range (R190 to R197). -/
theorem InRange.decFeed {s : State} (h : InRange s) (w : List Byte) : InRange (s.decReset.decFeed w) := by
  have hreset : InRange s.decReset := ⟨h.1, Nat.zero_le _⟩
  rcases decode_bytes_cases s.decReset.cfg w with
    rfl | ⟨b, v, rfl, hb⟩ | ⟨u, x, rfl, hx, hcut⟩ | ⟨u, rest, op, pay, v, rfl, hl, hu⟩
  · exact hreset
  · rw [State.decFeed_of_noStart s.decReset b v rfl hb]
    exact hreset
  · obtain ⟨e, he⟩ := State.decFeed_of_cut s.decReset u x rfl hx hcut
    rw [he]
    refine State.content_induction (P := InRange) s.decReset ?start ?opc (fun op len p hp => ?body)
      (fun op len p b hp => ?crc) x hx
    case start => exact ⟨h.1, Nat.zero_le _⟩
    case opc => exact fun op => ⟨h.1, show 1 ≤ 259 by decide⟩
    all_goals have := toNat_le_255 len
    case body => exact hreset.of_payload p (p.length + 2) (by omega) (by omega) rfl rfl rfl rfl
    case crc => exact hreset.of_payload p (p.length + 3) (by omega) (by omega) rfl rfl rfl rfl
  · rw [State.decFeed_of_frame s.decReset u rest op pay v rfl hl hu]
    exact hreset.of_payload pay (pay.length + 4) hl (by omega) rfl rfl rfl rfl

/-! ## What a command can do -/

/-- From `s` to `t` a command has ended in the step that took it: one record, configuration and streams of the
transport as before, buffers and N still in range. -/
def EndsAtOnce (s t : State) : Prop :=
  (∃ r, Completed s t r) ∧ t.cfg = s.cfg ∧ t.txs = s.txs ∧ t.rxq = s.rxq ∧ (InRange s → InRange t)

/-- From `s` to `t` a command has been accepted as a transaction (R222, R250, R256). -/
def AcceptsRequest (s t : State) : Prop :=
  ∃ u op pay tmo, t = u.accepted op pay tmo ∧ Latched s u ∧ pay.length ≤ 255 ∧ tmo ≠ 0 ∧
    (u.odk = .rd → u.reqop = u.cfg.opRead) ∧ (u.odk = .wr → u.reqop = u.cfg.opWrite)

theorem EndsAtOnce.raise (s : State) (e : BlockError) : EndsAtOnce s (s.raise e) :=
  ⟨⟨_, rfl, rfl, rfl, rfl⟩, rfl, rfl, rfl, id⟩

/-- A command on a ready port ends at once or is accepted. -/
theorem exec_command_cases (s : State) (i : Instr) (hp : i.port = .command) (hb : s.busy = false) :
    ∃ t, exec i s = .next t ∧ (EndsAtOnce s t ∨ AcceptsRequest s t) := by
  cases i with
  | crcInit => exact ⟨_, crcInitCompletes s hb, .inl ⟨⟨_, rfl, rfl, rfl, rfl⟩, rfl, rfl, rfl, id⟩⟩
  | crcByte b => exact ⟨_, crcByteCompletes s b hb, .inl ⟨⟨_, rfl, rfl, rfl, rfl⟩, rfl, rfl, rfl, id⟩⟩
  | crcGet => exact ⟨_, crcGetCompletes s hb, .inl ⟨⟨_, rfl, rfl, rfl, rfl⟩, rfl, rfl, rfl, id⟩⟩
  | crcBlk x => exact ⟨_, crcBlkCompletes s x hb, .inl ⟨⟨_, rfl, rfl, rfl, rfl⟩, rfl, rfl, rfl, id⟩⟩
  | encode op pay =>
    by_cases hl : pay.length ≤ 255
    · exact ⟨_, exec_encode s op pay hb hl,
        .inl ⟨⟨_, rfl, rfl, rfl, rfl⟩, rfl, rfl, rfl, fun h => ⟨h.1.built op pay hl, h.2⟩⟩⟩
    · exact ⟨_, exec_encode_of_long s op pay hb (Nat.lt_of_not_le hl), .inl (.raise s _)⟩
  | decode w =>
    have hexec := exec_decode s w hb
    obtain ⟨t, ht, hcompleted, hcfg, -, -, -, -, -, -, -, -, -, -, -, -, hrxq, htxs, -⟩ := exec_decode_completes s w hb
    have htarget : t = (s.decReset.decFeed w).finish (s.decReset.decFeed w).decRecord := by
      rw [← State.decVerdict_eq]
      exact Host.Outcome.next.inj (ht.symm.trans hexec)
    exact ⟨t, ht, .inl ⟨⟨_, hcompleted⟩, hcfg, htxs, hrxq, fun h => htarget ▸ h.decFeed w⟩⟩
  | xfer op pay tmo =>
    by_cases hl : pay.length ≤ 255
    · by_cases htmo : tmo = 0
      · subst htmo
        exact ⟨_, exec_xfer_of_zero_timeout s op pay hb hl, .inl (.raise s _)⟩
      · exact ⟨_, xferIsAccepted s op pay tmo hb hl htmo,
          .inr ⟨_, op, pay, tmo, rfl, ⟨_, _, _, _, _, _, _, rfl⟩, hl, htmo, nofun, nofun⟩⟩
    · exact ⟨_, exec_xfer_of_long s op pay tmo hb (Nat.lt_of_not_le hl), .inl (.raise s _)⟩
  | odRead idx sub wid sgn tmo =>
    by_cases hill : Width.ofByte wid = none ∨ tmo = 0
    · exact ⟨_, exec_odRead_of_illegal s idx sub wid sgn tmo hb hill, .inl (.raise s _)⟩
    · obtain ⟨hwid, htmo⟩ := not_or.1 hill
      obtain ⟨width, hwidth⟩ := Option.ne_none_iff_exists'.1 hwid
      exact ⟨_, odReadIsAccepted s idx sub wid width sgn tmo hb hwidth htmo, .inr ⟨_, _, _, tmo, rfl,
        ⟨_, _, _, _, _, _, _, rfl⟩, readPayload_length_le idx sub, htmo, fun _ => rfl, nofun⟩⟩
  | odWrite idx sub val wid tmo =>
    by_cases hill : Width.ofByte wid = none ∨ tmo = 0
    · exact ⟨_, exec_odWrite_of_illegal s idx sub val wid tmo hb hill, .inl (.raise s _)⟩
    · obtain ⟨hwid, htmo⟩ := not_or.1 hill
      obtain ⟨width, hwidth⟩ := Option.ne_none_iff_exists'.1 hwid
      exact ⟨_, exec_odWrite s idx sub val wid width tmo hb hwidth htmo, .inr ⟨_, _, _, tmo, rfl,
        ⟨_, _, _, _, _, _, _, rfl⟩, writePayload_length_le idx sub val width, htmo, nofun, fun _ => rfl⟩⟩
  | _ => simp [Instr.port] at hp

/-- The state after acceptance is that of a transaction (R222). -/
theorem Inv.accepted {s : State} (h : InRange s) (op : Byte) (pay : List Byte) (tmo : Word) (hl : pay.length ≤ 255)
    (htmo : tmo ≠ 0) (hop : (s.odk = .rd → s.reqop = s.cfg.opRead) ∧ (s.odk = .wr → s.reqop = s.cfg.opWrite)) :
    Inv (s.accepted op pay tmo) := by
  obtain ⟨hbuffers, hcount⟩ := h
  have hw : (encodeFrame s.cfg op pay).length ≤ 520 := wireFrame_length_le s.cfg op pay _ hl
  have hfilled : Memory.Filled (s.accepted op pay tmo).wlen.toNat (s.accepted op pay tmo).wire := by
    refine (Memory.filled_writeBytes s.wire (encodeFrame s.cfg op pay)).mono ?_
    show (BitVec.ofNat 10 (encodeFrame s.cfg op pay).length).toNat ≤ _
    rw [BitVec.toNat_ofNat]
    omega
  exact Inv.of_transaction ⟨hbuffers.built op pay hl, hcount⟩
    ⟨rfl, htmo, ⟨hfilled, op, pay, hl, State.wireBytes_built s op pay hl⟩, hop⟩ nofun nofun

/-- Every command keeps the invariant, on a ready port or held off. -/
theorem Inv.exec_command {s t : State} (h : Inv s) (i : Instr) (hp : i.port = .command) (hexec : exec i s = .next t) :
    Inv t := by
  cases hb : s.busy with
  | true =>
    cases (exec_command_of_busy s i hp hb).symm.trans hexec
    exact h
  | false =>
    obtain ⟨v, hv, hcases⟩ := exec_command_cases s i hp hb
    cases hv.symm.trans hexec
    rcases hcases with ⟨⟨r, -, -, hbusy, hidle⟩, -, -, -, hrange⟩ |
      ⟨u, op, pay, tmo, rfl, ⟨_, _, _, _, _, _, _, rfl⟩, hl, htmo, hop⟩
    · exact Inv.of_idle (hrange h.inRange) hbusy hidle
    · refine Inv.accepted ?_ op pay tmo hl htmo hop
      exact h.inRange

/-! ## A byte of the response -/

theorem DPhase.not_going_done : ¬ DPhase.done.Going := by simp [DPhase.Going]

theorem DPhase.not_going_err (c : FrameCause) : ¬ (DPhase.err c).Going := by simp [DPhase.Going]

/-- What a byte given to DEC leaves: the buffers and N in range, and a decoder inside a frame, or one that goes no
further. -/
def Received (s : State) : Prop := InRange s ∧ (s.dph.Going → DecoderOk s ∧ s.dph ≠ .start)

/-- D_BODY, the next byte being no escaped one. -/
structure InsideBody (s : State) : Prop where
  inRange : InRange s
  phase : s.dph = .body
  escf : s.escf = false
  crcSet : s.crcSet = true
  bound : 2 ≤ s.n.toNat → s.n.toNat < s.len.toNat + 4
  filled : 2 ≤ s.n.toNat → Memory.Filled (min (s.n.toNat - 2) s.len.toNat) s.pay

/-- N after one more content byte (R193). -/
theorem toNat_add_one (n : BitVec 9) (h : n.toNat ≤ 258) : (n + 1).toNat = n.toNat + 1 := by
  have hone : (1 : BitVec 9).toNat = 1 := rfl
  rw [BitVec.toNat_add, hone]
  omega

/-- The `k`-th content byte, counted from 0, after which the decoder is still in D_BODY. -/
theorem Received.of_body {s : State} (k : Nat) (hk : k ≤ 258) (hn : s.n.toNat = k + 1) (hbuffers : BuffersOk s)
    (hd : s.dph = .body) (hset : s.crcSet = true) (hbound : 1 ≤ k → k < s.len.toNat + 3)
    (hfilled : 1 ≤ k → Memory.Filled (min (k - 1) s.len.toNat) s.pay) : Received s := by
  refine ⟨⟨hbuffers, by omega⟩, fun _ => ⟨?_, by simp [hd]⟩⟩
  rw [DecoderOk, hd, hn]
  exact ⟨hset, fun h2 => by have := hbound (by omega); omega, fun h2 => hfilled (by omega)⟩

/-- A byte that ends the frame or is an error. -/
theorem Received.of_end {s : State} (h : InRange s) (hd : ¬ s.dph.Going) : Received s := ⟨h, fun hg => absurd hg hd⟩

/-- The CRC comparison ends the frame, or leaves the decoder at the end marker with its payload stored (R194). -/
theorem Received.checkCrc {s : State} (hbuffers : BuffersOk s) (hn : (s.n + 1).toNat ≤ 259) (he : s.escf = false)
    (hset : s.crcSet = true) (hfilled : Memory.Filled s.len.toNat s.pay) : Received s.checkCrc.countByte := by
  rw [State.checkCrc, State.noteCrcRead_of_set s hset]
  split_ifs with _ hend
  · exact ⟨⟨hbuffers, hn⟩, fun _ => ⟨⟨hend, he, hfilled⟩, nofun⟩⟩
  · exact .of_end ⟨hbuffers, hn⟩ DPhase.not_going_done
  · exact .of_end ⟨hbuffers, hn⟩ (DPhase.not_going_err _)

/-- A content byte (R193): OPC, LEN, a payload byte, or one of the two CRC bytes. -/
theorem InsideBody.accept {s : State} (h : InsideBody s) (b : Byte) : Received (s.accept b) := by
  obtain ⟨⟨hbuffers, -⟩, hd, he, hset, hbound, hfilled⟩ := h
  have hlen := toNat_le_255 s.len
  have hcount : s.n.toNat ≤ 258 := by
    by_cases h2 : 2 ≤ s.n.toNat
    · have := hbound h2; omega
    · omega
  have hn := toNat_add_one s.n hcount
  rw [State.accept, State.acceptByte]
  by_cases h0 : s.n = 0
  · -- OPC
    rw [if_pos h0, State.stepCrc_of_set (s.setOpc b) hset]
    have hn' : (s.n + 1).toNat = 0 + 1 := by rw [hn, h0]; rfl
    exact .of_body 0 (by decide) hn' hbuffers hd rfl nofun nofun
  by_cases h1 : s.n = 1
  · -- LEN
    rw [if_neg h0, if_pos h1, State.stepCrc_of_set (s.setLen b) hset]
    have hn' : (s.n + 1).toNat = 1 + 1 := by rw [hn, h1]; rfl
    refine .of_body 1 (by decide) hn' hbuffers hd rfl (fun _ => by omega) fun _ a ha => ?_
    exact absurd (Nat.lt_of_lt_of_le ha (Nat.min_le_left _ _)) (Nat.not_lt_zero a)
  have h2 : 2 ≤ s.n.toNat := by
    have hne0 : s.n.toNat ≠ 0 := fun h => h0 (BitVec.eq_of_toNat_eq h)
    have hne1 : s.n.toNat ≠ 1 := fun h => h1 (BitVec.eq_of_toNat_eq h)
    omega
  rw [if_neg h0, if_neg h1]
  by_cases hpay : s.n.toNat < 2 + s.len.toNat
  · -- a payload byte
    rw [if_pos hpay, State.stepCrc_of_set (s.setPay _ b) hset]
    have hstored : Memory.Filled (s.n.toNat - 2) s.pay := (hfilled h2).mono (by omega)
    obtain ⟨hpwf, hpbelow, hwire⟩ := hbuffers
    refine .of_body s.n.toNat hcount hn
      ⟨Memory.write_wf _ _ _ hpwf, Memory.write_below _ _ _ _ (by omega) hpbelow, hwire⟩ hd rfl
      (fun _ => show s.n.toNat < s.len.toNat + 3 by omega) fun _ => ?_
    exact (hstored.write b).mono (by omega)
  rw [if_neg hpay, State.crcFieldByte]
  have hstored : Memory.Filled s.len.toNat s.pay := (hfilled h2).mono (by omega)
  by_cases hfirst : s.n.toNat = 2 + s.len.toNat
  · -- the first CRC byte
    rw [if_pos hfirst]
    exact .of_body s.n.toNat hcount hn hbuffers hd hset (fun _ => show s.n.toNat < s.len.toNat + 3 by omega)
      fun _ => hstored.mono (Nat.min_le_right _ _)
  · -- the second CRC byte
    rw [if_neg hfirst]
    exact .checkCrc hbuffers (by rw [State.setRcrc_n, hn]; omega) he hset hstored

/-- DEC on a byte of the response (R190, R191, R195). -/
theorem Received.decStep {s : State} (h : InRange s) (hd : DecoderOk s) (b : Byte) : Received (s.decStep b) := by
  unfold DecoderOk at hd
  unfold State.decStep
  cases hph : s.dph with
  | start =>
    dsimp only
    split
    · refine ⟨⟨h.1, Nat.zero_le _⟩, fun _ => ⟨⟨rfl, ?_, ?_⟩, nofun⟩⟩
      · exact fun h2 => absurd (show 2 ≤ 0 from h2) (by decide)
      · exact fun h2 => absurd (show 2 ≤ 0 from h2) (by decide)
    · exact .of_end h (DPhase.not_going_err _)
  | body =>
    rw [hph] at hd
    obtain ⟨hset, hbound, hfilled⟩ := hd
    dsimp only
    split_ifs with he
    · exact InsideBody.accept (s := s.setEsc false) ⟨h, hph, rfl, hset, hbound, hfilled⟩ b
    · refine ⟨h, fun _ => ⟨?_, by rw [State.setEsc_dph, hph]; nofun⟩⟩
      rw [DecoderOk, State.setEsc_dph, hph]
      exact ⟨hset, hbound, hfilled⟩
    · exact InsideBody.accept ⟨h, hph, Bool.eq_false_of_not_eq_true he, hset, hbound, hfilled⟩ b
  | endMark =>
    dsimp only
    split
    · exact .of_end h DPhase.not_going_done
    · exact .of_end h (DPhase.not_going_err _)
  | done => rw [hph] at hd; exact hd.elim
  | err cause => rw [hph] at hd; exact hd.elim

/-- DEC touches nothing of the transaction. -/
theorem Transaction.of_decoderWrites {s t : State} (h : Transaction s) (hw : DecoderWrites s t) : Transaction t := by
  obtain ⟨_, _, _, _, _, _, _, _, _, _, rfl⟩ := hw
  obtain ⟨hb, htmr, ⟨hfilled, op, pay, hl, hwire⟩, hop⟩ := h
  exact ⟨hb, htmr, ⟨hfilled, op, pay, hl, (State.wireBytes_congr hfilled (by rfl) (by rfl)).trans hwire⟩, hop⟩

/-- A byte taken in F_WAIT (R227). -/
theorem Inv.takeByte {s : State} (h : Inv s) (hf : s.fph = .wait) (b : Byte) (q : List Byte) : Inv (s.takeByte b q) := by
  obtain ⟨hdec, -⟩ := h.receiving hf
  obtain ⟨u, hu, hcases⟩ := s.takeByte_cases b q
  have hwrites := DecoderWrites.decStep ((s.setRxq q).setRxAny true) b
  have hreceived := Received.decStep (s := (s.setRxq q).setRxAny true) h.inRange hdec b
  rw [← hu] at hwrites hreceived
  obtain ⟨hrange, hgoing⟩ := hreceived
  rcases hcases with ⟨hg, htake⟩ | ⟨r, ⟨abt, val, htake⟩, -⟩
  · rw [htake]
    have htransaction : Transaction u := by
      refine Transaction.of_decoderWrites (s := (s.setRxq q).setRxAny true) ?_ hwrites
      exact h.transaction (by rw [hf]; nofun)
    have hwait : u.fph = .wait ∧ u.rxany = true := by
      obtain ⟨_, _, _, _, _, _, _, _, _, _, rfl⟩ := hwrites
      exact ⟨hf, rfl⟩
    obtain ⟨hok, hne⟩ := hgoing hg
    exact Inv.of_transaction hrange htransaction (by rw [hwait.1]; nofun) fun _ => ⟨hok, by simp [hwait.2, hne]⟩
  · rw [htake]
    exact Inv.finish (s := { u with abt := abt, val := val }) hrange r

/-! ## Turns -/

theorem Inv.rxByte {s : State} (h : Inv s) : Inv s.rxByte := by
  by_cases hf : s.fph = .wait
  · cases hq : s.rxq with
    | nil => rw [State.rxByte_of_nil s hq]; exact h
    | cons b q => rw [State.rxByte_cons s b q hf hq]; exact h.takeByte hf b q
  · rw [State.rxByte_of_not_wait s hf]; exact h

/-- TMR stays above 0 as long as the transaction lasts (R228). -/
theorem Inv.tick {s : State} (h : Inv s) : Inv s.tick := by
  by_cases hf : s.fph = .wait
  · by_cases ht : s.tmr = 1
    · rw [State.tick_of_last s hf ht]
      exact Inv.finish (s := s.loadTimer 0) h.inRange _
    · obtain ⟨hb, -, hreq, hop⟩ := h.transaction (by rw [hf]; nofun)
      rw [State.tick_of_not_last s hf ht]
      exact Inv.of_transaction (s := s.loadTimer (s.tmr - 1)) h.inRange ⟨hb, sub_ne_zero.2 ht, hreq, hop⟩
        (by rw [State.loadTimer_fph, hf]; nofun) h.receiving
  · rw [State.tick_of_not_wait s hf]; exact h

/-- After TXRESULT(ok) a response is awaited, of which no byte has come (R224). -/
theorem Inv.txDone {s : State} (h : Inv s) (hf : s.fph = .send) : Inv s.txDone := by
  obtain ⟨hb, htmr, hreq, hop⟩ := h.transaction (by rw [hf]; nofun)
  rw [State.txDone_eq]
  exact Inv.of_transaction ⟨h.buffers, Nat.zero_le _⟩ ⟨hb, htmr, hreq, hop⟩ nofun
    fun _ => ⟨⟨rfl, rfl⟩, nofun, fun hne => absurd rfl hne⟩

/-- TXRESULT in its phase has WLEN in range, so the frame is in WIRE and no index is outside it (R26). -/
theorem Inv.transmitResult {s : State} (h : Inv s) (r : TxResult) : ∃ t, transmitResult r s = .next t ∧ Inv t := by
  obtain ⟨-, -, -, -, hw⟩ := h.buffers
  by_cases hf : s.fph = .send
  · cases r with
    | ok => exact ⟨_, transmitResult_ok s hf hw, h.txDone hf⟩
    | fail k => exact ⟨_, transmitResult_fail s k hf hw, Inv.finish (s := s.transmit _) h.inRange _⟩
  · exact ⟨s, transmitResult_of_not_send s r hf, h⟩

theorem Inv.resetEvent {s : State} (h : Inv s) (k : Nat) : ∃ t, resetEvent k s = .next t ∧ Inv t := by
  obtain ⟨-, -, -, -, hw⟩ := h.buffers
  exact ⟨_, resetEvent_eq s k fun _ => hw, Inv.of_reset _ rfl rfl rfl rfl rfl rfl⟩

/-- Whatever turn is taken, the invariant is kept. -/
theorem Inv.runTurn {s t : State} (h : Inv s) (u : Turn) (hu : runTurn u s = .next t) : Inv t := by
  cases u with
  | host =>
    rcases offerCommand_next_cases s t hu with rfl | ⟨i, rs, hp, hexec⟩ | ⟨rs, rfl⟩
    · exact h
    · exact (h.of_env s.turns rs s.rxq).exec_command i hp hexec
    · exact Inv.finish (s := { s with cmds := rs }) h.inRange _
  | txResult r =>
    obtain ⟨v, hv, hinv⟩ := h.transmitResult r
    cases hv.symm.trans hu
    exact hinv
  | rxArrive bs =>
    cases (frameArrives_eq s bs).symm.trans hu
    exact h.of_env s.turns s.cmds (s.rxq ++ bs)
  | rxByte => cases hu; exact h.rxByte
  | tick => cases hu; exact h.tick
  | reset k =>
    obtain ⟨v, hv, hinv⟩ := h.resetEvent k
    cases hv.symm.trans hu
    exact hinv

/-- Settles O55: a step is one turn, and `Inv.runTurn` says that each turn keeps the invariant. -/
theorem stepKeepsInvariant : Obligations.StepKeepsInvariant := by
  intro s t h hstep
  obtain ⟨_, ⟨_, rfl⟩ | ⟨u, ts, _, hturn⟩⟩ := step_next_cases s t hstep
  · exact h
  · exact (h.of_env ts s.cmds s.rxq).runTurn u hturn

/-! ## No faults (R26, R12; log 15) -/

/-- The host's turn never faults: a command answers a next state. -/
theorem offerCommand_ne_fault (s : State) (f : Fault) : offerCommand s ≠ .fault f := by
  intro h
  unfold offerCommand at h
  split at h
  · cases h
  · next r rs _ =>
    split at h
    · split at h
      · next i hd =>
        obtain ⟨u, hu, -⟩ := exec_command_issues { s with cmds := rs } i (decodeCommand_port r i hd)
        cases hu.symm.trans h
      -- an illegal code is answered, every other decoding error is a refusal
      all_goals cases h
    · cases h

theorem Inv.runTurn_ne_fault {s : State} (h : Inv s) (u : Turn) (f : Fault) : Machine.runTurn u s ≠ .fault f := by
  intro hu
  cases u with
  | host => exact offerCommand_ne_fault s f hu
  | txResult r =>
    obtain ⟨v, hv, -⟩ := h.transmitResult r
    cases hv.symm.trans hu
  | rxArrive bs => cases (frameArrives_eq s bs).symm.trans hu
  | rxByte => cases hu
  | tick => cases hu
  | reset k =>
    obtain ⟨v, hv, -⟩ := h.resetEvent k
    cases hv.symm.trans hu

/-- Settles O56. -/
theorem invariantExcludesFaults : Obligations.InvariantExcludesFaults := by
  intro s f h hstep
  by_cases hc : s.cfg.WellFormed
  · cases ht : s.turns with
    | nil => cases (step_of_no_turn s hc ht).symm.trans hstep
    | cons u ts => exact (h.of_env ts s.cmds s.rxq).runTurn_ne_fault u f ((step_of_turn s u ts hc ht).symm.trans hstep)
  · cases (step_of_illFormed s hc).symm.trans hstep

/-! ## The streams (R62, R63, R36) -/

/-- From `s` to `t` configuration and streams have only grown at their tails, RXQ at least outside F_WAIT. -/
def StreamsGrow (s t : State) : Prop :=
  t.cfg = s.cfg ∧ s.txs <+: t.txs ∧ s.records <+: t.records ∧ (s.fph ≠ .wait → s.rxq <+: t.rxq)

/-- What only records grew by. -/
theorem StreamsGrow.of_records {s t : State} (hcfg : t.cfg = s.cfg) (htxs : t.txs = s.txs)
    (hrecords : s.records <+: t.records) (hrxq : s.fph ≠ .wait → t.rxq = s.rxq) : StreamsGrow s t :=
  ⟨hcfg, htxs ▸ List.prefix_rfl, hrecords, fun hf => hrxq hf ▸ List.prefix_rfl⟩

theorem StreamsGrow.refl (s : State) : StreamsGrow s s := .of_records rfl rfl List.prefix_rfl fun _ => rfl

/-- A command adds at most its record. -/
theorem StreamsGrow.exec_command {s t : State} (i : Instr) (hp : i.port = .command) (hexec : exec i s = .next t) :
    StreamsGrow s t := by
  cases hb : s.busy with
  | true =>
    cases (exec_command_of_busy s i hp hb).symm.trans hexec
    exact .refl s
  | false =>
    obtain ⟨v, hv, hcases⟩ := exec_command_cases s i hp hb
    cases hv.symm.trans hexec
    rcases hcases with ⟨⟨r, -, hrecords, -, -⟩, hcfg, htxs, hrxq, -⟩ | ⟨u, op, pay, tmo, rfl, ⟨_, _, _, _, _, _, _, rfl⟩, -⟩
    · exact .of_records hcfg htxs (hrecords ▸ List.prefix_append _ _) fun _ => hrxq
    · exact .of_records rfl rfl List.prefix_rfl fun _ => rfl

/-- An RXBYTE takes from RXQ in F_WAIT alone, and sends nothing. -/
theorem StreamsGrow.rxByte (s : State) : StreamsGrow s s.rxByte := by
  by_cases hf : s.fph = .wait
  · cases hq : s.rxq with
    | nil => rw [State.rxByte_of_nil s hq]; exact .refl s
    | cons b q =>
      rw [State.rxByte_cons s b q hf hq]
      obtain ⟨⟨hcfg, -, htxs⟩, ⟨-, hrecords, -⟩ | ⟨r, -, hrecords, -⟩⟩ := s.takeByte_of_wait b q hf
      · exact .of_records hcfg htxs (hrecords ▸ List.prefix_rfl) fun hne => absurd hf hne
      · exact .of_records hcfg htxs (hrecords ▸ List.prefix_append _ _) fun hne => absurd hf hne
  · rw [State.rxByte_of_not_wait s hf]; exact .refl s

theorem StreamsGrow.tick (s : State) : StreamsGrow s s.tick := by
  unfold State.tick
  split_ifs
  · exact .of_records rfl rfl (List.prefix_append _ _) fun _ => rfl
  · exact .of_records rfl rfl (List.prefix_append _ _) fun _ => rfl
  · exact .of_records rfl rfl List.prefix_rfl fun _ => rfl
  · exact .refl s

/-- The frame that was sent is added to TXS (R68). -/
theorem StreamsGrow.txDone (s : State) : StreamsGrow s s.txDone := by
  rw [State.txDone_eq]
  exact ⟨rfl, List.prefix_append _ _, List.prefix_rfl, fun _ => List.prefix_rfl⟩

/-- The part that was sent is added to TXS, and one record delivered (R225). -/
theorem StreamsGrow.txFail (s : State) (k : Nat) : StreamsGrow s (s.txFail k) := by
  rw [State.txFail, StreamsGrow, State.raise_cfg, State.raise_txs, State.raise_records, State.raise_rxq,
    State.transmit_cfg, State.transmit_txs, State.transmit_records, State.transmit_rxq]
  exact ⟨rfl, List.prefix_append _ _, List.prefix_append _ _, fun _ => List.prefix_rfl⟩

/-- Whatever turn is taken, the streams only grow. -/
theorem StreamsGrow.runTurn {s t : State} (u : Turn) (hu : runTurn u s = .next t) : StreamsGrow s t := by
  cases u with
  | host =>
    rcases offerCommand_next_cases s t hu with rfl | ⟨i, rs, hp, hexec⟩ | ⟨rs, rfl⟩
    · exact .refl _
    · exact StreamsGrow.exec_command (s := { s with cmds := rs }) i hp hexec
    · exact .of_records rfl rfl (List.prefix_append _ _) fun _ => rfl
  | txResult r =>
    rcases transmitResult_next_cases s t r hu with rfl | rfl | ⟨k, rfl⟩
    · exact .refl _
    · exact .txDone s
    · exact .txFail s k
  | rxArrive bs =>
    cases (frameArrives_eq s bs).symm.trans hu
    exact ⟨rfl, List.prefix_rfl, List.prefix_rfl, fun _ => List.prefix_append _ _⟩
  | rxByte => cases hu; exact .rxByte s
  | tick => cases hu; exact .tick s
  | reset k =>
    rw [resetEvent_next s t k hu]
    exact ⟨rfl, State.doReset_txs s k ▸ List.prefix_append _ _, List.prefix_rfl, fun _ => List.prefix_rfl⟩

/-- Settles O59. -/
theorem streamsAreAppendOnly : Obligations.StreamsAreAppendOnly := by
  intro s t hstep
  obtain ⟨_, ⟨_, rfl⟩ | ⟨u, ts, _, hturn⟩⟩ := step_next_cases s t hstep
  · exact StreamsGrow.refl _
  · exact StreamsGrow.runTurn (s := { s with turns := ts }) u hturn

/-! ## The records of F_WAIT (R222, R229) -/

/-- From `s` to `t` no record has been delivered, or one that is not FE_LENGTH. -/
def DeliversNoLength (s t : State) : Prop := t.records = s.records ∨ ∃ r, t.records = s.records ++ [r] ∧ r ≠ .err 1 3 0

/-- The CRC comparison does not find FE_LENGTH. -/
theorem State.checkCrc_ne_length (s : State) : s.checkCrc.dph ≠ .err .length := by
  unfold State.checkCrc
  split_ifs <;> simp

/-- A content byte does not find FE_LENGTH. -/
theorem State.accept_ne_length (s : State) (b : Byte) (hd : s.dph = .body) : (s.accept b).dph ≠ .err .length := by
  rw [State.accept, State.countByte_dph, State.acceptByte, State.crcFieldByte]
  split_ifs
  all_goals simp [hd, State.checkCrc_ne_length]

/-- Only behind a complete frame does DEC find FE_LENGTH (R196). -/
theorem State.decStep_ne_length (s : State) (b : Byte) (hd : DecoderOk s) : (s.decStep b).dph ≠ .err .length := by
  unfold DecoderOk at hd
  unfold State.decStep
  cases hph : s.dph with
  | start => dsimp only; split <;> simp
  | body =>
    dsimp only
    split_ifs
    · exact State.accept_ne_length (s.setEsc false) b hph
    · simp [hph]
    · exact State.accept_ne_length s b hph
  | endMark => dsimp only; split <;> simp
  | done => rw [hph] at hd; exact hd.elim
  | err cause => rw [hph] at hd; exact hd.elim

theorem deliversNoLength_takeByte (s : State) (b : Byte) (q : List Byte) (hd : DecoderOk s) :
    DeliversNoLength s (s.takeByte b q) := by
  obtain ⟨u, hu, hcases⟩ := s.takeByte_cases b q
  have hwrites := DecoderWrites.decStep ((s.setRxq q).setRxAny true) b
  have hne := State.decStep_ne_length ((s.setRxq q).setRxAny true) b hd
  rw [← hu] at hwrites hne
  obtain ⟨_, _, _, _, _, _, _, _, _, _, rfl⟩ := hwrites
  rcases hcases with ⟨-, htake⟩ | ⟨r, ⟨abt, val, htake⟩, hr⟩
  · exact .inl (by rw [htake]; rfl)
  · exact .inr ⟨r, by rw [htake]; rfl, hr hne⟩

/-- A timeout is no FE_LENGTH (R228). -/
theorem State.timeoutError_ne_length (s : State) : s.timeoutError ≠ .frame .length := by
  unfold State.timeoutError
  split <;> nofun

theorem deliversNoLength_tick (s : State) (hf : s.fph = .wait) : DeliversNoLength s s.tick := by
  by_cases ht : s.tmr = 1
  · rw [State.tick_of_last s hf ht]
    exact .inr ⟨_, rfl, BlockError.record_length_ne _ s.timeoutError_ne_length⟩
  · rw [State.tick_of_not_last s hf ht]
    exact .inl rfl

/-- Whatever turn is taken in F_WAIT, it delivers at most one record, which is not FE_LENGTH. -/
theorem Inv.runTurn_deliversNoLength {s t : State} (h : Inv s) (hf : s.fph = .wait) (u : Turn)
    (hu : Machine.runTurn u s = .next t) : DeliversNoLength s t := by
  cases u with
  | host =>
    have hb : s.busy = true := h.busy.2 (by rw [hf]; nofun)
    cases (offerCommand_of_busy s hb).symm.trans hu
    exact .inl rfl
  | txResult r =>
    cases (transmitResult_of_not_send s r (by rw [hf]; nofun)).symm.trans hu
    exact .inl rfl
  | rxArrive bs =>
    cases (frameArrives_eq s bs).symm.trans hu
    exact .inl rfl
  | rxByte =>
    cases hu
    obtain ⟨hd, -⟩ := h.receiving hf
    cases hq : s.rxq with
    | nil => exact .inl (by rw [State.rxByte_of_nil s hq])
    | cons b q => rw [State.rxByte_cons s b q hf hq]; exact deliversNoLength_takeByte s b q hd
  | tick => cases hu; exact deliversNoLength_tick s hf
  | reset k => exact .inl (by rw [resetEvent_next s t k hu]; rfl)

/-- Settles O60. -/
theorem framerNeverReportsLength : Obligations.FramerNeverReportsLength := by
  intro s t h hf hstep
  obtain ⟨_, ⟨_, rfl⟩ | ⟨u, ts, _, hturn⟩⟩ := step_next_cases s t hstep
  · exact .inl rfl
  · exact (h.of_env ts s.cmds s.rxq).runTurn_deliversNoLength hf u hturn

end Sys2Proof.Machine
end
